-- ==== Sys2Proof/Word.lean ====
section
/-! DEFINITION. Word.lean: a bit vector that carries its width (spec/00_scope.md R9). The core's formats are
parametric, so the width of a packed word is data, not one number. -/

namespace Sys2Proof

/-- A word `w[n-1:0]`: its width `n` and its bits, bit 0 the least significant (R9). -/
structure Word where
  width : Nat
  bits : BitVec width
deriving DecidableEq, Repr

namespace Word

/-- The word read as an unsigned integer (R9). -/
def toNat (w : Word) : Nat := w.bits.toNat

/-- The `n`-bit word of an unsigned integer below `2^n` (a larger one keeps its low `n` bits). -/
def ofNat (n v : Nat) : Word := ⟨n, BitVec.ofNat n v⟩

/-- `ones(1)` or `zeros(1)`: a single bit as a word. -/
def ofBool (b : Bool) : Word := ofNat 1 b.toNat

/-- Bit `i` of the word; a position at or above the width reads 0. -/
def bit (w : Word) (i : Nat) : Bool := w.toNat.testBit i

end Word
end Sys2Proof
end

