-- ==== Sys2Proof/Config.lean ====
section
/-! DEFINITION. Config.lean: what a host fixes before a unit runs (formats, paths, pipeline configuration and the
open parameters of spec/00_scope.md R8), and the free values behind every draw (R11, R12). -/

namespace Sys2Proof

/-- The variant tag of a format (R5). -/
inductive Variant where
  | ieee
  | e4m3
deriving DecidableEq, Repr

/-- The named formats of R7. -/
inductive FmtName where
  | fp32
  | fp64
  | fp8e4m3
  | fp8e5m2
  | fp16
  | bf16
  | tf32
deriving DecidableEq, Repr

/-- A format operand: a named format, or the generic ieee format `E<e>M<m>` (R5, R7, R108). Only the named
FP8-E4M3 carries the e4m3 variant (R7). The widths are in Machine/Formats.lean. -/
inductive Fmt where
  | named (n : FmtName)
  | generic (E M : Nat)
deriving DecidableEq, Repr

/-- ADDER_PATH (R8, R266): which structural adder a unit is built with. -/
inductive AdderPath where
  | dual
  | single
deriving DecidableEq, Repr

/-- SQRT_SUBNORMAL, a parameter of each square root unit (R380, R383). -/
inductive SqrtSubnormal where
  | rounded
  | passthrough
  | flagged
deriving DecidableEq, Repr

/-- TRUNC_OVERFLOW (R129). -/
inductive TruncOverflow where
  | largestFinite
  | infinity
deriving DecidableEq, Repr

/-- RESET_STYLE (R38). -/
inductive ResetStyle where
  | sync
  | async
deriving DecidableEq, Repr

/-- BYTE_ORDER of a host's serialisation (R62); no operation observes it. -/
inductive ByteOrder where
  | little
  | big
deriving DecidableEq, Repr

/-- One chosen CANON_NAN word: the format's triple, and the sign and mantissa of its NaN (R124). -/
structure CanonEntry where
  E : Nat
  M : Nat
  variant : Variant
  sign : Bool
  mantissa : Nat
deriving DecidableEq, Repr

/-- The open parameters of R8 that a core fixes once, not unit by unit (log 25). They are fixed when it is built and no
step changes them (R33, R469). `canonNaN` lists the formats whose canonical NaN is not the default. -/
structure Params where
  canonNaN : List CanonEntry
  truncOverflow : TruncOverflow
  radices : List Nat
  byteOrder : ByteOrder
deriving DecidableEq, Repr

/-- The parameters of a square root unit, its pipeline apart (R380); SQRT_SUBNORMAL is `rounded` by default (R8, R383). -/
structure SqrtUnit where
  F : Fmt
  sub : SqrtSubnormal := .rounded
deriving DecidableEq, Repr

/-- What a clocked unit is and the formats, optional ports and parameters it is built with (R34, R250, R300, R340,
R380). -/
inductive UnitKind where
  | adder (F outF : Fmt) (path : AdderPath) (hasRm hasSubtract : Bool)
  | multiplier (F outF : Fmt)
  | converter (Fs Fd : Fmt)
  | squareRoot (u : SqrtUnit)
deriving DecidableEq, Repr

/-- The elaboration parameters of one clocked unit (R36, R38); RESET_STYLE is `sync` by default (R8). -/
structure UnitCfg where
  kind : UnitKind
  hasEnable : Bool
  hasReset : Bool
  latency : Nat
  resetStyle : ResetStyle := .sync
deriving DecidableEq, Repr

/-- The free numbers behind every drawn word (R11 `draw`): nothing constrains them. Log 7. -/
opaque Config.freeNat : Nat → Nat

/-- The free bits behind every drawn bit, sign or choice of two (R11 `draw`): nothing constrains them. Log 7. -/
opaque Config.freeBit : Nat → Bool

end Sys2Proof
end

