-- ==== Sys2Proof/Syntax.lean ====
section
/-! DEFINITION. Syntax.lean: the operations of spec/30_encoding.md R104, one constructor each, with their parameters
and operand values, and the invocation form in which a host presents one: the selector byte and the operand values
beside it (R103, R106, R107). -/

namespace Sys2Proof

/-- Characters of a string operand or result (R100 to R102). -/
abbrev Str := List Char

/-- An unsigned integer with the width it is declared with (R107, R187). -/
structure SizedNat where
  width : Nat
  val : Nat
deriving DecidableEq, Repr

/-- The operations of R104. Operands are whole values (R107). `outF` is the unit's OUT_FORMAT, `rm = none` a unit
without an `rm` port, and `u` a square root unit's format and SQRT_SUBNORMAL (R8, R250, R380; log 19). Each reference operand carries its own format (R194; log 17). -/
inductive Instr where
  | fpPack (F : Fmt) (s e m : Word)
  | fpFields (F : Fmt) (w : Word)
  | fpIsZero (F : Fmt) (w : Word)
  | fpIsNormal (F : Fmt) (w : Word)
  | fpIsSubnormal (F : Fmt) (w : Word)
  | fpIsInf (F : Fmt) (w : Word)
  | fpIsNaN (F : Fmt) (w : Word)
  | fpCmp (Fa : Fmt) (a : Word) (Fb : Fmt) (b : Word)
  | constNegZero (F : Fmt)
  | constPosZero (F : Fmt)
  | constMinSub (F : Fmt)
  | constMaxSub (F : Fmt)
  | constMinNorm (F : Fmt)
  | constOne (F : Fmt)
  | constOnePlus (F : Fmt)
  | constMaxNorm (F : Fmt)
  | constInf (F : Fmt)
  | fpFromDouble (x : BitVec 64) (F : Fmt) (rm : BitVec 3)
  | fpToDouble (F : Fmt) (w : Word)
  | fpFromInts (F : Fmt) (s e m : SizedNat)
  | fpFromBitStr (F : Fmt) (S X T : Str)
  | fpFromStr (F : Fmt) (str : Str)
  | fpFromRadix (F : Fmt) (str : Str) (r : Nat)
  | fpToBitStr (F : Fmt) (w : Word)
  | fpToStr (F : Fmt) (w : Word)
  | refAdd (Fa : Fmt) (a : Word) (Fb : Fmt) (b : Word)
  | refSub (Fa : Fmt) (a : Word) (Fb : Fmt) (b : Word)
  | refMul (Fa : Fmt) (a : Word) (Fb : Fmt) (b : Word)
  | refDiv (Fa : Fmt) (a : Word) (Fb : Fmt) (b : Word)
  | rndRne (bits : Word) (lsb : Int)
  | fadd (F outF : Fmt) (path : AdderPath) (rm : Option (BitVec 3)) (a b : Word)
  | fsub (F outF : Fmt) (path : AdderPath) (rm : Option (BitVec 3)) (a b : Word)
  | fmul (F outF : Fmt) (a b : Word)
  | fcvt (Fs Fd : Fmt) (a : Word)
  | fsqrt (u : SqrtUnit) (a : Word)
deriving DecidableEq, Repr

/-- One operand value or parameter of an invocation (R103, R107). -/
inductive Arg where
  | fmt (F : Fmt)
  | word (w : Word)
  | double (x : BitVec 64)
  | sized (n : SizedNat)
  | str (t : Str)
  | nat (n : Nat)
  | int (z : Int)
  | rm (r : Option (BitVec 3))
  | path (p : AdderPath)
  | sqrtSub (x : SqrtSubnormal)
deriving DecidableEq, Repr

/-- An invocation: "the selector plus its parameters plus its operand values" (R103), the values in the order of the
operation's row of R104, with the parameters that R104 does not list where logs 17 and 19 place them. -/
structure Invocation where
  op : BitVec 8
  args : List Arg
deriving DecidableEq, Repr

/-- What the host does on a clocked unit's control ports in one action: whether `clk` has a rising edge, and the levels
of `en` and `reset` (R34, R38). A port the unit lacks is not read. -/
structure Pins where
  rising : Bool
  en : Bool
  reset : Bool
deriving DecidableEq, Repr

/-- One action of the host (R31, R464): apply an operation to a codec function or a combinational unit; elaborate a
clocked unit; or drive the ports of clocked unit `k`. -/
inductive HostAction where
  | invoke (v : Invocation)
  | elaborate (c : UnitCfg)
  | drive (k : Nat) (pins : Pins) (v : Invocation)
deriving DecidableEq, Repr

end Sys2Proof
end

