-- ==== Sys2Proof/Machine/Formats.lean ====
section
/-! DEFINITION. Machine/Formats.lean: the widths of the named formats (spec/00_scope.md R7), the constants of a format
(30_encoding.md R81), and which formats the codec and the units admit (R6). -/

namespace Sys2Proof

/-- The exponent width `E` of a format (R5, R7). -/
def Fmt.E : Fmt → Nat
  | .named .fp32 => 8
  | .named .fp64 => 11
  | .named .fp8e4m3 => 4
  | .named .fp8e5m2 => 5
  | .named .fp16 => 5
  | .named .bf16 => 8
  | .named .tf32 => 8
  | .generic E _ => E

/-- The mantissa width `M` of a format (R5, R7). -/
def Fmt.M : Fmt → Nat
  | .named .fp32 => 23
  | .named .fp64 => 52
  | .named .fp8e4m3 => 3
  | .named .fp8e5m2 => 2
  | .named .fp16 => 10
  | .named .bf16 => 7
  | .named .tf32 => 10
  | .generic _ M => M

/-- The variant tag: e4m3 for the named FP8-E4M3 only (R7). -/
def Fmt.variant : Fmt → Variant
  | .named .fp8e4m3 => .e4m3
  | _ => .ieee

/-- The packed width `W = 1 + E + M` (R5). -/
def Fmt.W (F : Fmt) : Nat := 1 + F.E + F.M

/-- `bias = 2^(E-1) - 1` (R81). -/
def Fmt.bias (F : Fmt) : Nat := 2 ^ (F.E - 1) - 1

/-- `emin = 1 - bias` (R81). -/
def Fmt.emin (F : Fmt) : Int := 1 - (F.bias : Int)

/-- `emax`: `bias` for ieee, `bias + 1` for e4m3 (R81). -/
def Fmt.emax (F : Fmt) : Int :=
  match F.variant with
  | .ieee => F.bias
  | .e4m3 => F.bias + 1

/-- `eall = 2^E - 1`, the all-ones exponent field (R81). -/
def Fmt.eall (F : Fmt) : Nat := 2 ^ F.E - 1

/-- `mall = 2^M - 1`, the all-ones mantissa field (R81). -/
def Fmt.mall (F : Fmt) : Nat := 2 ^ F.M - 1

/-- The same format: the same triple `(E, M, variant)` (R5). -/
def Fmt.same (F G : Fmt) : Bool := F.E == G.E && F.M == G.M && F.variant == G.variant

/-- A format of the generic type, whose widths a construction takes from its fields (R160). -/
def Fmt.isGeneric : Fmt → Bool
  | .generic _ _ => true
  | .named _ => false

/-- The codec admits `E ≥ 1` and `M ≥ 1` (R6). -/
def Fmt.codecOk (F : Fmt) : Bool := decide (1 ≤ F.E) && decide (1 ≤ F.M)

/-- The units admit ieee formats with `E ≥ 2` and `M ≥ 1` (R6). -/
def Fmt.unitOk (F : Fmt) : Bool := F.variant == .ieee && decide (2 ≤ F.E) && decide (1 ≤ F.M)

/-- FP64, the binary64 format (00_scope.md section 5). -/
def fp64 : Fmt := .named .fp64

/-- FP32, the binary32 format. -/
def fp32 : Fmt := .named .fp32

end Sys2Proof
end

