-- ==== Sys2Proof/Decode.lean ====
section
/-! DEFINITION. Decode.lean: from a selector byte and its operand values to an instruction, and back (spec/30_encoding.md
R103 to R107). Every selector is one byte; operands have no bits in it (R106, R107). Reserved selectors are rejected by
name (R105). -/

namespace Sys2Proof

/-- Why an invocation has no instruction: its selector is reserved (R105), or its operand values are not those of the
selector's row of R104 (R106). -/
inductive DecodeError where
  | reservedSelector (op : BitVec 8)
  | operandShape (op : BitVec 8)
deriving DecidableEq, Repr

/-- Operands `F`. -/
def readFmt (k : Fmt → Instr) : List Arg → Option Instr
  | [.fmt F] => some (k F)
  | _ => none

/-- Operands `F, w`. -/
def readFmtWord (k : Fmt → Word → Instr) : List Arg → Option Instr
  | [.fmt F, .word w] => some (k F w)
  | _ => none

/-- Operands `Fa, a, Fb, b`. -/
def readTwoValues (k : Fmt → Word → Fmt → Word → Instr) : List Arg → Option Instr
  | [.fmt Fa, .word a, .fmt Fb, .word b] => some (k Fa a Fb b)
  | _ => none

/-- Operands `F, s, e, m` as field words with widths. -/
def readFields (k : Fmt → Word → Word → Word → Instr) : List Arg → Option Instr
  | [.fmt F, .word s, .word e, .word m] => some (k F s e m)
  | _ => none

/-- Operands `x, F, rm`. -/
def readDouble (k : BitVec 64 → Fmt → BitVec 3 → Instr) : List Arg → Option Instr
  | [.double x, .fmt F, .rm (some rm)] => some (k x F rm)
  | _ => none

/-- Operands `F, s, e, m` as unsigned integers with widths. -/
def readInts (k : Fmt → SizedNat → SizedNat → SizedNat → Instr) : List Arg → Option Instr
  | [.fmt F, .sized s, .sized e, .sized m] => some (k F s e m)
  | _ => none

/-- Operands `F` and three strings. -/
def readStrings (k : Fmt → Str → Str → Str → Instr) : List Arg → Option Instr
  | [.fmt F, .str S, .str X, .str T] => some (k F S X T)
  | _ => none

/-- Operands `F` and one string. -/
def readString (k : Fmt → Str → Instr) : List Arg → Option Instr
  | [.fmt F, .str t] => some (k F t)
  | _ => none

/-- Operands `F`, a numeral string and a radix. -/
def readRadix (k : Fmt → Str → Nat → Instr) : List Arg → Option Instr
  | [.fmt F, .str t, .nat r] => some (k F t r)
  | _ => none

/-- Operands `bits, lsb`. -/
def readRound (k : Word → Int → Instr) : List Arg → Option Instr
  | [.word bits, .int lsb] => some (k bits lsb)
  | _ => none

/-- Operands `F, OUT_FORMAT, ADDER_PATH, rm, a, b`. -/
def readAdder (k : Fmt → Fmt → AdderPath → Option (BitVec 3) → Word → Word → Instr) : List Arg → Option Instr
  | [.fmt F, .fmt outF, .path p, .rm rm, .word a, .word b] => some (k F outF p rm a b)
  | _ => none

/-- Operands `F, OUT_FORMAT, a, b`. -/
def readMul (k : Fmt → Fmt → Word → Word → Instr) : List Arg → Option Instr
  | [.fmt F, .fmt outF, .word a, .word b] => some (k F outF a b)
  | _ => none

/-- Operands `F, SQRT_SUBNORMAL, a`. -/
def readSqrt (k : SqrtUnit → Word → Instr) : List Arg → Option Instr
  | [.fmt F, .sqrtSub x, .word a] => some (k ⟨F, x⟩ a)
  | _ => none

/-- Operands `Fs, Fd, a`. -/
def readConv (k : Fmt → Fmt → Word → Instr) : List Arg → Option Instr
  | [.fmt Fs, .fmt Fd, .word a] => some (k Fs Fd a)
  | _ => none

/-- The selector map (R104): how the operands of each selector's row are read; `none` for a reserved one (R105). -/
def selectorRow : Nat → Option (List Arg → Option Instr)
  | 0x01 => some (readFields .fpPack)
  | 0x02 => some (readFmtWord .fpFields)
  | 0x03 => some (readFmtWord .fpIsZero)
  | 0x04 => some (readFmtWord .fpIsNormal)
  | 0x05 => some (readFmtWord .fpIsSubnormal)
  | 0x06 => some (readFmtWord .fpIsInf)
  | 0x07 => some (readFmtWord .fpIsNaN)
  | 0x08 => some (readTwoValues .fpCmp)
  | 0x10 => some (readFmt .constNegZero)
  | 0x11 => some (readFmt .constPosZero)
  | 0x12 => some (readFmt .constMinSub)
  | 0x13 => some (readFmt .constMaxSub)
  | 0x14 => some (readFmt .constMinNorm)
  | 0x15 => some (readFmt .constOne)
  | 0x16 => some (readFmt .constOnePlus)
  | 0x17 => some (readFmt .constMaxNorm)
  | 0x18 => some (readFmt .constInf)
  | 0x20 => some (readDouble .fpFromDouble)
  | 0x21 => some (readFmtWord .fpToDouble)
  | 0x22 => some (readInts .fpFromInts)
  | 0x23 => some (readStrings .fpFromBitStr)
  | 0x24 => some (readString .fpFromStr)
  | 0x25 => some (readRadix .fpFromRadix)
  | 0x26 => some (readFmtWord .fpToBitStr)
  | 0x27 => some (readFmtWord .fpToStr)
  | 0x28 => some (readTwoValues .refAdd)
  | 0x29 => some (readTwoValues .refSub)
  | 0x2A => some (readTwoValues .refMul)
  | 0x2B => some (readTwoValues .refDiv)
  | 0x30 => some (readRound .rndRne)
  | 0x40 => some (readAdder .fadd)
  | 0x41 => some (readAdder .fsub)
  | 0x50 => some (readMul .fmul)
  | 0x60 => some (readConv .fcvt)
  | 0x70 => some (readSqrt .fsqrt)
  | _ => none

/-- The decoder, total on every selector byte and every list of operand values. -/
def decode (v : Invocation) : Except DecodeError Instr :=
  match selectorRow v.op.toNat with
  | none => .error (.reservedSelector v.op)
  | some read =>
    match read v.args with
    | some i => .ok i
    | none => .error (.operandShape v.op)

/-- The encoder: the selector of the instruction's row of R104 and its operand values in the row's order, with the
parameters that R104 does not list where logs 17 and 19 place them. -/
def encode : Instr → Invocation
  | .fpPack F s e m => ⟨0x01, [.fmt F, .word s, .word e, .word m]⟩
  | .fpFields F w => ⟨0x02, [.fmt F, .word w]⟩
  | .fpIsZero F w => ⟨0x03, [.fmt F, .word w]⟩
  | .fpIsNormal F w => ⟨0x04, [.fmt F, .word w]⟩
  | .fpIsSubnormal F w => ⟨0x05, [.fmt F, .word w]⟩
  | .fpIsInf F w => ⟨0x06, [.fmt F, .word w]⟩
  | .fpIsNaN F w => ⟨0x07, [.fmt F, .word w]⟩
  | .fpCmp Fa a Fb b => ⟨0x08, [.fmt Fa, .word a, .fmt Fb, .word b]⟩
  | .constNegZero F => ⟨0x10, [.fmt F]⟩
  | .constPosZero F => ⟨0x11, [.fmt F]⟩
  | .constMinSub F => ⟨0x12, [.fmt F]⟩
  | .constMaxSub F => ⟨0x13, [.fmt F]⟩
  | .constMinNorm F => ⟨0x14, [.fmt F]⟩
  | .constOne F => ⟨0x15, [.fmt F]⟩
  | .constOnePlus F => ⟨0x16, [.fmt F]⟩
  | .constMaxNorm F => ⟨0x17, [.fmt F]⟩
  | .constInf F => ⟨0x18, [.fmt F]⟩
  | .fpFromDouble x F rm => ⟨0x20, [.double x, .fmt F, .rm (some rm)]⟩
  | .fpToDouble F w => ⟨0x21, [.fmt F, .word w]⟩
  | .fpFromInts F s e m => ⟨0x22, [.fmt F, .sized s, .sized e, .sized m]⟩
  | .fpFromBitStr F S X T => ⟨0x23, [.fmt F, .str S, .str X, .str T]⟩
  | .fpFromStr F t => ⟨0x24, [.fmt F, .str t]⟩
  | .fpFromRadix F t r => ⟨0x25, [.fmt F, .str t, .nat r]⟩
  | .fpToBitStr F w => ⟨0x26, [.fmt F, .word w]⟩
  | .fpToStr F w => ⟨0x27, [.fmt F, .word w]⟩
  | .refAdd Fa a Fb b => ⟨0x28, [.fmt Fa, .word a, .fmt Fb, .word b]⟩
  | .refSub Fa a Fb b => ⟨0x29, [.fmt Fa, .word a, .fmt Fb, .word b]⟩
  | .refMul Fa a Fb b => ⟨0x2A, [.fmt Fa, .word a, .fmt Fb, .word b]⟩
  | .refDiv Fa a Fb b => ⟨0x2B, [.fmt Fa, .word a, .fmt Fb, .word b]⟩
  | .rndRne bits lsb => ⟨0x30, [.word bits, .int lsb]⟩
  | .fadd F outF p rm a b => ⟨0x40, [.fmt F, .fmt outF, .path p, .rm rm, .word a, .word b]⟩
  | .fsub F outF p rm a b => ⟨0x41, [.fmt F, .fmt outF, .path p, .rm rm, .word a, .word b]⟩
  | .fmul F outF a b => ⟨0x50, [.fmt F, .fmt outF, .word a, .word b]⟩
  | .fcvt Fs Fd a => ⟨0x60, [.fmt Fs, .fmt Fd, .word a]⟩
  | .fsqrt u a => ⟨0x70, [.fmt u.F, .sqrtSub u.sub, .word a]⟩

/-- The word of zeros of FP32, the format the table's operand-free bytes are read at (log 2). -/
def zeroWord : Word := Word.ofNat fp32.W 0

/-- A field word of `n` zero bits. -/
def zeroField (n : Nat) : Arg := .word (Word.ofNat n 0)

/-- `n` characters `0`. -/
def zeroChars (n : Nat) : Str := List.replicate n '0'

/-- The operand values that stand beside a selector byte given alone: every operand zero, at format FP32 (log 2). -/
def zeroArgs : Nat → List Arg
  | 0x01 => [.fmt fp32, zeroField 1, zeroField 8, zeroField 23]
  | 0x08 => [.fmt fp32, .word zeroWord, .fmt fp32, .word zeroWord]
  | 0x10 => [.fmt fp32]
  | 0x11 => [.fmt fp32]
  | 0x12 => [.fmt fp32]
  | 0x13 => [.fmt fp32]
  | 0x14 => [.fmt fp32]
  | 0x15 => [.fmt fp32]
  | 0x16 => [.fmt fp32]
  | 0x17 => [.fmt fp32]
  | 0x18 => [.fmt fp32]
  | 0x20 => [.double 0, .fmt fp32, .rm (some 0)]
  | 0x22 => [.fmt fp32, .sized ⟨1, 0⟩, .sized ⟨8, 0⟩, .sized ⟨23, 0⟩]
  | 0x23 => [.fmt fp32, .str (zeroChars 1), .str (zeroChars 8), .str (zeroChars 23)]
  | 0x24 => [.fmt fp32, .str (zeroChars 1 ++ ' ' :: zeroChars 8 ++ ' ' :: zeroChars 23)]
  | 0x25 => [.fmt fp32, .str (zeroChars 1), .nat 16]
  | 0x28 => [.fmt fp32, .word zeroWord, .fmt fp32, .word zeroWord]
  | 0x29 => [.fmt fp32, .word zeroWord, .fmt fp32, .word zeroWord]
  | 0x2A => [.fmt fp32, .word zeroWord, .fmt fp32, .word zeroWord]
  | 0x2B => [.fmt fp32, .word zeroWord, .fmt fp32, .word zeroWord]
  | 0x30 => [zeroField 1, .int 0]
  | 0x40 => [.fmt fp32, .fmt fp32, .path .dual, .rm none, .word zeroWord, .word zeroWord]
  | 0x41 => [.fmt fp32, .fmt fp32, .path .dual, .rm none, .word zeroWord, .word zeroWord]
  | 0x50 => [.fmt fp32, .fmt fp32, .word zeroWord, .word zeroWord]
  | 0x60 => [.fmt fp32, .fmt fp32, .word zeroWord]
  | 0x70 => [.fmt fp32, .sqrtSub .rounded, .word zeroWord]
  | _ => [.fmt fp32, .word zeroWord]

/-- The invocation a bare selector byte stands for (log 2). -/
def tableInvocation (w : Nat) : Invocation := ⟨BitVec.ofNat 8 w, zeroArgs w⟩

/-- What the decoder reads from an instruction of the opcode table: one selector byte, operands zero (R106). -/
def decodeTableWord (nbits w : Nat) : Option Instr :=
  if nbits = 8 ∧ w < 256 then
    match decode (tableInvocation w) with
    | .ok i => some i
    | .error _ => none
  else none

end Sys2Proof
end

