-- ==== Sys2Proof/Machine/Operands.lean ====
section
/-! DEFINITION. Machine/Operands.lean: the fields of a packed word, its class, and the exact magnitude of a finite one
(spec/30_encoding.md R80 to R87). -/

namespace Sys2Proof.Machine

open Sys2Proof

/-- The triple (sign, exponent, mantissa) of a value (R80). -/
structure Fields where
  s : Bool
  e : Nat
  m : Nat
deriving DecidableEq, Repr

/-- `fields_F(w)` (R80, R11). -/
def fields (F : Fmt) (w : Word) : Fields :=
  { s := w.bit (F.W - 1), e := w.toNat / 2 ^ F.M % 2 ^ F.E, m := w.toNat % 2 ^ F.M }

/-- `pack_F(s, e, m) = {s, e, m}` (R80, R11). -/
def pack (F : Fmt) (s : Bool) (e m : Nat) : Word :=
  Word.ofNat F.W (s.toNat * 2 ^ (F.E + F.M) + e * 2 ^ F.M + m)

/-- `zero_F(s)` (40_numerics.md R122). -/
def zeroWordOf (F : Fmt) (s : Bool) : Word := pack F s 0 0

/-- `inf_F(s)` (R122). -/
def infWordOf (F : Fmt) (s : Bool) : Word := pack F s F.eall 0

/-- `isZero` (R162). -/
def isZero (F : Fmt) (w : Word) : Bool :=
  (fields F w).e == 0 && (fields F w).m == 0

/-- `isSubnormal` (R164). -/
def isSubnormal (F : Fmt) (w : Word) : Bool :=
  (fields F w).e == 0 && (fields F w).m != 0

/-- `isNaN` (R166): ieee all-ones exponent and a nonzero mantissa; e4m3 all ones in both. -/
def isNaN (F : Fmt) (w : Word) : Bool :=
  match F.variant with
  | .ieee => (fields F w).e == F.eall && (fields F w).m != 0
  | .e4m3 => (fields F w).e == 15 && (fields F w).m == 7

/-- `isInfinity` (R165): never for e4m3. -/
def isInf (F : Fmt) (w : Word) : Bool :=
  match F.variant with
  | .ieee => (fields F w).e == F.eall && (fields F w).m == 0
  | .e4m3 => false

/-- `isNormal` (R163). -/
def isNormal (F : Fmt) (w : Word) : Bool :=
  match F.variant with
  | .ieee => (fields F w).e != 0 && (fields F w).e != F.eall
  | .e4m3 => (fields F w).e != 0 && !((fields F w).e == 15 && (fields F w).m == 7)

/-- The sign bit (R85). -/
def signOf (F : Fmt) (w : Word) : Bool := (fields F w).s

/-- The effective exponent `ee = max(e, 1)` (R87). -/
def effExp (F : Fmt) (w : Word) : Nat := max (fields F w).e 1

/-- The significand with its explicit leading bit (R87). -/
def significand (F : Fmt) (w : Word) : Nat :=
  (if (fields F w).e != 0 then 2 ^ F.M else 0) + (fields F w).m

/-- An exact magnitude `num / den × 2^exp`, unbounded (00_scope.md R10). -/
structure Mag where
  num : Nat
  den : Nat
  exp : Int
deriving DecidableEq, Repr

/-- `|val_F(w)|` of a finite word: `sig × 2^(ee - bias - M)` (R86, R87). -/
def magOf (F : Fmt) (w : Word) : Mag :=
  { num := significand F w, den := 1, exp := (effExp F w : Int) - F.bias - F.M }

/-- The binary64 word of a double. -/
def doubleWord (x : BitVec 64) : Word := ⟨64, x⟩

end Sys2Proof.Machine
end

