-- ==== Sys2Proof/Machine/State.lean ====
section
/-! DEFINITION. Machine/State.lean: everything the spec gives the machine as state (spec/10_state.md R30 to R43): the
stage slots and output ports of the clocked units, beside what they were elaborated with; and the model's own fields for
the host's side (the actions to come, the outputs last left, the count of draws). There are no registers, no program
counter and no memory (R30 to R33, R42, R43, R60). -/

namespace Sys2Proof.Machine

/-- The error names of spec/60_exceptions.md R425. -/
inductive ErrorCode where
  | widthError
  | invalidOperation
  | rangeError
  | malformedInput
deriving DecidableEq, Repr

/-- The `info` of a raised error: which condition of its rule raised it (R421 to R424). -/
inductive ErrorInfo where
  | signWidth
  | fieldWidthOfNamedFormat
  | compareWidthMismatch
  | integerExceedsItsWidth
  | formatsDiffer
  | numeralTooWide
  | notABinaryDigit
  | emptyString
  | notThreeParts
  | notANumeral
  | exceedsE4M3
  | exceedsE5M2
deriving DecidableEq, Repr

/-- The words an operation puts on its outputs (the results column of 30_encoding.md R104). -/
inductive Value where
  | word (w : Word)
  | fields (s e m : Word)
  | bit (b : Bool)
  | order (c : Int)
  | double (x : BitVec 64)
  | strings (S X T : Str)
  | string (t : Str)
  | root (w : Word) (error : Bool)
deriving DecidableEq, Repr

/-- What the last operation left behind: nothing yet, a value, or a raised error with no value (R12, R420). -/
inductive Out where
  | nothing
  | value (v : Value)
  | raised (e : ErrorCode) (info : ErrorInfo)
deriving DecidableEq, Repr

/-- The physical bits of a stage register that holds no captured input: PIPE_RESET_VALUE (all zeros) after a reset,
unknown at power-up (R39, R41, 70_reset_and_hazards.md R462). No output depends on them. -/
inductive RegBits where
  | zeros
  | unknown
deriving DecidableEq, Repr

/-- A stage slot: the mark ⊥, or a captured input tuple with the operation it is an input of (R37; log 6). -/
inductive Slot where
  | bottom (regs : RegBits)
  | captured (i : Instr)
deriving DecidableEq, Repr

/-- A clocked unit: its elaboration parameters, its slots `slot[1..LATENCY]` in that order, and the words on its output
ports, which hold between edges (R36, R37, R40). -/
structure ClockedUnit where
  cfg : UnitCfg
  slots : List Slot
  out : Value
deriving DecidableEq, Repr

/-- The machine's state. -/
structure State where
  /-- The open parameters (00_scope.md R8); no step changes them (R33). -/
  params : Params
  /-- The elaborated clocked units (R36, R37, R473). -/
  units : List ClockedUnit
  /-- MODEL's own: the host's actions still to come, oldest first (R31; log 1). -/
  program : List HostAction
  /-- MODEL's own: what the last operation left on the outputs, or the error it raised (R35, R420). -/
  out : Out
  /-- MODEL's own: how many free values have been drawn (R11; log 7). -/
  draws : Nat
deriving DecidableEq, Repr

/-- Why the machine stops. -/
inductive Fault where
  /-- Raised by driving a clocked unit whose configuration is a refused one: "stuck (it has no behaviour; a model does
  not step it)" (93_implementation_defined.md I26, 70_reset_and_hazards.md R464). Safe. -/
  | stuckConfiguration
deriving DecidableEq, Repr

/-- Why an invocation has no meaning (R12, R428). All are safe: no claim about a value can be proved from one. -/
inductive Refusal where
  /-- An instruction without a meaning in this model; no arm of exec answers it. -/
  | notModelled (mnemonic : String)
  /-- A selector of R105; raised by the step. -/
  | reservedSelector (op : BitVec 8)
  /-- Operand values that are not those of the selector's row (R106); raised by the step. -/
  | operandShape (op : BitVec 8)
  /-- A codec format with `E = 0` or `M = 0` (R6); raised by every codec operation. -/
  | codecFormat
  /-- A word whose width is not its format's (20_memory.md R63); raised by every operation with a word operand. -/
  | operandWidth
  /-- A unit format that is e4m3 or has `E < 2` or `M < 1` (R6, R428); raised by FADD, FSUB, FMUL, FCVT, FSQRT. -/
  | unitFormat
  /-- An output format other than the input format (R250, R300, R428); raised by FADD, FSUB, FMUL. -/
  | outputFormat
  /-- An adder `rm` other than `000` (R255, R428); raised by FADD, FSUB. -/
  | adderRounding
  /-- `rm` 110 or 111 (R96, R180, R428); raised by FP.FROMDOUBLE. -/
  | reservedRounding
  /-- `lsb` outside `[0, N-1]` (R233, R428); raised by RND.RNE. -/
  | lsbRange
  /-- A generic construction with `E = 0` or `M = 0` (R160, R428); raised by FP.PACK, FP.FROMINTS, FP.FROMBITSTR, FP.FROMSTR. -/
  | emptyGenericField
  /-- A constant that needs a normal number at `E = 1` (R428, section 4 of 41_value_codec.md). -/
  | constantNeedsNormal
  /-- FP.CONST.INF for e4m3 (R178, R428). -/
  | noInfinity
  /-- A radix outside RADICES (R190, R428); raised by FP.FROMRADIX. -/
  | radix
  /-- Elaborating a unit with LATENCY 0 (R36: "LATENCY ≥ 1"); raised by the step. -/
  | latency
  /-- Driving a unit that was never elaborated; raised by the step. -/
  | noSuchUnit
  /-- Driving a unit with inputs its ports do not have (R34, R63); raised by the step. -/
  | portMismatch
deriving DecidableEq, Repr

/-- The outcome of a step or of one operation. -/
abbrev StepOutcome := Host.Outcome State Fault Refusal

/-- The open parameters at the spec's defaults (00_scope.md R8); RADICES and BYTE_ORDER have none and are the model's
choice (logs 9 and 10). -/
def defaultParams : Params :=
  { canonNaN := [], truncOverflow := .largestFinite,
    radices := [2, 8, 10, 16], byteOrder := .little }

/-- The machine before the host has elaborated anything (70_reset_and_hazards.md R462, R464). -/
def State.reset : State :=
  { params := defaultParams, units := [], program := [], out := .nothing, draws := 0 }

end Sys2Proof.Machine
end

