-- ==== Sys2Proof/Machine/Ops.lean ====
section
/-! DEFINITION. Machine/Ops.lean: the operations every meaning is written over: putting a value on the outputs, raising
an error (the core's only exception, spec/60_exceptions.md R420: no state is saved, no mode changes and control goes
nowhere, R431; the host goes on with its next invocation, R432), counting draws, and the guards that refuse an
invocation before anything else (R426, R428). -/

namespace Sys2Proof.Machine

open Sys2Proof

/-- The output ports take a value (R12, R64). -/
def State.put (s : State) (v : Value) : State := { s with out := .value v }

/-- An error is the outcome, with no value (R12, R420). -/
def State.fail (s : State) (e : ErrorCode) (info : ErrorInfo) : State := { s with out := .raised e info }

/-- `n` more free values have been drawn. -/
def State.drew (s : State) (n : Nat) : State := { s with draws := s.draws + n }

/-- Replace clocked unit `k`. -/
def State.setUnit (s : State) (k : Nat) (u : ClockedUnit) : State := { s with units := s.units.set k u }

/-- Add a clocked unit. -/
def State.addUnit (s : State) (u : ClockedUnit) : State := { s with units := s.units ++ [u] }

/-- The operation completes with a value. -/
def emit (v : Value) (s : State) : StepOutcome := .next (s.put v)

/-- `raise <Error>(info)` (R11): the operation completes with the named error and no value, and the machine goes on
(R420, R432). -/
def raise (e : ErrorCode) (info : ErrorInfo) (s : State) : StepOutcome := .next (s.fail e info)

/-- `refuse <Reason>` (R11). -/
def refuse (r : Refusal) : StepOutcome := .refused r

/-- A codec format must be admitted (R6). -/
def withCodecFormat (F : Fmt) (k : StepOutcome) : StepOutcome :=
  if F.codecOk then k else refuse .codecFormat

/-- A codec operand: an admitted format and a word of its width (R6, R63, R107). -/
def withCodecWord (F : Fmt) (w : Word) (k : StepOutcome) : StepOutcome :=
  withCodecFormat F (if w.width = F.W then k else refuse .operandWidth)

/-- A unit's format must be admitted (R6, R428). -/
def withUnitFormat (F : Fmt) (k : StepOutcome) : StepOutcome :=
  if F.unitOk then k else refuse .unitFormat

/-- A unit operand: an admitted format and a word of its width (R6, R63). -/
def withUnitWord (F : Fmt) (w : Word) (k : StepOutcome) : StepOutcome :=
  withUnitFormat F (if w.width = F.W then k else refuse .operandWidth)

/-- The output format must be the input format (R250, R300). -/
def withOutFormat (F outF : Fmt) (k : StepOutcome) : StepOutcome :=
  if outF.same F then k else refuse .outputFormat

end Sys2Proof.Machine
end

