-- ==== Sys2Proof/Machine/Clocked.lean ====
section
/-! DEFINITION. Machine/Clocked.lean: the clocked units (spec/10_state.md R34 to R41, 70_reset_and_hazards.md R460 to
R473) and the host's actions on the machine (R31, R464). `op` is the meaning of one operation, the dispatcher's `exec`. -/

namespace Sys2Proof.Machine

open Sys2Proof

/-- The meaning of an operation. -/
abbrev Meaning := Instr → State → StepOutcome

/-- A unit's configuration is admitted (R6, R250, R300, R340, R380; R36: `LATENCY ≥ 1`). -/
def admittedKind : UnitKind → Bool
  | .adder F outF _ _ _ => F.unitOk && outF.same F
  | .multiplier F outF => F.unitOk && outF.same F
  | .converter Fs Fd => Fs.unitOk && Fd.unitOk
  | .squareRoot u => u.F.unitOk

def admitted (c : UnitCfg) : Bool := admittedKind c.kind && decide (1 ≤ c.latency)

/-- The inputs of an operation are those of the unit's ports: its formats, its path, its SQRT_SUBNORMAL, its optional
`rm` and `subtract` ports, and words of the ports' widths (R34, R63). -/
def fits : UnitKind → Instr → Bool
  | .adder F outF path hasRm _, .fadd G outG p rm a b =>
    G.same F && outG.same outF && p == path && rm.isSome == hasRm && a.width == F.W && b.width == F.W
  | .adder F outF path hasRm hasSubtract, .fsub G outG p rm a b =>
    hasSubtract && G.same F && outG.same outF && p == path && rm.isSome == hasRm && a.width == F.W && b.width == F.W
  | .multiplier F outF, .fmul G outG a b => G.same F && outG.same outF && a.width == F.W && b.width == F.W
  | .converter Fs Fd, .fcvt Gs Gd a => Gs.same Fs && Gd.same Fd && a.width == Fs.W
  | .squareRoot u, .fsqrt v a => v.F.same u.F && v.sub == u.sub && a.width == u.F.W
  | _, _ => false

/-- What one action of the control ports does to the slots. -/
inductive ClockEvent where
  | clear
  | capture
  | hold
deriving DecidableEq, Repr

/-- R38, R461: an asynchronous reset acts at once; at a rising edge a reset wins over the enable; an enabled edge
captures; anything else changes nothing. -/
def clockEvent (c : UnitCfg) (pins : Pins) : ClockEvent :=
  if c.hasReset && pins.reset && (c.resetStyle == .async || pins.rising) then .clear
  else if pins.rising && (!c.hasEnable || pins.en) then .capture
  else .hold

/-- A slot passed on to the next boundary: a captured input as it is; ⊥ stays ⊥, its register bits no longer those of
a reset (R37, R39; log 12). -/
def Slot.advance : Slot → Slot
  | .bottom _ => .bottom .unknown
  | .captured i => .captured i

/-- The slots after an event (R38): `slot[1]` takes the inputs, `slot[k]` takes `slot[k-1]`; a reset makes all ⊥. -/
def clockSlots (e : ClockEvent) (i : Instr) (slots : List Slot) : List Slot :=
  match e with
  | .clear => slots.map (fun _ => .bottom .zeros)
  | .capture => .captured i :: slots.dropLast.map Slot.advance
  | .hold => slots

/-- `slot[LATENCY]` (R40). -/
def lastSlot (slots : List Slot) : Slot := slots.getLastD (.bottom .unknown)

/-- Drawn words of the output widths (R40); `c` numbers the draw. -/
def drawOutputs (k : UnitKind) (c : Nat) : Value :=
  match k with
  | .adder _ outF _ _ _ => .word (Word.ofNat outF.W (Config.freeNat c))
  | .multiplier _ outF => .word (Word.ofNat outF.W (Config.freeNat c))
  | .converter _ Fd => .word (Word.ofNat Fd.W (Config.freeNat c))
  | .squareRoot u => .root (Word.ofNat u.F.W (Config.freeNat c)) (Config.freeBit c)

/-- The outputs of a unit after an edge that captures, or a reset (R40): the operation of the last slot's inputs, or drawn
words. DESIGN CHOICE (log 26, safe): an adder's tuple whose `rm` is refused (R255) is captured like any other (R466), and
the drive that brings it to the last slot is the one refused. -/
def presentOutputs (op : Meaning) (k : Nat) (u : ClockedUnit) (s : State) : StepOutcome :=
  match lastSlot u.slots with
  | .bottom _ =>
    let v := drawOutputs u.cfg.kind s.draws
    emit v ((s.setUnit k { u with out := v }).drew 1)
  | .captured j =>
    match op j s with
    | .next t =>
      match t.out with
      | .value v => .next (t.setUnit k { u with out := v })
      | .raised _ _ => .next (t.setUnit k u)
      | .nothing => .next (t.setUnit k u)
    | .fault f => .fault f
    | .refused r => .refused r

/-- An event changes the slots and presents the outputs; without one both hold (R40, R465). DESIGN CHOICE (log 27, safe):
a drive during an asynchronous reset is such an event each time, so the outputs are drawn anew although every slot is ⊥
already and `clk` has no edge. -/
def clockUnit (op : Meaning) (k : Nat) (u : ClockedUnit) (e : ClockEvent) (i : Instr) (s : State) : StepOutcome :=
  match e with
  | .hold => emit u.out s
  | .clear => presentOutputs op k { u with slots := clockSlots .clear i u.slots } s
  | .capture => presentOutputs op k { u with slots := clockSlots .capture i u.slots } s

/-- Drive the ports of clocked unit `k`. A unit with a refused configuration is never stepped (R464; 93 I26). -/
def driveUnit (op : Meaning) (k : Nat) (pins : Pins) (i : Instr) (s : State) : StepOutcome :=
  match s.units[k]? with
  | none => refuse .noSuchUnit
  | some u =>
    if !admitted u.cfg then .fault .stuckConfiguration
    else if !fits u.cfg.kind i then refuse .portMismatch
    else clockUnit op k u (clockEvent u.cfg pins) i s

/-- A unit at power-up: every slot ⊥, its register bits unknown, its outputs drawn (R41, R462). -/
def powerUpUnit (c : UnitCfg) (draw : Nat) : ClockedUnit :=
  { cfg := c, slots := List.replicate c.latency (.bottom .unknown), out := drawOutputs c.kind draw }

/-- The formats of a unit are admitted (R6). -/
def kindFormatsOk : UnitKind → Bool
  | .adder F _ _ _ _ => F.unitOk
  | .multiplier F _ => F.unitOk
  | .converter Fs Fd => Fs.unitOk && Fd.unitOk
  | .squareRoot u => u.F.unitOk

/-- Elaborate a clocked unit (R464 step 1); a refused configuration is refused by name (R428). -/
def elaborateUnit (c : UnitCfg) (s : State) : StepOutcome :=
  if !kindFormatsOk c.kind then refuse .unitFormat
  else if !admittedKind c.kind then refuse .outputFormat
  else if c.latency = 0 then refuse .latency
  else .next ((s.addUnit (powerUpUnit c s.draws)).drew 1)

/-- A decoder's rejection, as a refusal (R105, R106). -/
def decodeRefusal : DecodeError → Refusal
  | .reservedSelector op => .reservedSelector op
  | .operandShape op => .operandShape op

/-- Decode an invocation and give the instruction to `k`. -/
def withDecoded (v : Invocation) (k : Instr → StepOutcome) : StepOutcome :=
  match decode v with
  | .ok i => k i
  | .error e => refuse (decodeRefusal e)

/-- One action of the host. -/
def runAction (op : Meaning) (a : HostAction) (s : State) : StepOutcome :=
  match a with
  | .invoke v => withDecoded v (fun i => op i s)
  | .elaborate c => elaborateUnit c s
  | .drive k pins v => withDecoded v (fun i => driveUnit op k pins i s)

/-- The rest of the host's actions, once the oldest is taken. -/
def State.dropAction (s : State) : State := { s with program := s.program.tail }

/-- The host's next action, taken from the front of the queue; with none left nothing changes (log 1). -/
def takeAction (op : Meaning) (s : State) : StepOutcome :=
  match s.program with
  | [] => .next s
  | a :: _ => runAction op a s.dropAction

end Sys2Proof.Machine
end

