-- ==== Sys2Proof/Machine/Numerics.lean ====
section
/-! DEFINITION. Machine/Numerics.lean: rounding an exact magnitude to a format (spec/40_numerics.md R126 to R129), and
the canonical NaN (R124). Everything is exact integer arithmetic (00_scope.md R10). -/

namespace Sys2Proof.Machine

open Sys2Proof

/-- `⌊log2 (n / d)⌋` for positive `n` and `d`. -/
def floorLog2Ratio (n d : Nat) : Int :=
  let g : Int := (n.log2 : Int) - (d.log2 : Int)
  if 0 ≤ g then (if d * 2 ^ g.toNat ≤ n then g else g - 1)
  else (if d ≤ n * 2 ^ (-g).toNat then g else g - 1)

/-- `⌊log2 a⌋` of a positive magnitude. -/
def Mag.floorLog2 (a : Mag) : Int := floorLog2Ratio a.num a.den + a.exp

/-- `a × 2^k` as a fraction of naturals. -/
def Mag.scale (a : Mag) (k : Int) : Nat × Nat :=
  (a.num * 2 ^ (a.exp + k).toNat, a.den * 2 ^ (-(a.exp + k)).toNat)

/-- The binade exponent `q(a)` (R126). -/
def binade (F : Fmt) (a : Mag) : Int := max a.floorLog2 F.emin

/-- `n(a) = a / 2^(q(a) - M)`, as a fraction (R126). -/
def inUlps (F : Fmt) (a : Mag) : Nat × Nat := a.scale ((F.M : Int) - binade F a)

/-- `p / d` rounded to the nearest integer, ties to even (R127). -/
def nearestEven (p d : Nat) : Nat :=
  let N := p / d
  let r := p % d
  if 2 * r > d ∨ (2 * r = d ∧ N % 2 = 1) then N + 1 else N

/-- The last lines of R127: `N` units in the last place of binade `q`, packed; `ovf` is the word of an overflow. -/
def packRounded (F : Fmt) (s : Bool) (q : Int) (N : Nat) (ovf : Word) : Word :=
  let N' := if N = 2 ^ (F.M + 1) then 2 ^ F.M else N
  let q' := if N = 2 ^ (F.M + 1) then q + 1 else q
  if q' > F.emax then ovf
  else if N' ≥ 2 ^ F.M then pack F s (q' + F.bias).toNat (N' - 2 ^ F.M)
  else pack F s 0 N'

/-- `RNE_F(s, a)` (R127). -/
def rne (F : Fmt) (s : Bool) (a : Mag) : Word :=
  if a.num = 0 then zeroWordOf F s
  else packRounded F s (binade F a) (nearestEven (inUlps F a).1 (inUlps F a).2) (infWordOf F s)

/-- The largest finite word of a format with sign `s` (R89, R177). -/
def maxFinite (F : Fmt) (s : Bool) : Word :=
  match F.variant with
  | .ieee => pack F s (F.eall - 1) F.mall
  | .e4m3 => pack F s 15 6

/-- TRUNC_OVERFLOW (R129). -/
def truncOverflowWord (p : Params) (F : Fmt) (s : Bool) : Word :=
  match p.truncOverflow with
  | .largestFinite => maxFinite F s
  | .infinity => infWordOf F s

/-- `RTZ_F(s, a)` (R129). -/
def rtz (p : Params) (F : Fmt) (s : Bool) (a : Mag) : Word :=
  if a.num = 0 then zeroWordOf F s
  else packRounded F s (binade F a) ((inUlps F a).1 / (inUlps F a).2) (truncOverflowWord p F s)

/-- One step of the digit recurrence: set bit `k` of the root when its square still fits. -/
def isqrtLoop (n : Nat) : Nat → Nat → Nat
  | 0, r => r
  | k + 1, r => isqrtLoop n k (if (r + 2 ^ k) * (r + 2 ^ k) ≤ n then r + 2 ^ k else r)

/-- `isqrt(n) = ⌊√n⌋` (00_scope.md R10), by digit recurrence. -/
def isqrt (n : Nat) : Nat := isqrtLoop n (n.log2 / 2 + 1) 0

/-- `RNE_F(0, √a)`: R127 on a root, decided by comparing squares (46_sqrt.md R380). -/
def rneSqrt (F : Fmt) (a : Mag) : Word :=
  if a.num = 0 then zeroWordOf F false
  else
    let q : Int := max (a.floorLog2 / 2) F.emin
    let f := a.scale (2 * ((F.M : Int) - q))
    let N := isqrt (f.1 / f.2)
    let h := (2 * N + 1) * (2 * N + 1) * f.2
    packRounded F false q (if 4 * f.1 > h ∨ (4 * f.1 = h ∧ N % 2 = 1) then N + 1 else N) (infWordOf F false)

/-- The default canonical NaN (R124): the mantissa's top bit set; e4m3 `0x7F`. -/
def defaultNaN (F : Fmt) : Word :=
  match F.variant with
  | .ieee => pack F false F.eall (2 ^ (F.M - 1))
  | .e4m3 => pack F false 15 7

/-- `CANON_NAN(F)` (R124): the chosen word of the format's triple where it is a NaN, else the default. -/
def canonNaN (p : Params) (F : Fmt) : Word :=
  match p.canonNaN.find? (fun c => c.E == F.E && c.M == F.M && c.variant == F.variant) with
  | none => defaultNaN F
  | some c =>
    let w := pack F c.sign F.eall (c.mantissa % 2 ^ F.M)
    if isNaN F w then w else defaultNaN F

/-- A drawn NaN of an ieee format: any sign, any nonzero mantissa (R11 `draw`, R184, R186). -/
def drawNaN (F : Fmt) (c : Nat) : Word :=
  let m := Config.freeNat c % 2 ^ F.M
  pack F (Config.freeBit c) F.eall (if m = 0 then 1 else m)

end Sys2Proof.Machine
end

