-- ==== Sys2Proof/Machine/Rounding.lean ====
section
/-! DEFINITION. Machine/Rounding.lean: the rounding primitive RND.RNE (spec/42_rounding.md R230 to R236) and the
bit-level helpers every unit shares: leading-zero count, shift with sticky, rounding step and packing
(43_adder.md R264, R265; 44_multiplier.md R305, R306). -/

namespace Sys2Proof.Machine

open Sys2Proof

/-- `roundUp(bits, lsb)` on a bit vector read as an unsigned integer (R230 to R232). -/
def roundUp (B lsb : Nat) : Bool :=
  let last := B.testBit lsb
  let guard := decide (1 ≤ lsb) && B.testBit (lsb - 1)
  let round := decide (2 ≤ lsb) && B.testBit (lsb - 2)
  let sticky := decide (3 ≤ lsb) && decide (B % 2 ^ (lsb - 2) ≠ 0)
  guard && (last || round || sticky)

/-- The number of leading zeros of `v` in `n` bits (the priority encoder of R263). -/
def leadingZeros (n v : Nat) : Nat := if v = 0 then n else n - 1 - v.log2

/-- `shift_right_sticky(X, k)` (R305). -/
def shiftRightSticky (X k : Nat) : Nat :=
  (X / 2 ^ k) ||| (if X % 2 ^ k ≠ 0 then 1 else 0)

/-- Denormalise a result whose biased exponent is below 1 (R305, R345, R385). -/
def denormalise (X : Nat) (re : Int) : Nat × Nat :=
  if re < 1 then (shiftRightSticky X (1 - re).toNat, 1) else (X, re.toNat)

/-- Packing (R265): infinity, normal, or subnormal. -/
def packUnit (F : Fmt) (s : Bool) (re K : Nat) : Word :=
  if re ≥ F.eall then infWordOf F s
  else if K ≥ 2 ^ F.M then pack F s re (K - 2 ^ F.M)
  else pack F s 0 K

/-- The rounding step and packing (R264, R265, R306): the kept significand, plus `roundUp`, with the carry into the
next binade. -/
def roundAndPack (F : Fmt) (s : Bool) (X lsb re : Nat) : Word :=
  let K := X / 2 ^ lsb + (roundUp X lsb).toNat
  if K = 2 ^ (F.M + 1) then packUnit F s (re + 1) (2 ^ F.M) else packUnit F s re K

/-- RND.RNE (R230, R233). -/
def execRndRne (bits : Word) (lsb : Int) (s : State) : StepOutcome :=
  if lsb < 0 ∨ (bits.width : Int) ≤ lsb then refuse .lsbRange
  else emit (.bit (roundUp bits.toNat lsb.toNat)) s

end Sys2Proof.Machine
end

