-- ==== Sys2Proof/Machine/Adder.lean ====
section
/-! DEFINITION. Machine/Adder.lean: FADD and FSUB through the adder's datapath, the dual-path near/far algorithm or the
single-path variant as ADDER_PATH selects (spec/43_adder.md R250 to R268; 92_eei_decisions.md D36). -/

namespace Sys2Proof.Machine

open Sys2Proof

/-- The operands after exponent difference and swap (R258, R259): `larger` and `smaller`, each an effective exponent and
a significand, and the sign of `larger`. -/
structure Aligned where
  eL : Nat
  sigL : Nat
  sL : Bool
  eS : Nat
  sigS : Nat
deriving DecidableEq, Repr

/-- R257: `sa XOR sb XOR subtract`. -/
def effSub (F : Fmt) (a b : Word) (sub : Bool) : Bool := signOf F a ^^ signOf F b ^^ sub

/-- R258: order by (effective exponent, significand); `b` carries its effective sign. -/
def swapOperands (F : Fmt) (a b : Word) (sub : Bool) : Aligned :=
  if effExp F b < effExp F a ∨ (effExp F b = effExp F a ∧ significand F b ≤ significand F a) then
    ⟨effExp F a, significand F a, signOf F a, effExp F b, significand F b⟩
  else
    ⟨effExp F b, significand F b, signOf F b ^^ sub, effExp F a, significand F a⟩

/-- R258: `delta ≥ 0`. -/
def Aligned.delta (x : Aligned) : Nat := x.eL - x.eS

/-- R261: alignment with guard, round and sticky bits, then the addition or subtraction. -/
def farSum (eff : Bool) (x : Aligned) : Nat :=
  let Lx := x.sigL * 2 ^ 3
  let Sx := shiftRightSticky (x.sigS * 2 ^ 3) x.delta
  if eff then Lx - Sx else Lx + Sx

/-- R262: far-path normalisation of a nonzero sum; the significand and its effective exponent. -/
def farNormalise (F : Fmt) (D eL : Nat) : Nat × Nat :=
  if D.testBit (F.M + 4) then ((D / 2) ||| (D % 2), eL + 1)
  else if !D.testBit (F.M + 3) && decide (1 < eL) then (D * 2, eL - 1)
  else (D, eL)

/-- R263: the near path's exact difference. -/
def nearDifference (x : Aligned) : Nat := x.sigL * 2 - x.sigS * 2 ^ (1 - x.delta)

/-- R263: near-path normalisation, the shift clamped at `eL - 1`. -/
def nearNormalise (F : Fmt) (D eL : Nat) : Nat × Nat :=
  let sh := min (leadingZeros (F.M + 2) D) (eL - 1)
  (D * 2 ^ sh, eL - sh)

/-- R266: single-path normalisation of a nonzero sum. -/
def singleNormalise (F : Fmt) (D eL : Nat) : Nat × Nat :=
  if D.testBit (F.M + 4) then ((D / 2) ||| (D % 2), eL + 1)
  else
    let sh := min (leadingZeros (F.M + 4) D) (eL - 1)
    (D * 2 ^ sh, eL - sh)

/-- R254: the sign of an exact zero sum, `sb` the effective sign of `b`. -/
def zeroSumSign (sa sb : Bool) : Bool := if sa == sb then sa else false

/-- R254, R264, R265: a zero sum, or rounding and packing at `lsb` of the normalised sum. -/
def finishSum (F : Fmt) (zeroSign sL : Bool) (D : Nat) (normalised : Nat × Nat) (lsb : Nat) : Word :=
  if D = 0 then zeroWordOf F zeroSign else roundAndPack F sL normalised.1 lsb normalised.2

/-- The far path of a finite sum (R261, R262, R264, R265). -/
def farPath (F : Fmt) (zeroSign eff : Bool) (x : Aligned) : Word :=
  finishSum F zeroSign x.sL (farSum eff x) (farNormalise F (farSum eff x) x.eL) 3

/-- The near path of a finite sum (R263 to R265). -/
def nearPath (F : Fmt) (zeroSign : Bool) (x : Aligned) : Word :=
  finishSum F zeroSign x.sL (nearDifference x) (nearNormalise F (nearDifference x) x.eL) 1

/-- The dual-path sum of two finite words (R260): the far path serves every effective addition and every `delta ≥ 2`. -/
def dualPathSum (F : Fmt) (a b : Word) (sub : Bool) : Word :=
  let x := swapOperands F a b sub
  let eff := effSub F a b sub
  let z := zeroSumSign (signOf F a) (signOf F b ^^ sub)
  if decide (2 ≤ x.delta) || !eff then farPath F z eff x else nearPath F z x

/-- The single-path sum of two finite words (R266). -/
def singlePathSum (F : Fmt) (a b : Word) (sub : Bool) : Word :=
  let x := swapOperands F a b sub
  let eff := effSub F a b sub
  finishSum F (zeroSumSign (signOf F a) (signOf F b ^^ sub)) x.sL (farSum eff x)
    (singleNormalise F (farSum eff x) x.eL) 3

/-- The adder's output (R253: NaN, then infinity against infinity, then infinity, then the selected path). -/
def adderSum (F : Fmt) (path : AdderPath) (nan : Word) (a b : Word) (sub : Bool) : Word :=
  let sa := signOf F a
  let sb := signOf F b ^^ sub
  if isNaN F a || isNaN F b then nan
  else if isInf F a && isInf F b then (if sa == sb then infWordOf F sa else nan)
  else if isInf F a then infWordOf F sa
  else if isInf F b then infWordOf F sb
  else match path with
    | .dual => dualPathSum F a b sub
    | .single => singlePathSum F a b sub

/-- The adder unit's admitted forms (R250, R255), then its output. -/
def adderUnit (F outF : Fmt) (path : AdderPath) (rm : Option (BitVec 3)) (a b : Word) (sub : Bool) (s : State) :
    StepOutcome :=
  withUnitWord F a (withUnitWord F b (withOutFormat F outF
    (if rm = none ∨ rm = some 0 then emit (.word (adderSum F path (canonNaN s.params F) a b sub)) s
     else refuse .adderRounding)))

/-- FADD (R251). -/
def execFadd (F outF : Fmt) (path : AdderPath) (rm : Option (BitVec 3)) (a b : Word) (s : State) : StepOutcome :=
  adderUnit F outF path rm a b false s

/-- FSUB (R252). -/
def execFsub (F outF : Fmt) (path : AdderPath) (rm : Option (BitVec 3)) (a b : Word) (s : State) : StepOutcome :=
  adderUnit F outF path rm a b true s

end Sys2Proof.Machine
end

