-- ==== Sys2Proof/Machine/Binary64.lean ====
section
/-! DEFINITION. Machine/Binary64.lean: conversion from and to binary64 (spec/41_value_codec.md R180 to R186). -/

namespace Sys2Proof.Machine

open Sys2Proof

/-- The rounding modes (30_encoding.md R96). -/
inductive RoundingMode where
  | nearestEven
  | truncate
  | towardsZero
  | towardsInfinity
  | towardsNegativeInfinity
  | nearestTiesAway
deriving DecidableEq, Repr

/-- The mode of an `rm` code; 110 and 111 are reserved (R96). -/
def roundingMode (rm : BitVec 3) : Option RoundingMode :=
  match rm.toNat with
  | 0 => some .nearestEven
  | 1 => some .truncate
  | 2 => some .towardsZero
  | 3 => some .towardsInfinity
  | 4 => some .towardsNegativeInfinity
  | 5 => some .nearestTiesAway
  | _ => none

/-- The magnitude exceeds a natural number. -/
def Mag.exceeds (a : Mag) (n : Nat) : Bool := decide (n * (a.scale 0).2 < (a.scale 0).1)

/-- R185: the RangeError of a named narrow format, and which one. A NaN raises none. -/
def rangeError (F : Fmt) (x : BitVec 64) : Option ErrorInfo :=
  let d := doubleWord x
  if F = .named .fp8e4m3 then
    if !isNaN fp64 d && (isInf fp64 d || (magOf fp64 d).exceeds 448) then some .exceedsE4M3 else none
  else if F = .named .fp8e5m2 then
    if !isNaN fp64 d && !isInf fp64 d && (magOf fp64 d).exceeds 57344 then some .exceedsE5M2 else none
  else none

/-- R181, R182 on a value that is not a NaN: `round` is `RNE_F` or `RTZ_F`. -/
def fromFiniteOrInf (F : Fmt) (round : Bool → Mag → Word) (x : BitVec 64) : Word :=
  let d := doubleWord x
  if isInf fp64 d then infWordOf F (signOf fp64 d)
  else if isZero fp64 d then zeroWordOf F (signOf fp64 d)
  else round (signOf fp64 d) (magOf fp64 d)

/-- FromDouble, generic path: R181 under roundNearestEven; R182 under truncate, and under the four modes that fall back
to it (R183). -/
def fromDoubleGeneric (p : Params) (F : Fmt) (rm : RoundingMode) (x : BitVec 64) : Word :=
  if isNaN fp64 (doubleWord x) then canonNaN p F
  else match rm with
    | .nearestEven => fromFiniteOrInf F (rne F) x
    | .truncate => fromFiniteOrInf F (rtz p F) x
    | .towardsZero => fromFiniteOrInf F (rtz p F) x
    | .towardsInfinity => fromFiniteOrInf F (rtz p F) x
    | .towardsNegativeInfinity => fromFiniteOrInf F (rtz p F) x
    | .nearestTiesAway => fromFiniteOrInf F (rtz p F) x

/-- FromDouble at (8, 23), the native path (R184): a drawn NaN; the nearest-even result; and in every other mode a
drawn choice between the nearest-even and the truncated result. `c` numbers the draw. -/
def fromDoubleNative32 (p : Params) (c : Nat) (F : Fmt) (rm : RoundingMode) (x : BitVec 64) : Word :=
  if isNaN fp64 (doubleWord x) then drawNaN F c
  else match rm with
    | .nearestEven => fromFiniteOrInf F (rne F) x
    | _ => if Config.freeBit c then fromFiniteOrInf F (rne F) x else fromFiniteOrInf F (rtz p F) x

/-- FromDouble past the RangeError check (R180): (11, 52) is the word itself in every mode (R184). -/
def fromDouble (p : Params) (c : Nat) (F : Fmt) (rm : RoundingMode) (x : BitVec 64) : Word :=
  if F.E = 11 ∧ F.M = 52 then doubleWord x
  else if F.E = 8 ∧ F.M = 23 then fromDoubleNative32 p c F rm x
  else fromDoubleGeneric p F rm x

/-- FromDouble as an operation: R185 first, then the value (R180); one draw is counted. -/
def finishFromDouble (F : Fmt) (rm : RoundingMode) (x : BitVec 64) (s : State) : StepOutcome :=
  match rangeError F x with
  | some info => raise .rangeError info s
  | none => emit (.word (fromDouble s.params s.draws F rm x)) (s.drew 1)

/-- FP.FROMDOUBLE (R180). -/
def execFpFromDouble (x : BitVec 64) (F : Fmt) (rm : BitVec 3) (s : State) : StepOutcome :=
  withCodecFormat F
    (match roundingMode rm with
     | none => refuse .reservedRounding
     | some mode => finishFromDouble F mode x s)

/-- ToDouble (R186); `c` numbers the draw of a NaN. -/
def toDouble (c : Nat) (F : Fmt) (w : Word) : BitVec 64 :=
  if isNaN F w then (if F.same fp64 then BitVec.ofNat 64 w.toNat else BitVec.ofNat 64 (drawNaN fp64 c).toNat)
  else if isInf F w then BitVec.ofNat 64 (infWordOf fp64 (signOf F w)).toNat
  else if isZero F w then BitVec.ofNat 64 (zeroWordOf fp64 (signOf F w)).toNat
  else BitVec.ofNat 64 (rne fp64 (signOf F w) (magOf F w)).toNat

/-- FP.TODOUBLE (R186); one draw is counted. -/
def execFpToDouble (F : Fmt) (w : Word) (s : State) : StepOutcome :=
  withCodecWord F w (emit (.double (toDouble s.draws F w)) (s.drew 1))

end Sys2Proof.Machine
end

