-- ==== Sys2Proof/Machine/Codec.lean ====
section
/-! DEFINITION. Machine/Codec.lean: construction, field access, the five classification predicates and comparison
(spec/41_value_codec.md R160 to R167). -/

namespace Sys2Proof.Machine

open Sys2Proof

/-- Construct(sign, exponent, mantissa) from field words with their declared widths (R160). The generic type takes its
widths from the fields. -/
def construct (F : Fmt) (sg e m : Word) (s : State) : StepOutcome :=
  if F.isGeneric ∧ (e.width = 0 ∨ m.width = 0) then refuse .emptyGenericField
  else if sg.width ≠ 1 then raise .widthError .signWidth s
  else if ¬ F.isGeneric ∧ (e.width ≠ F.E ∨ m.width ≠ F.M) then raise .widthError .fieldWidthOfNamedFormat s
  else emit (.word (pack (.generic e.width m.width) (sg.bit 0) e.toNat m.toNat)) s

/-- FP.PACK (R160). -/
def execFpPack (F : Fmt) (sg e m : Word) (s : State) : StepOutcome := construct F sg e m s

/-- FP.FIELDS (R161). -/
def execFpFields (F : Fmt) (w : Word) (s : State) : StepOutcome :=
  withCodecWord F w
    (emit (.fields (Word.ofBool (fields F w).s) (Word.ofNat F.E (fields F w).e) (Word.ofNat F.M (fields F w).m)) s)

/-- FP.ISZERO (R162). -/
def execFpIsZero (F : Fmt) (w : Word) (s : State) : StepOutcome := withCodecWord F w (emit (.bit (isZero F w)) s)

/-- FP.ISNORMAL (R163). -/
def execFpIsNormal (F : Fmt) (w : Word) (s : State) : StepOutcome := withCodecWord F w (emit (.bit (isNormal F w)) s)

/-- FP.ISSUBNORMAL (R164). -/
def execFpIsSubnormal (F : Fmt) (w : Word) (s : State) : StepOutcome :=
  withCodecWord F w (emit (.bit (isSubnormal F w)) s)

/-- FP.ISINF (R165). -/
def execFpIsInf (F : Fmt) (w : Word) (s : State) : StepOutcome := withCodecWord F w (emit (.bit (isInf F w)) s)

/-- FP.ISNAN (R166). -/
def execFpIsNaN (F : Fmt) (w : Word) (s : State) : StepOutcome := withCodecWord F w (emit (.bit (isNaN F w)) s)

/-- -1, 0 or +1 as `a` precedes, equals or follows `b`. -/
def orderOf (a b : Nat) : Int := if a < b then -1 else if b < a then 1 else 0

/-- The lexicographic order of two triples, each field an unsigned integer (R167). -/
def compareFields (a b : Fields) : Int :=
  if a.s ≠ b.s then orderOf a.s.toNat b.s.toNat
  else if a.e ≠ b.e then orderOf a.e b.e
  else orderOf a.m b.m

/-- FP.CMP (R167). -/
def execFpCmp (Fa : Fmt) (a : Word) (Fb : Fmt) (b : Word) (s : State) : StepOutcome :=
  withCodecWord Fa a (withCodecWord Fb b
    (if Fa.E ≠ Fb.E ∨ Fa.M ≠ Fb.M then raise .widthError .compareWidthMismatch s
     else emit (.order (compareFields (fields Fa a) (fields Fb b))) s))

end Sys2Proof.Machine
end

