-- ==== Sys2Proof/Machine/Constants.lean ====
section
/-! DEFINITION. Machine/Constants.lean: the nine constants (spec/41_value_codec.md R170 to R178). A constant that needs
a normal number is refused at `E = 1`, and infinity is refused for e4m3 (60_exceptions.md R428; log 14). -/

namespace Sys2Proof.Machine

open Sys2Proof

/-- A constant of an admitted format (section 4 of 41_value_codec.md). -/
def constant (F : Fmt) (w : Word) (s : State) : StepOutcome := withCodecFormat F (emit (.word w) s)

/-- A constant that needs a normal number. -/
def normalConstant (F : Fmt) (w : Word) (s : State) : StepOutcome :=
  withCodecFormat F (if F.E < 2 then refuse .constantNeedsNormal else emit (.word w) s)

/-- FP.CONST.NEGZERO (R170). -/
def execConstNegZero (F : Fmt) (s : State) : StepOutcome := constant F (pack F true 0 0) s

/-- FP.CONST.POSZERO (R171). -/
def execConstPosZero (F : Fmt) (s : State) : StepOutcome := constant F (pack F false 0 0) s

/-- FP.CONST.MINSUB (R172). -/
def execConstMinSub (F : Fmt) (s : State) : StepOutcome := constant F (pack F false 0 1) s

/-- FP.CONST.MAXSUB (R173). -/
def execConstMaxSub (F : Fmt) (s : State) : StepOutcome := constant F (pack F false 0 F.mall) s

/-- FP.CONST.MINNORM (R174). -/
def execConstMinNorm (F : Fmt) (s : State) : StepOutcome := normalConstant F (pack F false 1 0) s

/-- FP.CONST.ONE (R175). -/
def execConstOne (F : Fmt) (s : State) : StepOutcome := normalConstant F (pack F false F.bias 0) s

/-- FP.CONST.ONEPLUS (R176). -/
def execConstOnePlus (F : Fmt) (s : State) : StepOutcome := normalConstant F (pack F false F.bias 1) s

/-- FP.CONST.MAXNORM (R177). -/
def execConstMaxNorm (F : Fmt) (s : State) : StepOutcome := normalConstant F (maxFinite F false) s

/-- FP.CONST.INF (R178). -/
def execConstInf (F : Fmt) (s : State) : StepOutcome :=
  if F.variant = .e4m3 then refuse .noInfinity else constant F (infWordOf F false) s

end Sys2Proof.Machine
end

