-- ==== Sys2Proof/Machine/Converter.lean ====
section
/-! DEFINITION. Machine/Converter.lean: FCVT through the converter's algorithm (spec/45_converter.md R340 to R347). -/

namespace Sys2Proof.Machine

open Sys2Proof

/-- R344: the number of discarded bits. -/
def extBits (Ms Md : Nat) : Nat := (Ms - Md) + 2

/-- R343, R344: the source significand normalised and placed with its leading one at bit `Md + ext`, and its biased
exponent in the destination. -/
def placedSource (Fs Fd : Fmt) (a : Word) : Nat × Int :=
  let lz := leadingZeros (Fs.M + 1) (significand Fs a)
  let u : Int := (effExp Fs a : Int) - Fs.bias - lz
  (significand Fs a * 2 ^ lz * 2 ^ (Fd.M + extBits Fs.M Fd.M - Fs.M), u + Fd.bias)

/-- R345 to R347: denormalise, round at `ext` and pack a finite nonzero word. -/
def finiteConversion (Fs Fd : Fmt) (s : Bool) (a : Word) : Word :=
  let x := placedSource Fs Fd a
  let d := denormalise x.1 x.2
  roundAndPack Fd s d.1 (extBits Fs.M Fd.M) d.2

/-- The converter's output (R340, R341: NaN, infinity, zero, then the general path). -/
def converted (Fs Fd : Fmt) (nan : Word) (a : Word) : Word :=
  if isNaN Fs a then nan
  else if isInf Fs a then infWordOf Fd (signOf Fs a)
  else if isZero Fs a then zeroWordOf Fd (signOf Fs a)
  else finiteConversion Fs Fd (signOf Fs a) a

/-- FCVT (R340). -/
def execFcvt (Fs Fd : Fmt) (a : Word) (s : State) : StepOutcome :=
  withUnitWord Fs a (withUnitFormat Fd (emit (.word (converted Fs Fd (canonNaN s.params Fd) a)) s))

end Sys2Proof.Machine
end

