-- ==== Sys2Proof/Machine/Multiplier.lean ====
section
/-! DEFINITION. Machine/Multiplier.lean: FMUL through the multiplier's algorithm (spec/44_multiplier.md R300 to R308). -/

namespace Sys2Proof.Machine

open Sys2Proof

/-- R302 to R305: the normalised product with one sticky position below it (2M+3 bits) and its biased exponent. -/
def normalisedProduct (F : Fmt) (a b : Word) : Nat × Int :=
  let P := significand F a * significand F b
  let raw : Int := (effExp F a : Int) + effExp F b - F.bias
  let lz := leadingZeros (2 * F.M + 2) P
  (P * 2 ^ lz * 2, raw - ((lz : Int) - 1))

/-- R305 to R308: denormalise, round at `M + 2` and pack the product of two finite nonzero words. -/
def finiteProduct (F : Fmt) (s : Bool) (a b : Word) : Word :=
  let x := normalisedProduct F a b
  let d := denormalise x.1 x.2
  roundAndPack F s d.1 (F.M + 2) d.2

/-- The multiplier's output (R300, R301: NaN, `inf × 0`, infinity, zero, then the algorithm). -/
def multiplierProduct (F : Fmt) (nan : Word) (a b : Word) : Word :=
  let s := signOf F a ^^ signOf F b
  if isNaN F a || isNaN F b then nan
  else if (isInf F a && isZero F b) || (isZero F a && isInf F b) then nan
  else if isInf F a || isInf F b then infWordOf F s
  else if isZero F a || isZero F b then zeroWordOf F s
  else finiteProduct F s a b

/-- FMUL (R300). -/
def execFmul (F outF : Fmt) (a b : Word) (s : State) : StepOutcome :=
  withUnitWord F a (withUnitWord F b (withOutFormat F outF
    (emit (.word (multiplierProduct F (canonNaN s.params F) a b)) s)))

end Sys2Proof.Machine
end

