-- ==== Sys2Proof/Machine/Contract.lean ====
section
/-! DEFINITION. Machine/Contract.lean: the port contracts of the units (spec/43_adder.md R251, 44_multiplier.md R300,
45_converter.md R340, 46_sqrt.md R380): the operation computed exactly, then rounded once (40_numerics.md R120). The
binary64 arithmetic of the reference operators is the same contract at FP64 (R194). `nan` is the NaN word to produce. -/

namespace Sys2Proof.Machine.Contract

open Sys2Proof Sys2Proof.Machine

/-- The exact sum of two signed magnitudes on their common scale: a signed integer and its power of two. -/
def exactSum (sa : Bool) (a : Mag) (sb : Bool) (b : Mag) : Int × Int :=
  let k := min a.exp b.exp
  let A : Int := (a.num * 2 ^ (a.exp - k).toNat : Nat)
  let B : Int := (b.num * 2 ^ (b.exp - k).toNat : Nat)
  ((if sa then -A else A) + (if sb then -B else B), k)

/-- `FADD(a, b, sub)` (R251, R253, R254). -/
def add (F : Fmt) (nan : Word) (a b : Word) (sub : Bool) : Word :=
  let sa := signOf F a
  let sb := signOf F b ^^ sub
  if isNaN F a || isNaN F b then nan
  else if isInf F a && isInf F b then (if sa == sb then infWordOf F sa else nan)
  else if isInf F a then infWordOf F sa
  else if isInf F b then infWordOf F sb
  else
    let x := exactSum sa (magOf F a) sb (magOf F b)
    if x.1 = 0 then zeroWordOf F (if sa == sb then sa else false)
    else rne F (decide (x.1 < 0)) ⟨x.1.natAbs, 1, x.2⟩

/-- The exact product of two magnitudes. -/
def exactProduct (a b : Mag) : Mag := ⟨a.num * b.num, a.den * b.den, a.exp + b.exp⟩

/-- `FMUL(a, b)` (R300, R301). -/
def mul (F : Fmt) (nan : Word) (a b : Word) : Word :=
  let s := signOf F a ^^ signOf F b
  if isNaN F a || isNaN F b then nan
  else if (isInf F a && isZero F b) || (isZero F a && isInf F b) then nan
  else if isInf F a || isInf F b then infWordOf F s
  else if isZero F a || isZero F b then zeroWordOf F s
  else rne F s (exactProduct (magOf F a) (magOf F b))

/-- The exact quotient of two magnitudes. -/
def exactQuotient (a b : Mag) : Mag := ⟨a.num * b.den, a.den * b.num, a.exp - b.exp⟩

/-- The operands whose quotient is a NaN (R194: `0/0` and `∞/∞`, or a NaN operand). -/
def quotientIsNaN (F : Fmt) (a b : Word) : Bool :=
  isNaN F a || isNaN F b || (isInf F a && isInf F b) || (isZero F a && isZero F b)

/-- Division with IEEE special cases; only the reference operator uses it, at FP64 (R194, R198). -/
def div (F : Fmt) (nan : Word) (a b : Word) : Word :=
  let s := signOf F a ^^ signOf F b
  if quotientIsNaN F a b then nan
  else if isInf F a || isZero F b then infWordOf F s
  else if isZero F a || isInf F b then zeroWordOf F s
  else rne F s (exactQuotient (magOf F a) (magOf F b))

/-- `FCVT(a)` (R340, R341). -/
def cvt (Fs Fd : Fmt) (nan : Word) (a : Word) : Word :=
  if isNaN Fs a then nan
  else if isInf Fs a then infWordOf Fd (signOf Fs a)
  else if isZero Fs a then zeroWordOf Fd (signOf Fs a)
  else rne Fd (signOf Fs a) (magOf Fs a)

/-- `FSQRT(a)` (R380 to R383): the word and the `error` bit. -/
def sqrt (F : Fmt) (nan : Word) (sub : SqrtSubnormal) (a : Word) : Word × Bool :=
  let s := signOf F a
  if isNaN F a then (nan, false)
  else if isInf F a && !s then (infWordOf F false, false)
  else if isInf F a && s then (infWordOf F true, true)
  else if isZero F a then (zeroWordOf F s, false)
  else if s then (nan, true)
  else if isSubnormal F a then
    match sub with
    | .rounded => (rneSqrt F (magOf F a), false)
    | .passthrough => (a, false)
    | .flagged => (nan, true)
  else (rneSqrt F (magOf F a), false)

end Sys2Proof.Machine.Contract
end

