-- ==== Sys2Proof/Machine/Reference.lean ====
section
/-! DEFINITION. Machine/Reference.lean: the golden reference operators (spec/41_value_codec.md R194 to R198): both
operands to binary64, one binary64 operation, and back with roundNearestEven. -/

namespace Sys2Proof.Machine

open Sys2Proof

/-- A binary64 operation of the contract form, as a function of two doubles (R194). Every NaN it produces is
`CANON_NAN(FP64)`, whatever the operands (40_numerics.md R124; log 18). -/
def double2 (op : Fmt → Word → Word → Word → Word) (p : Params) (x y : BitVec 64) : BitVec 64 :=
  BitVec.ofNat 64 (op fp64 (canonNaN p fp64) (doubleWord x) (doubleWord y)).toNat

/-- `+` in binary64. -/
def add64 : Params → BitVec 64 → BitVec 64 → BitVec 64 := double2 (fun F nan a b => Contract.add F nan a b false)

/-- `-` in binary64. -/
def sub64 : Params → BitVec 64 → BitVec 64 → BitVec 64 := double2 (fun F nan a b => Contract.add F nan a b true)

/-- `×` in binary64. -/
def mul64 : Params → BitVec 64 → BitVec 64 → BitVec 64 := double2 Contract.mul

/-- `÷` in binary64. -/
def div64 : Params → BitVec 64 → BitVec 64 → BitVec 64 := double2 Contract.div

/-- Two operands of one format, else WidthError (R194). -/
def withSameFormat (Fa : Fmt) (a : Word) (Fb : Fmt) (b : Word) (s : State) (k : StepOutcome) : StepOutcome :=
  withCodecWord Fa a (withCodecWord Fb b (if Fa.same Fb then k else raise .widthError .formatsDiffer s))

/-- The binary64 result of a reference operator: the draws of the two ToDouble conversions are numbered from `c`
(log 7). -/
def referenceDouble (op : Params → BitVec 64 → BitVec 64 → BitVec 64) (p : Params) (F : Fmt) (a b : Word) (c : Nat) :
    BitVec 64 :=
  op p (toDouble c F a) (toDouble (c + 1) F b)

/-- A reference operator's way back: FromDouble in mode roundNearestEven (R194). -/
def reference (op : Params → BitVec 64 → BitVec 64 → BitVec 64) (F : Fmt) (a b : Word) (s : State) : StepOutcome :=
  finishFromDouble F .nearestEven (referenceDouble op s.params F a b s.draws) (s.drew 2)

/-- REF.ADD (R195). -/
def execRefAdd (Fa : Fmt) (a : Word) (Fb : Fmt) (b : Word) (s : State) : StepOutcome :=
  withSameFormat Fa a Fb b s (reference add64 Fa a b s)

/-- REF.SUB (R196). -/
def execRefSub (Fa : Fmt) (a : Word) (Fb : Fmt) (b : Word) (s : State) : StepOutcome :=
  withSameFormat Fa a Fb b s (reference sub64 Fa a b s)

/-- REF.MUL (R197). -/
def execRefMul (Fa : Fmt) (a : Word) (Fb : Fmt) (b : Word) (s : State) : StepOutcome :=
  withSameFormat Fa a Fb b s (reference mul64 Fa a b s)

/-- REF.DIV (R198): `0 ÷ 0` gives `CANON_NAN(F)` in every format (log 18); every other quotient goes the way of R194. -/
def execRefDiv (Fa : Fmt) (a : Word) (Fb : Fmt) (b : Word) (s : State) : StepOutcome :=
  withSameFormat Fa a Fb b s
    (if isZero Fa a && isZero Fa b then emit (.word (canonNaN s.params Fa)) (s.drew 3) else reference div64 Fa a b s)

end Sys2Proof.Machine
end

