-- ==== Sys2Proof/Machine/Flags.lean ====
section
/-! DEFINITION. Machine/Flags.lean: the one flag-like signal of the core, the square root's `error` output
(spec/46_sqrt.md R382, R383; 10_state.md R32), and the error codes (60_exceptions.md R425). -/

namespace Sys2Proof.Machine

open Sys2Proof

/-- A negative nonzero operand: a negative finite nonzero value or `-∞` (R382). -/
def isNegativeNonzero (F : Fmt) (a : Word) : Bool := signOf F a && !isNaN F a && !isZero F a

/-- The `error` output (R382); a positive subnormal is flagged under SQRT_SUBNORMAL = flagged only (R383). -/
def errorOutput (F : Fmt) (sub : SqrtSubnormal) (a : Word) : Bool :=
  isNegativeNonzero F a || (isSubnormal F a && sub == .flagged)

/-- The code of an error name (R425). -/
def ErrorCode.code : ErrorCode → Nat
  | .widthError => 1
  | .invalidOperation => 2
  | .rangeError => 3
  | .malformedInput => 4

/-- The code of an outcome (R425): 0 for a value, 2 for a value beside `error = 1`, the error's code for no value. -/
def Out.code : Out → Nat
  | .raised e _ => e.code
  | .value (.root _ true) => ErrorCode.invalidOperation.code
  | _ => 0

end Sys2Proof.Machine
end

