-- ==== Sys2Proof/Machine/SquareRoot.lean ====
section
/-! DEFINITION. Machine/SquareRoot.lean: FSQRT through the square root's algorithm (spec/46_sqrt.md R380 to R387). -/

namespace Sys2Proof.Machine

open Sys2Proof

/-- R384: the significand normalised, and doubled where the unbiased exponent is odd; the even exponent. -/
def evenRadicand (F : Fmt) (a : Word) : Nat × Int :=
  let lz := leadingZeros (F.M + 1) (significand F a)
  let u : Int := (effExp F a : Int) - F.bias - lz
  let sig := significand F a * 2 ^ lz
  if u % 2 = 1 then (sig * 2, u - 1) else (sig, u)

/-- R385: the root with two guard bits and a sticky bit. -/
def rootWithSticky (F : Fmt) (sig : Nat) : Nat :=
  let rad := sig * 2 ^ (F.M + 4)
  let r := isqrt rad
  r * 2 + (if r * r ≠ rad then 1 else 0)

/-- R385 to R387: halve and re-bias the exponent, denormalise, round at 3 and pack. -/
def finiteRoot (F : Fmt) (a : Word) : Word :=
  let x := evenRadicand F a
  let d := denormalise (rootWithSticky F x.1) (x.2 / 2 + F.bias)
  roundAndPack F false d.1 3 d.2

/-- The `sqrt` output (R380, R381, R383). -/
def rootWord (F : Fmt) (nan : Word) (sub : SqrtSubnormal) (a : Word) : Word :=
  let s := signOf F a
  if isNaN F a then nan
  else if isInf F a then infWordOf F s
  else if isZero F a then zeroWordOf F s
  else if s then nan
  else if isSubnormal F a then
    match sub with
    | .rounded => finiteRoot F a
    | .passthrough => a
    | .flagged => nan
  else finiteRoot F a

/-- FSQRT (R380): `(sqrt, error)`, at the unit's format and SQRT_SUBNORMAL (R383). -/
def execFsqrt (u : SqrtUnit) (a : Word) (s : State) : StepOutcome :=
  withUnitWord u.F a (emit (.root (rootWord u.F (canonNaN s.params u.F) u.sub a) (errorOutput u.F u.sub a)) s)

end Sys2Proof.Machine
end

