-- ==== Sys2Proof/Machine/Strings.lean ====
section
/-! DEFINITION. Machine/Strings.lean: the numeric and string forms (spec/41_value_codec.md R187 to R192; grammars in
30_encoding.md R100 to R102). -/

namespace Sys2Proof.Machine

open Sys2Proof

/-- FP.FROMINTS (R187): the integers must fit their declared widths, then FP.PACK. A generic construction with an empty
field is refused first (R426). -/
def execFpFromInts (F : Fmt) (sg e m : SizedNat) (s : State) : StepOutcome :=
  if F.isGeneric ∧ (e.width = 0 ∨ m.width = 0) then refuse .emptyGenericField
  else if 2 ^ sg.width ≤ sg.val ∨ 2 ^ e.width ≤ e.val ∨ 2 ^ m.width ≤ m.val then
    raise .widthError .integerExceedsItsWidth s
  else construct F (Word.ofNat sg.width sg.val) (Word.ofNat e.width e.val) (Word.ofNat m.width m.val) s

/-- A character of a binary string (R100). -/
def isBinaryDigit (c : Char) : Bool := c == '0' || c == '1'

/-- The unsigned integer of a binary string, most significant bit first (R100). -/
def binaryValue (t : Str) : Nat := t.foldl (fun n c => 2 * n + (if c == '1' then 1 else 0)) 0

/-- The field word of a binary string: its length is its width (R188). -/
def binaryWord (t : Str) : Word := Word.ofNat t.length (binaryValue t)

/-- fromBinaryStrings (R188). A generic construction with an empty exponent or mantissa is refused before any error (R426,
R428; log 16). -/
def fromBinaryStrings (F : Fmt) (S X T : Str) (s : State) : StepOutcome :=
  if F.isGeneric ∧ (X = [] ∨ T = []) then refuse .emptyGenericField
  else if ¬ (S.all isBinaryDigit ∧ X.all isBinaryDigit ∧ T.all isBinaryDigit) then raise .malformedInput .notABinaryDigit s
  else if S = [] ∨ X = [] ∨ T = [] then raise .malformedInput .emptyString s
  else construct F (binaryWord S) (binaryWord X) (binaryWord T) s

/-- FP.FROMBITSTR (R188). -/
def execFpFromBitStr (F : Fmt) (S X T : Str) (s : State) : StepOutcome := fromBinaryStrings F S X T s

/-- The parts of a string between single spaces (R101). -/
def splitAtSpaces : Str → List Str
  | [] => [[]]
  | c :: t =>
    match splitAtSpaces t with
    | [] => [[c]]
    | part :: parts => if c = ' ' then [] :: part :: parts else (c :: part) :: parts

/-- FP.FROMSTR (R189). -/
def execFpFromStr (F : Fmt) (t : Str) (s : State) : StepOutcome :=
  match splitAtSpaces t with
  | [S, X, T] => fromBinaryStrings F S X T s
  | _ => raise .malformedInput .notThreeParts s

/-- The value of a digit: `0-9`, then `a-z` or `A-Z` for 10 to 35 (R102). -/
def digitValue (c : Char) : Option Nat :=
  if 48 ≤ c.toNat ∧ c.toNat ≤ 57 then some (c.toNat - 48)
  else if 97 ≤ c.toNat ∧ c.toNat ≤ 122 then some (c.toNat - 87)
  else if 65 ≤ c.toNat ∧ c.toNat ≤ 90 then some (c.toNat - 55)
  else none

/-- The digits of a numeral read on from `n`; `none` at a digit outside the radix (R102). -/
def numeralFrom (r : Nat) : Nat → Str → Option Nat
  | n, [] => some n
  | n, c :: t =>
    match digitValue c with
    | some d => if d < r then numeralFrom r (n * r + d) t else none
    | none => none

/-- The unsigned integer of a radix-`r` numeral; an empty string is none (R102). -/
def numeralValue (r : Nat) (t : Str) : Option Nat := if t = [] then none else numeralFrom r 0 t

/-- FP.FROMRADIX (R190). -/
def execFpFromRadix (F : Fmt) (t : Str) (r : Nat) (s : State) : StepOutcome :=
  withCodecFormat F
    (if r ∉ s.params.radices then refuse .radix
     else match numeralValue r t with
       | none => raise .malformedInput .notANumeral s
       | some n => if 2 ^ F.W ≤ n then raise .widthError .numeralTooWide s else emit (.word (Word.ofNat F.W n)) s)

/-- The `n` low bits of a number as a binary string, most significant bit first (R100). -/
def binaryString : Nat → Nat → Str
  | 0, _ => []
  | n + 1, v => (if v.testBit n then '1' else '0') :: binaryString n v

/-- The three binary field strings of a word (R191). -/
def signString (F : Fmt) (w : Word) : Str := binaryString 1 (fields F w).s.toNat

def exponentString (F : Fmt) (w : Word) : Str := binaryString F.E (fields F w).e

def mantissaString (F : Fmt) (w : Word) : Str := binaryString F.M (fields F w).m

/-- FP.TOBITSTR (R191). -/
def execFpToBitStr (F : Fmt) (w : Word) (s : State) : StepOutcome :=
  withCodecWord F w (emit (.strings (signString F w) (exponentString F w) (mantissaString F w)) s)

/-- The spaced string (R101, R192). -/
def spacedString (F : Fmt) (w : Word) : Str :=
  signString F w ++ ' ' :: (exponentString F w ++ ' ' :: mantissaString F w)

/-- FP.TOSTR (R192). -/
def execFpToStr (F : Fmt) (w : Word) (s : State) : StepOutcome :=
  withCodecWord F w (emit (.string (spacedString F w)) s)

end Sys2Proof.Machine
end

