-- ==== Sys2Proof/Machine/Dispatch.lean ====
section
/-! DEFINITION. Machine/Dispatch.lean: one arm per operation of spec/30_encoding.md R104. -/

namespace Sys2Proof.Machine

def exec (i : Instr) (s : State) : Host.Outcome State Fault Refusal :=
  match i with
  | .fpPack F sg e m => Sys2Proof.Machine.execFpPack F sg e m s
  | .fpFields F w => Sys2Proof.Machine.execFpFields F w s
  | .fpIsZero F w => Sys2Proof.Machine.execFpIsZero F w s
  | .fpIsNormal F w => Sys2Proof.Machine.execFpIsNormal F w s
  | .fpIsSubnormal F w => Sys2Proof.Machine.execFpIsSubnormal F w s
  | .fpIsInf F w => Sys2Proof.Machine.execFpIsInf F w s
  | .fpIsNaN F w => Sys2Proof.Machine.execFpIsNaN F w s
  | .fpCmp Fa a Fb b => Sys2Proof.Machine.execFpCmp Fa a Fb b s
  | .constNegZero F => Sys2Proof.Machine.execConstNegZero F s
  | .constPosZero F => Sys2Proof.Machine.execConstPosZero F s
  | .constMinSub F => Sys2Proof.Machine.execConstMinSub F s
  | .constMaxSub F => Sys2Proof.Machine.execConstMaxSub F s
  | .constMinNorm F => Sys2Proof.Machine.execConstMinNorm F s
  | .constOne F => Sys2Proof.Machine.execConstOne F s
  | .constOnePlus F => Sys2Proof.Machine.execConstOnePlus F s
  | .constMaxNorm F => Sys2Proof.Machine.execConstMaxNorm F s
  | .constInf F => Sys2Proof.Machine.execConstInf F s
  | .fpFromDouble x F rm => Sys2Proof.Machine.execFpFromDouble x F rm s
  | .fpToDouble F w => Sys2Proof.Machine.execFpToDouble F w s
  | .fpFromInts F sg e m => Sys2Proof.Machine.execFpFromInts F sg e m s
  | .fpFromBitStr F S X T => Sys2Proof.Machine.execFpFromBitStr F S X T s
  | .fpFromStr F t => Sys2Proof.Machine.execFpFromStr F t s
  | .fpFromRadix F t r => Sys2Proof.Machine.execFpFromRadix F t r s
  | .fpToBitStr F w => Sys2Proof.Machine.execFpToBitStr F w s
  | .fpToStr F w => Sys2Proof.Machine.execFpToStr F w s
  | .refAdd Fa a Fb b => Sys2Proof.Machine.execRefAdd Fa a Fb b s
  | .refSub Fa a Fb b => Sys2Proof.Machine.execRefSub Fa a Fb b s
  | .refMul Fa a Fb b => Sys2Proof.Machine.execRefMul Fa a Fb b s
  | .refDiv Fa a Fb b => Sys2Proof.Machine.execRefDiv Fa a Fb b s
  | .rndRne bits lsb => Sys2Proof.Machine.execRndRne bits lsb s
  | .fadd F outF path rm a b => Sys2Proof.Machine.execFadd F outF path rm a b s
  | .fsub F outF path rm a b => Sys2Proof.Machine.execFsub F outF path rm a b s
  | .fmul F outF a b => Sys2Proof.Machine.execFmul F outF a b s
  | .fcvt Fs Fd a => Sys2Proof.Machine.execFcvt Fs Fd a s
  | .fsqrt u a => Sys2Proof.Machine.execFsqrt u a s

end Sys2Proof.Machine
end

