-- ==== Sys2Proof/Machine/Step.lean ====
section
/-! DEFINITION. Machine/Step.lean: one step of the machine is one action of the host (spec/10_state.md R31, R64). -/

namespace Sys2Proof.Machine

open Sys2Proof

/-- One step: the host's next action, with `exec` as the meaning of an operation. -/
def step (s : State) : Host.Outcome State Fault Refusal := takeAction exec s

/-- The state in which the host's next action applies the operation of a bare selector byte (logs 1 and 2). -/
def State.withFetchWord (s : State) (nbits w : Nat) : State :=
  if nbits = 8 then { s with program := .invoke (tableInvocation w) :: s.program } else s

end Sys2Proof.Machine
end

