-- ==== Sys2Proof/Machine/Exact.lean ====
section
/-! DEFINITION. Machine/Exact.lean: the numeric rules on real numbers, written as the spec writes them
(spec/30_encoding.md R86; 40_numerics.md R126, R127, R129; the port contracts 43_adder.md R251, 44_multiplier.md R300,
45_converter.md R340, 46_sqrt.md R380). The machine computes with integers; claims compare it with these. -/

namespace Sys2Proof.Machine

open Sys2Proof

/-- `val_F(w)` of a finite word (R86). -/
noncomputable def realValue (F : Fmt) (w : Word) : ℝ :=
  (if signOf F w then -1 else 1) *
    (if (fields F w).e ≠ 0 then (2 : ℝ) ^ (((fields F w).e : ℤ) - F.bias) * (1 + ((fields F w).m : ℝ) / 2 ^ F.M)
     else (2 : ℝ) ^ F.emin * (((fields F w).m : ℝ) / 2 ^ F.M))

/-- The real number of an exact magnitude. -/
noncomputable def Mag.toReal (a : Mag) : ℝ := (a.num : ℝ) / a.den * (2 : ℝ) ^ a.exp

open Classical in
/-- The binade exponent of a positive real (R126). -/
noncomputable def realBinade (F : Fmt) (a : ℝ) : ℤ := max (Int.log 2 a) F.emin

/-- A positive real measured in units of the last place (R126). -/
noncomputable def realUlps (F : Fmt) (a : ℝ) : ℝ := a / (2 : ℝ) ^ (realBinade F a - F.M)

open Classical in
/-- The last lines of R127: carry, overflow, normal, subnormal. -/
noncomputable def realPack (F : Fmt) (s : Bool) (q N : ℤ) (ovf : Word) : Word :=
  let N' : ℤ := if N = 2 ^ (F.M + 1) then 2 ^ F.M else N
  let q' : ℤ := if N = 2 ^ (F.M + 1) then q + 1 else q
  if q' > F.emax then ovf
  else if N' ≥ 2 ^ F.M then pack F s (q' + F.bias).toNat (N' - 2 ^ F.M).toNat
  else pack F s 0 N'.toNat

open Classical in
/-- `RNE_F(s, a)` (R127). -/
noncomputable def roundReal (F : Fmt) (s : Bool) (a : ℝ) : Word :=
  if a = 0 then zeroWordOf F s
  else
    let n := realUlps F a
    let r := n - ⌊n⌋
    realPack F s (realBinade F a) (if r > 1 / 2 ∨ (r = 1 / 2 ∧ Odd ⌊n⌋) then ⌊n⌋ + 1 else ⌊n⌋) (infWordOf F s)

open Classical in
/-- `RTZ_F(s, a)` (R129). -/
noncomputable def truncReal (p : Params) (F : Fmt) (s : Bool) (a : ℝ) : Word :=
  if a = 0 then zeroWordOf F s
  else realPack F s (realBinade F a) ⌊realUlps F a⌋ (truncOverflowWord p F s)

open Classical in
/-- The port contract of the adder (R251). -/
noncomputable def addSpec (F : Fmt) (nan : Word) (a b : Word) (sub : Bool) : Word :=
  let sa := signOf F a
  let sb := signOf F b ^^ sub
  if isNaN F a ∨ isNaN F b then nan
  else if isInf F a ∧ isInf F b then (if sa = sb then infWordOf F sa else nan)
  else if isInf F a then infWordOf F sa
  else if isInf F b then infWordOf F sb
  else
    let x : ℝ := realValue F a + (if sb then -1 else 1) * |realValue F b|
    if x = 0 then zeroWordOf F (if sa = sb then sa else false)
    else roundReal F (decide (x < 0)) |x|

open Classical in
/-- The port contract of the multiplier (R300). -/
noncomputable def mulSpec (F : Fmt) (nan : Word) (a b : Word) : Word :=
  let s := signOf F a ^^ signOf F b
  if isNaN F a ∨ isNaN F b then nan
  else if (isInf F a ∧ isZero F b) ∨ (isZero F a ∧ isInf F b) then nan
  else if isInf F a ∨ isInf F b then infWordOf F s
  else if isZero F a ∨ isZero F b then zeroWordOf F s
  else roundReal F s (|realValue F a| * |realValue F b|)

open Classical in
/-- Division with IEEE special cases, which the reference operators use at FP64 (R194, R198). -/
noncomputable def divSpec (F : Fmt) (nan : Word) (a b : Word) : Word :=
  let s := signOf F a ^^ signOf F b
  if isNaN F a ∨ isNaN F b then nan
  else if (isInf F a ∧ isInf F b) ∨ (isZero F a ∧ isZero F b) then nan
  else if isInf F a ∨ isZero F b then infWordOf F s
  else if isZero F a ∨ isInf F b then zeroWordOf F s
  else roundReal F s (|realValue F a| / |realValue F b|)

open Classical in
/-- The port contract of the converter (R340). -/
noncomputable def cvtSpec (Fs Fd : Fmt) (nan : Word) (a : Word) : Word :=
  let s := signOf Fs a
  if isNaN Fs a then nan
  else if isInf Fs a then infWordOf Fd s
  else if isZero Fs a then zeroWordOf Fd s
  else roundReal Fd s |realValue Fs a|

open Classical in
/-- The port contract of the square root (R380, R383). -/
noncomputable def sqrtSpec (F : Fmt) (nan : Word) (sub : SqrtSubnormal) (a : Word) : Word × Bool :=
  let s := signOf F a
  if isNaN F a then (nan, false)
  else if isInf F a ∧ s = false then (infWordOf F false, false)
  else if isInf F a ∧ s = true then (infWordOf F true, true)
  else if isZero F a then (zeroWordOf F s, false)
  else if s = true then (nan, true)
  else if isSubnormal F a ∧ sub ≠ .rounded then (if sub = .passthrough then (a, false) else (nan, true))
  else (roundReal F false (Real.sqrt (realValue F a)), false)

/-- FromDouble of a binary64 word that is not a NaN, past the RangeError check, in mode roundNearestEven (R181, R184). -/
noncomputable def fromDoubleSpec (F : Fmt) (d : Word) : Word :=
  if isInf fp64 d then infWordOf F (signOf fp64 d) else roundReal F (signOf fp64 d) |realValue fp64 d|

end Sys2Proof.Machine
end

