-- ==== Sys2Proof/WellFormed.lean ====
section
/-! DEFINITION. WellFormed.lean: which invocations can be connected at all: the format admits the operation's family and
every word operand has the width of its format (spec/20_memory.md R63, 30_encoding.md R107, 00_scope.md R6). -/

namespace Sys2Proof

/-- A word operand of a codec operation: an admitted format and a word of its width (R6, R63, R107). -/
def codecOperandOk (F : Fmt) (w : Word) : Bool := F.codecOk && w.width == F.W

/-- A word operand of an arithmetic unit (R6, R63). -/
def unitOperandOk (F : Fmt) (w : Word) : Bool := F.unitOk && w.width == F.W

/-- Well-formed invocations. A construction's fields carry declared widths that R160 itself checks, and a string or
integer operand has no width, so those forms are always well-formed here. -/
def WellFormed : Instr → Bool
  | .fpPack _ _ _ _ => true
  | .fpFields F w => codecOperandOk F w
  | .fpIsZero F w => codecOperandOk F w
  | .fpIsNormal F w => codecOperandOk F w
  | .fpIsSubnormal F w => codecOperandOk F w
  | .fpIsInf F w => codecOperandOk F w
  | .fpIsNaN F w => codecOperandOk F w
  | .fpCmp Fa a Fb b => codecOperandOk Fa a && codecOperandOk Fb b
  | .constNegZero F => F.codecOk
  | .constPosZero F => F.codecOk
  | .constMinSub F => F.codecOk
  | .constMaxSub F => F.codecOk
  | .constMinNorm F => F.codecOk
  | .constOne F => F.codecOk
  | .constOnePlus F => F.codecOk
  | .constMaxNorm F => F.codecOk
  | .constInf F => F.codecOk
  | .fpFromDouble _ F _ => F.codecOk
  | .fpToDouble F w => codecOperandOk F w
  | .fpFromInts _ _ _ _ => true
  | .fpFromBitStr _ _ _ _ => true
  | .fpFromStr _ _ => true
  | .fpFromRadix F _ _ => F.codecOk
  | .fpToBitStr F w => codecOperandOk F w
  | .fpToStr F w => codecOperandOk F w
  | .refAdd Fa a Fb b => codecOperandOk Fa a && codecOperandOk Fb b
  | .refSub Fa a Fb b => codecOperandOk Fa a && codecOperandOk Fb b
  | .refMul Fa a Fb b => codecOperandOk Fa a && codecOperandOk Fb b
  | .refDiv Fa a Fb b => codecOperandOk Fa a && codecOperandOk Fb b
  | .rndRne bits _ => decide (1 ≤ bits.width)
  | .fadd F _ _ _ a b => unitOperandOk F a && unitOperandOk F b
  | .fsub F _ _ _ a b => unitOperandOk F a && unitOperandOk F b
  | .fmul F _ a b => unitOperandOk F a && unitOperandOk F b
  | .fcvt Fs Fd a => unitOperandOk Fs a && Fd.unitOk
  | .fsqrt u a => unitOperandOk u.F a

end Sys2Proof
end

