-- ==== Sys2Proof/Safety.lean ====
section
/-! DEFINITION. Safety.lean: the states claims range over, what an operation's outcome is called, and the small
vocabulary the statements use. -/

namespace Sys2Proof.Machine

open Sys2Proof

/-- A slot of a unit holds ⊥ or inputs that the unit's ports have (spec/10_state.md R34, R37). -/
def slotOk (k : UnitKind) : Slot → Bool
  | .bottom _ => true
  | .captured i => fits k i

/-- A unit as elaboration leaves it: an admitted configuration, `LATENCY` slots, inputs of its own ports (R36, R37). -/
def unitOk (u : ClockedUnit) : Bool :=
  admitted u.cfg && u.slots.length == u.cfg.latency && u.slots.all (slotOk u.cfg.kind)

/-- Every clocked unit is as elaboration leaves it: the invariant of the machine's only hardware state (R37). -/
def StagesOk (s : State) : Prop := ∀ u ∈ s.units, unitOk u = true

/-- The operation completes and puts the value on the outputs; nothing else changes (R12, R64). -/
def Answers (i : Instr) (s : State) (v : Value) : Prop := exec i s = .next (s.put v)

/-- The operation completes with the value, and its draws are counted (R11). -/
def AnswersDrawing (i : Instr) (s : State) (n : Nat) (v : Value) : Prop := exec i s = .next ((s.drew n).put v)

/-- The operation raises the error, with no value; nothing else changes (R12, R420). -/
def Raises (i : Instr) (s : State) (e : ErrorCode) (info : ErrorInfo) : Prop := exec i s = .next (s.fail e info)

/-- The operation is refused (R12, R428). -/
def Refuses (i : Instr) (s : State) (r : Refusal) : Prop := exec i s = .refused r

/-- The operations whose result a rule makes a draw, or computes through one (R184, R186, R194). -/
def usesDraws : Instr → Bool
  | .fpFromDouble _ _ _ => true
  | .fpToDouble _ _ => true
  | .refAdd _ _ _ _ => true
  | .refSub _ _ _ _ => true
  | .refMul _ _ _ _ => true
  | .refDiv _ _ _ _ => true
  | _ => false

/-- The same outcome as far as outputs and reasons go. -/
def SameOutputs : StepOutcome → StepOutcome → Prop
  | .next t, .next t' => t.out = t'.out
  | .fault f, .fault f' => f = f'
  | .refused r, .refused r' => r = r'
  | _, _ => False

/-- Another BYTE_ORDER. -/
def State.withByteOrder (s : State) (o : ByteOrder) : State := { s with params := { s.params with byteOrder := o } }

/-- A function of states carried over an outcome. -/
def mapNext (f : State → State) : StepOutcome → StepOutcome
  | .next t => .next (f t)
  | .fault r => .fault r
  | .refused r => .refused r

/-- The reserved selectors as R105 lists them. -/
def reservedSelector (n : Nat) : Prop :=
  n = 0x00 ∨ (0x09 ≤ n ∧ n ≤ 0x0F) ∨ (0x19 ≤ n ∧ n ≤ 0x1F) ∨ (0x2C ≤ n ∧ n ≤ 0x2F) ∨ (0x31 ≤ n ∧ n ≤ 0x3F) ∨
    (0x42 ≤ n ∧ n ≤ 0x4F) ∨ (0x51 ≤ n ∧ n ≤ 0x5F) ∨ (0x61 ≤ n ∧ n ≤ 0x6F) ∨ (0x71 ≤ n ∧ n ≤ 0xFF)

/-- The word `{s, e, m}` of a format, as R80 lays it out. -/
def IsPacked (F : Fmt) (w : Word) (s e m : Nat) : Prop :=
  w.width = F.W ∧ w.toNat = s * 2 ^ (F.E + F.M) + e * 2 ^ F.M + m ∧ s < 2 ∧ e < 2 ^ F.E ∧ m < 2 ^ F.M

/-- The exponent field `w[W-2:M]` and the mantissa field `w[M-1:0]` cut from the bits (R80). -/
def expField (F : Fmt) (w : Word) : Nat := (w.bits.extractLsb' F.M F.E).toNat

def mantField (F : Fmt) (w : Word) : Nat := (w.bits.extractLsb' 0 F.M).toNat

/-- A finite word: zero, subnormal or normal (R121). -/
def isFinite (F : Fmt) (w : Word) : Bool := !isNaN F w && !isInf F w

/-- A named narrow format, whose construction from a double can raise RangeError (R185). -/
def isNarrowNamed (F : Fmt) : Bool := F == .named .fp8e4m3 || F == .named .fp8e5m2

/-- The formats whose conversion from a double draws its NaN: (8, 23) alone (R184). -/
def drawsItsNaN (F : Fmt) : Bool := F.E == 8 && F.M == 23

/-- The double is outside FP8-E4M3's range, as R185 tests it on the named format. -/
def exceedsE4M3 (F : Fmt) (d : Word) : Prop :=
  F = .named .fp8e4m3 ∧ isNaN fp64 d = false ∧ (isInf fp64 d = true ∨ 448 < |realValue fp64 d|)

/-- The double is outside FP8-E5M2's range, as R185 tests it on the named format. -/
def exceedsE5M2 (F : Fmt) (d : Word) : Prop :=
  F = .named .fp8e5m2 ∧ isFinite fp64 d = true ∧ 57344 < |realValue fp64 d|

/-- A reference operator's outcome when its binary64 result is `d` (R194, R180): RangeError of a named narrow format
(R185); of a NaN some NaN at (8, 23) (R184) and the canonical NaN at every other format, where the operation's own NaN is
canonical (40_numerics.md R124) or FromDouble makes it so (R181); else `d` rounded to the format. -/
def ReferenceAnswers (i : Instr) (F : Fmt) (s : State) (d : Word) : Prop :=
  (exceedsE4M3 F d → exec i s = .next ((s.drew 2).fail .rangeError .exceedsE4M3)) ∧
  (exceedsE5M2 F d → exec i s = .next ((s.drew 2).fail .rangeError .exceedsE5M2)) ∧
  (isNaN fp64 d = true → drawsItsNaN F = true →
    ∃ w, AnswersDrawing i s 3 (.word w) ∧ w.width = F.W ∧ isNaN F w = true) ∧
  (isNaN fp64 d = true → drawsItsNaN F = false → AnswersDrawing i s 3 (.word (canonNaN s.params F))) ∧
  (isNaN fp64 d = false → ¬ exceedsE4M3 F d → ¬ exceedsE5M2 F d → AnswersDrawing i s 3 (.word (fromDoubleSpec F d)))

/-- A host's script: drive clocked unit `k` once per entry with the given control ports and inputs. -/
def driveScript (k : Nat) (xs : List (Pins × Instr)) : List HostAction :=
  xs.map (fun x => .drive k x.1 (encode x.2))

/-- The inputs captured by the enabled edges of a script, oldest first (70_reset_and_hazards.md R472). -/
def capturedInputs (c : UnitCfg) (xs : List (Pins × Instr)) : List Instr :=
  (xs.filter (fun x => clockEvent c x.1 == .capture)).map Prod.snd

end Sys2Proof.Machine
end

