-- ==== Sys2Proof/Certificates/Slice0/Obligations.lean ====
section
/-! DEFINITION. Certificates/Slice0/Obligations.lean: the statements about the machine. Each docstring names the rule of
spec/ it formalises. -/

open Sys2Proof Sys2Proof.Machine

/-! ### Selectors, decoding and the step -/

/-- Decoding an encoded instruction gives it back with every operand, and nothing else encodes to what decodes
(30_encoding.md R103, R104, R107). -/
def Obligations.DecodeAndEncodeAgree : Prop :=
  (∀ i : Instr, decode (encode i) = .ok i) ∧ (∀ (v : Invocation) (i : Instr), decode v = .ok i → encode i = v)

/-- R105: the reserved selectors are those listed, and each is refused whatever stands beside it; every other selector
decodes with some operands. -/
def Obligations.ReservedSelectorsAreRefused : Prop :=
  (∀ (s : State) (op : BitVec 8) (args : List Arg) (rest : List HostAction),
    s.program = .invoke ⟨op, args⟩ :: rest → reservedSelector op.toNat → step s = .refused (.reservedSelector op)) ∧
  (∀ op : BitVec 8, ¬ reservedSelector op.toNat → ∃ (args : List Arg) (i : Instr), decode ⟨op, args⟩ = .ok i)

/-- A step takes the host's oldest action: an invocation runs the decoded instruction, a drive clocks the unit with it,
an elaboration adds a unit; with no action left nothing changes (the model's own sequencing, log 1; R31, R103). -/
def Obligations.StepRunsTheDecodedInstruction : Prop :=
  ∀ (s : State) (rest : List HostAction),
    (∀ (v : Invocation) (i : Instr), s.program = .invoke v :: rest → decode v = .ok i →
      step s = exec i { s with program := rest }) ∧
    (∀ (k : Nat) (pins : Pins) (v : Invocation) (i : Instr), s.program = .drive k pins v :: rest → decode v = .ok i →
      step s = driveUnit exec k pins i { s with program := rest }) ∧
    (∀ c : UnitCfg, s.program = .elaborate c :: rest → step s = elaborateUnit c { s with program := rest }) ∧
    (s.program = [] → step s = .next s)

/-- Selector bytes of R104, one or more of each family, stand for the operation their row names. The values beside a byte
are its row's in the row's order, with what the model adds to some rows: OUT_FORMAT at 0x40, 0x41 and 0x50, an absent `rm`
port at 0x40 and SQRT_SUBNORMAL at 0x70 (log 19), and a format for the second operand at 0x2B (log 17). -/
def Obligations.SelectorBytesDecodeToTheirOperations : Prop :=
  ∀ (F G : Fmt) (a b : Word) (x : BitVec 64) (lsb : Int) (sub : SqrtSubnormal),
    decode ⟨0x03, [.fmt F, .word a]⟩ = .ok (.fpIsZero F a) ∧
    decode ⟨0x08, [.fmt F, .word a, .fmt G, .word b]⟩ = .ok (.fpCmp F a G b) ∧
    decode ⟨0x15, [.fmt F]⟩ = .ok (.constOne F) ∧
    decode ⟨0x20, [.double x, .fmt F, .rm (some 1)]⟩ = .ok (.fpFromDouble x F 1) ∧
    decode ⟨0x27, [.fmt F, .word a]⟩ = .ok (.fpToStr F a) ∧
    decode ⟨0x2B, [.fmt F, .word a, .fmt F, .word b]⟩ = .ok (.refDiv F a F b) ∧
    decode ⟨0x30, [.word a, .int lsb]⟩ = .ok (.rndRne a lsb) ∧
    decode ⟨0x40, [.fmt F, .fmt F, .path .dual, .rm none, .word a, .word b]⟩ = .ok (.fadd F F .dual none a b) ∧
    decode ⟨0x41, [.fmt F, .fmt F, .path .single, .rm (some 0), .word a, .word b]⟩ =
      .ok (.fsub F F .single (some 0) a b) ∧
    decode ⟨0x50, [.fmt F, .fmt F, .word a, .word b]⟩ = .ok (.fmul F F a b) ∧
    decode ⟨0x60, [.fmt F, .fmt G, .word a]⟩ = .ok (.fcvt F G a) ∧
    decode ⟨0x70, [.fmt F, .sqrtSub sub, .word a]⟩ = .ok (.fsqrt ⟨F, sub⟩ a)

/-- The frame of every operation: parameters, clocked units and the host's queue stay; only the outputs change, and the
draw count for the operations that draw (R33, R43, R64). -/
def Obligations.OperationsChangeOnlyTheOutputs : Prop :=
  ∀ (i : Instr) (s t : State), exec i s = .next t →
    t.params = s.params ∧ t.units = s.units ∧ t.program = s.program ∧ s.draws ≤ t.draws ∧
    (usesDraws i = false → t.draws = s.draws) ∧ t.out ≠ .nothing

/-- R469: no step changes a parameter, neither the open ones nor what a unit was elaborated with. -/
def Obligations.ParametersNeverChange : Prop :=
  ∀ s t : State, step s = .next t → t.params = s.params ∧
    ∀ (k : Nat) (u : ClockedUnit), s.units[k]? = some u → ∃ u', t.units[k]? = some u' ∧ u'.cfg = u.cfg

/-- R43, R66: an operation's outputs depend on its inputs and the parameters only, and on the draws where a rule says
the result is one. -/
def Obligations.OutputsDependOnInputsAndParametersOnly : Prop :=
  ∀ (i : Instr) (s s' : State), s.params = s'.params → (usesDraws i = true → s.draws = s'.draws) →
    SameOutputs (exec i s) (exec i s')

/-- R62: no step observes BYTE_ORDER. -/
def Obligations.ByteOrderIsNotObserved : Prop :=
  ∀ (s : State) (o : ByteOrder), step (s.withByteOrder o) = mapNext (fun t => t.withByteOrder o) (step s)

/-- R464, 93 I26: no operation faults; a step faults exactly on driving a unit whose configuration is a refused one, and
so never in a state where every unit is as elaboration leaves it. -/
def Obligations.OnlyRefusedConfigurationsAreStuck : Prop :=
  (∀ (i : Instr) (s : State) (f : Fault), exec i s ≠ .fault f) ∧
  (∀ (s : State) (f : Fault), step s = .fault f → ∃ (k : Nat) (pins : Pins) (v : Invocation) (rest : List HostAction)
    (u : ClockedUnit), s.program = .drive k pins v :: rest ∧ s.units[k]? = some u ∧ admitted u.cfg = false) ∧
  (∀ (s : State) (k : Nat) (pins : Pins) (i : Instr) (rest : List HostAction) (u : ClockedUnit),
    s.program = .drive k pins (encode i) :: rest → s.units[k]? = some u → admitted u.cfg = false →
    step s = .fault .stuckConfiguration) ∧
  (∀ (s : State) (f : Fault), StagesOk s → step s ≠ .fault f)

/-- At reset no unit is elaborated (log 5), so the invariant of the stage slots holds. -/
def Obligations.StageInvariantHoldsAtReset : Prop := StagesOk State.reset ∧ State.reset.units = []

/-- R36, R37: every step keeps every clocked unit as elaboration leaves it: an admitted configuration, LATENCY slots,
each ⊥ or a tuple its own ports can have captured. -/
def Obligations.EveryStepKeepsTheStageInvariant : Prop := ∀ s t : State, StagesOk s → step s = .next t → StagesOk t

/-! ### Value codec -/

/-- R160: construction. The generic type takes its widths from the fields and refuses an empty one; a sign of another
width than 1, and a field of another width than a named format's, raise WidthError; else the packed word. -/
def Obligations.PackFollowsItsRule : Prop :=
  ∀ (F : Fmt) (sg e m : Word) (s : State),
    (F.isGeneric = true → e.width = 0 ∨ m.width = 0 → Refuses (.fpPack F sg e m) s .emptyGenericField) ∧
    (¬ (F.isGeneric = true ∧ (e.width = 0 ∨ m.width = 0)) → sg.width ≠ 1 →
      Raises (.fpPack F sg e m) s .widthError .signWidth) ∧
    (F.isGeneric = false → sg.width = 1 → (e.width ≠ F.E ∨ m.width ≠ F.M) →
      Raises (.fpPack F sg e m) s .widthError .fieldWidthOfNamedFormat) ∧
    (sg.width = 1 → (F.isGeneric = false → e.width = F.E ∧ m.width = F.M) →
      (F.isGeneric = true → e.width ≠ 0 ∧ m.width ≠ 0) →
      ∃ w, Answers (.fpPack F sg e m) s (.word w) ∧ w.width = 1 + e.width + m.width ∧
        w.toNat = sg.toNat * 2 ^ (e.width + m.width) + e.toNat * 2 ^ m.width + m.toNat)

/-- R161: FP.FIELDS answers the three field words of any word of the format, refuses a word of another width, and undoes
FP.PACK. -/
def Obligations.FieldsOfAPackedValue : Prop :=
  ∀ (F : Fmt) (s : State), F.codecOk = true →
    (∀ w : Word, w.width = F.W → ∃ sg e m, Answers (.fpFields F w) s (.fields sg e m) ∧
      sg.width = 1 ∧ e.width = F.E ∧ m.width = F.M ∧ IsPacked F w sg.toNat e.toNat m.toNat) ∧
    (∀ w : Word, w.width ≠ F.W → Refuses (.fpFields F w) s .operandWidth) ∧
    (∀ sg e m : Word, sg.width = 1 → e.width = F.E → m.width = F.M →
      ∃ w, Answers (.fpPack F sg e m) s (.word w) ∧ ∀ s', Answers (.fpFields F w) s' (.fields sg e m))

/-- R84: exactly one of the five predicates answers 1 on every word of every format, and never isInfinity for e4m3. -/
def Obligations.ExactlyOneClassHolds : Prop :=
  ∀ (F : Fmt) (w : Word) (s : State), F.codecOk = true → w.width = F.W →
    ∃ z n b i q : Bool, Answers (.fpIsZero F w) s (.bit z) ∧ Answers (.fpIsNormal F w) s (.bit n) ∧
      Answers (.fpIsSubnormal F w) s (.bit b) ∧ Answers (.fpIsInf F w) s (.bit i) ∧
      Answers (.fpIsNaN F w) s (.bit q) ∧
      z.toNat + n.toNat + b.toNat + i.toNat + q.toNat = 1 ∧ (F.variant = .e4m3 → i = false)

/-- R162 to R166: the five predicates as patterns of the exponent and mantissa bits. -/
def Obligations.ClassifierPatterns : Prop :=
  ∀ (F : Fmt) (w : Word) (s : State), F.codecOk = true → w.width = F.W →
    let e := expField F w
    let m := mantField F w
    Answers (.fpIsZero F w) s (.bit (decide (e = 0 ∧ m = 0))) ∧
    Answers (.fpIsSubnormal F w) s (.bit (decide (e = 0 ∧ m ≠ 0))) ∧
    (F.variant = .ieee →
      Answers (.fpIsNormal F w) s (.bit (decide (e ≠ 0 ∧ e ≠ 2 ^ F.E - 1))) ∧
      Answers (.fpIsInf F w) s (.bit (decide (e = 2 ^ F.E - 1 ∧ m = 0))) ∧
      Answers (.fpIsNaN F w) s (.bit (decide (e = 2 ^ F.E - 1 ∧ m ≠ 0)))) ∧
    (F.variant = .e4m3 →
      Answers (.fpIsNormal F w) s (.bit (decide (e ≠ 0 ∧ ¬ (e = 15 ∧ m = 7)))) ∧
      Answers (.fpIsInf F w) s (.bit false) ∧
      Answers (.fpIsNaN F w) s (.bit (decide (e = 15 ∧ m = 7))))

/-- R167: comparison raises WidthError on formats of other widths; else its result is the order of the packed words as
unsigned integers, NaNs included. -/
def Obligations.CompareIsTheRawOrder : Prop :=
  ∀ (Fa Fb : Fmt) (a b : Word) (s : State), Fa.codecOk = true → Fb.codecOk = true →
    a.width = Fa.W → b.width = Fb.W →
    (Fa.E ≠ Fb.E ∨ Fa.M ≠ Fb.M → Raises (.fpCmp Fa a Fb b) s .widthError .compareWidthMismatch) ∧
    (Fa.E = Fb.E → Fa.M = Fb.M →
      ∃ c : Int, Answers (.fpCmp Fa a Fb b) s (.order c) ∧ (c = -1 ∨ c = 0 ∨ c = 1) ∧
        (c = -1 ↔ a.toNat < b.toNat) ∧ (c = 0 ↔ a.toNat = b.toNat) ∧ (c = 1 ↔ b.toNat < a.toNat))

/-- R170 to R173 and R178 (at `E = 1`, where section 4 of 41_value_codec.md says only that the normal-based constants are
refused, by the model's reading of log 14): the zeros, the smallest and largest subnormal with their values, and infinity, which e4m3
refuses. -/
def Obligations.ZeroSubnormalAndInfinityConstants : Prop :=
  ∀ (F : Fmt) (s : State), F.codecOk = true →
    (∃ w, Answers (.constNegZero F) s (.word w) ∧ IsPacked F w 1 0 0) ∧
    (∃ w, Answers (.constPosZero F) s (.word w) ∧ IsPacked F w 0 0 0) ∧
    (∃ w, Answers (.constMinSub F) s (.word w) ∧ IsPacked F w 0 0 1 ∧
      realValue F w = (2 : ℝ) ^ (F.emin - (F.M : ℤ))) ∧
    (∃ w, Answers (.constMaxSub F) s (.word w) ∧ IsPacked F w 0 0 (2 ^ F.M - 1) ∧
      realValue F w = (2 : ℝ) ^ F.emin * (1 - 1 / 2 ^ F.M)) ∧
    (F.variant = .ieee → ∃ w, Answers (.constInf F) s (.word w) ∧ IsPacked F w 0 (2 ^ F.E - 1) 0) ∧
    (F.variant = .e4m3 → Refuses (.constInf F) s .noInfinity)

/-- R174 to R177: the smallest normal, one, the smallest larger than one and the largest normal, with their values. -/
def Obligations.NormalConstants : Prop :=
  ∀ (F : Fmt) (s : State), F.codecOk = true → 2 ≤ F.E →
    (∃ w, Answers (.constMinNorm F) s (.word w) ∧ IsPacked F w 0 1 0 ∧ realValue F w = (2 : ℝ) ^ F.emin ∧
      (F.E = 2 → Answers (.constOne F) s (.word w))) ∧
    (∃ w, Answers (.constOne F) s (.word w) ∧ IsPacked F w 0 (2 ^ (F.E - 1) - 1) 0 ∧ realValue F w = 1) ∧
    (∃ w, Answers (.constOnePlus F) s (.word w) ∧ IsPacked F w 0 (2 ^ (F.E - 1) - 1) 1 ∧
      realValue F w = 1 + 1 / 2 ^ F.M) ∧
    (∃ w, Answers (.constMaxNorm F) s (.word w) ∧
      (F.variant = .ieee → IsPacked F w 0 (2 ^ F.E - 2) (2 ^ F.M - 1) ∧
        realValue F w = (2 : ℝ) ^ F.emax * (2 - 1 / 2 ^ F.M)) ∧
      (F.variant = .e4m3 → IsPacked F w 0 15 6 ∧ w.toNat = 0x7E ∧ realValue F w = 448))

/-- R88: two finite words of sign 0 are ordered by value as by encoding, and +∞ encodes above every finite one. -/
def Obligations.EncodingOrderIsMagnitudeOrder : Prop :=
  ∀ (F : Fmt) (u v : Word), F.codecOk = true → u.width = F.W → v.width = F.W →
    signOf F u = false → isFinite F u = true →
    (signOf F v = false → isFinite F v = true → (realValue F u < realValue F v ↔ u.toNat < v.toNat)) ∧
    (F.variant = .ieee → u.toNat < (infWordOf F false).toNat)

/-- R180 to R182: FromDouble on the generic path gives the canonical NaN, a signed infinity, or the value rounded to
nearest even (mode 000) or truncated (mode 001); for e4m3 the rounding never reaches the NaN pattern. -/
def Obligations.FromDoubleGenericPath : Prop :=
  ∀ (F : Fmt) (x : BitVec 64) (s : State), F.codecOk = true →
    ¬ (F.E = 11 ∧ F.M = 52) → ¬ (F.E = 8 ∧ F.M = 23) →
    let d := doubleWord x
    (F = .named .fp8e4m3 → isNaN fp64 d = true ∨ (isInf fp64 d = false ∧ |realValue fp64 d| ≤ 448)) →
    (F = .named .fp8e5m2 → isNaN fp64 d = true ∨ isInf fp64 d = true ∨ |realValue fp64 d| ≤ 57344) →
    (isNaN fp64 d = true →
      AnswersDrawing (.fpFromDouble x F 0) s 1 (.word (canonNaN s.params F)) ∧
      AnswersDrawing (.fpFromDouble x F 1) s 1 (.word (canonNaN s.params F))) ∧
    (isInf fp64 d = true →
      AnswersDrawing (.fpFromDouble x F 0) s 1 (.word (infWordOf F (signOf fp64 d))) ∧
      AnswersDrawing (.fpFromDouble x F 1) s 1 (.word (infWordOf F (signOf fp64 d)))) ∧
    (isFinite fp64 d = true →
      AnswersDrawing (.fpFromDouble x F 0) s 1 (.word (roundReal F (signOf fp64 d) |realValue fp64 d|)) ∧
      AnswersDrawing (.fpFromDouble x F 1) s 1 (.word (truncReal s.params F (signOf fp64 d) |realValue fp64 d|)) ∧
      (F.variant = .e4m3 → isNaN F (roundReal F (signOf fp64 d) |realValue fp64 d|) = false))

/-- R183: the four stubbed modes give exactly the truncate result, in every state and every format but those of
(8, 23), where R184 makes each mode's result a draw. -/
def Obligations.StubbedModesTruncate : Prop :=
  ∀ (F : Fmt) (x : BitVec 64) (s : State) (rm : BitVec 3), 2 ≤ rm.toNat → rm.toNat ≤ 5 → ¬ (F.E = 8 ∧ F.M = 23) →
    exec (.fpFromDouble x F rm) s = exec (.fpFromDouble x F 1) s

/-- R184: at (11, 52) the word itself in every admitted mode; at (8, 23) some NaN, the nearest-even result, and in every
other admitted mode the nearest-even or the truncated result. -/
def Obligations.FromDoubleExactFormats : Prop :=
  ∀ (F : Fmt) (x : BitVec 64) (s : State) (rm : BitVec 3), rm.toNat ≤ 5 →
    let d := doubleWord x
    (F.E = 11 → F.M = 52 → AnswersDrawing (.fpFromDouble x F rm) s 1 (.word d)) ∧
    (F.E = 8 → F.M = 23 →
      ∃ w, AnswersDrawing (.fpFromDouble x F rm) s 1 (.word w) ∧ w.width = 32 ∧
        (isNaN fp64 d = true → isNaN F w = true) ∧
        (isInf fp64 d = true → w = infWordOf F (signOf fp64 d)) ∧
        (isFinite fp64 d = true → rm = 0 → w = roundReal F (signOf fp64 d) |realValue fp64 d|) ∧
        (isFinite fp64 d = true → w = roundReal F (signOf fp64 d) |realValue fp64 d| ∨
          w = truncReal s.params F (signOf fp64 d) |realValue fp64 d|))

/-- R185: RangeError is raised for the named FP8-E4M3 on infinities and magnitudes above 448, for the named FP8-E5M2 on
finite magnitudes above 57344, and in no other case. -/
def Obligations.RangeErrorThresholds : Prop :=
  ∀ (x : BitVec 64) (s : State) (rm : BitVec 3), rm.toNat ≤ 5 →
    let d := doubleWord x
    (isNaN fp64 d = false → isInf fp64 d = true ∨ |realValue fp64 d| > 448 →
      Raises (.fpFromDouble x (.named .fp8e4m3) rm) s .rangeError .exceedsE4M3) ∧
    (isFinite fp64 d = true → |realValue fp64 d| > 57344 →
      Raises (.fpFromDouble x (.named .fp8e5m2) rm) s .rangeError .exceedsE5M2) ∧
    (∀ F : Fmt, F.codecOk = true →
      (F = .named .fp8e4m3 → isNaN fp64 d = true ∨ (isInf fp64 d = false ∧ |realValue fp64 d| ≤ 448)) →
      (F = .named .fp8e5m2 → isNaN fp64 d = true ∨ isInf fp64 d = true ∨ |realValue fp64 d| ≤ 57344) →
      ∃ w, AnswersDrawing (.fpFromDouble x F rm) s 1 (.word w))

/-- R186: ToDouble of a NaN is some binary64 NaN (FP64: its own word); of an infinity or zero the signed one; of any
other value the nearest double, which is the exact value for every format inside binary64. -/
def Obligations.ToDoubleIsTheNearestDouble : Prop :=
  ∀ (F : Fmt) (w : Word) (s : State), F.codecOk = true → w.width = F.W →
    ∃ x, AnswersDrawing (.fpToDouble F w) s 1 (.double x) ∧
      let d := doubleWord x
      (isNaN F w = true → isNaN fp64 d = true ∧ (F.same fp64 = true → x.toNat = w.toNat)) ∧
      (isInf F w = true → d = infWordOf fp64 (signOf F w)) ∧
      (isZero F w = true → d = zeroWordOf fp64 (signOf F w)) ∧
      (isFinite F w = true → isZero F w = false → d = roundReal fp64 (signOf F w) |realValue F w|) ∧
      (isFinite F w = true → F.E ≤ 11 → F.M ≤ 52 → isFinite fp64 d = true ∧ realValue fp64 d = realValue F w)

/-- A word that is not a NaN comes back from a double unchanged, in every format inside binary64: R186 on the way out; on
the way back R184 at (8, 23) and (11, 52), and elsewhere R181 with R128's exactness, within R185's thresholds (the double
round trip of 95_test_vectors.md section 1.2 is this for FP32 and FP64). -/
def Obligations.DoubleRoundTrip : Prop :=
  ∀ (F : Fmt) (w : Word) (s : State), F.codecOk = true → 2 ≤ F.E → F.E ≤ 11 → F.M ≤ 52 → w.width = F.W →
    isNaN F w = false →
    ∃ x, AnswersDrawing (.fpToDouble F w) s 1 (.double x) ∧
      ∀ s', AnswersDrawing (.fpFromDouble x F 0) s' 1 (.word w)

/-- R187: an integer that does not fit its declared width raises WidthError; else FP.FROMINTS is FP.PACK of the
integers, and with the format's widths it answers the packed word. -/
def Obligations.FromIntsChecksThenPacks : Prop :=
  ∀ (F : Fmt) (sg e m : SizedNat) (s : State),
    ((F.isGeneric = true → e.width ≠ 0 ∧ m.width ≠ 0) →
      2 ^ sg.width ≤ sg.val ∨ 2 ^ e.width ≤ e.val ∨ 2 ^ m.width ≤ m.val →
      Raises (.fpFromInts F sg e m) s .widthError .integerExceedsItsWidth) ∧
    (sg.val < 2 ^ sg.width → e.val < 2 ^ e.width → m.val < 2 ^ m.width →
      exec (.fpFromInts F sg e m) s =
        exec (.fpPack F (Word.ofNat sg.width sg.val) (Word.ofNat e.width e.val) (Word.ofNat m.width m.val)) s) ∧
    (F.codecOk = true → sg.width = 1 → e.width = F.E → m.width = F.M →
      sg.val < 2 → e.val < 2 ^ F.E → m.val < 2 ^ F.M →
      ∃ w, Answers (.fpFromInts F sg e m) s (.word w) ∧ IsPacked F w sg.val e.val m.val)

/-- R188, R189, R426, R428: a generic construction with an empty exponent or mantissa string is refused (before every
error: the model's reading, log 16); else a character other than 0 and 1, then an empty string, is MalformedInput; else
FP.FROMBITSTR is FP.PACK of the binary numbers, and with strings of the format's widths it answers the packed word.
FP.FROMSTR splits at single spaces into exactly three parts, else MalformedInput. -/
def Obligations.FromStringForms : Prop :=
  ∀ (F : Fmt) (s : State),
    (∀ S X T : Str, F.isGeneric = true → X = [] ∨ T = [] → Refuses (.fpFromBitStr F S X T) s .emptyGenericField) ∧
    (∀ S X T : Str, ¬ (F.isGeneric = true ∧ (X = [] ∨ T = [])) → (∃ c ∈ S ++ X ++ T, c ≠ '0' ∧ c ≠ '1') →
      Raises (.fpFromBitStr F S X T) s .malformedInput .notABinaryDigit) ∧
    (∀ S X T : Str, ¬ (F.isGeneric = true ∧ (X = [] ∨ T = [])) → (∀ c ∈ S ++ X ++ T, c = '0' ∨ c = '1') →
      S = [] ∨ X = [] ∨ T = [] →
      Raises (.fpFromBitStr F S X T) s .malformedInput .emptyString) ∧
    (∀ S X T : Str, (∀ c ∈ S ++ X ++ T, c = '0' ∨ c = '1') → S ≠ [] → X ≠ [] → T ≠ [] →
      exec (.fpFromBitStr F S X T) s = exec (.fpPack F (binaryWord S) (binaryWord X) (binaryWord T)) s) ∧
    (∀ S X T : Str, F.codecOk = true → (∀ c ∈ S ++ X ++ T, c = '0' ∨ c = '1') →
      S.length = 1 → X.length = F.E → T.length = F.M →
      ∃ w, Answers (.fpFromBitStr F S X T) s (.word w) ∧
        Answers (.fpFromStr F (S ++ ' ' :: (X ++ ' ' :: T))) s (.word w) ∧
        IsPacked F w (binaryWord S).toNat (binaryWord X).toNat (binaryWord T).toNat) ∧
    (∀ S X T : Str, ' ' ∉ S → ' ' ∉ X → ' ' ∉ T →
      exec (.fpFromStr F (S ++ ' ' :: (X ++ ' ' :: T))) s = exec (.fpFromBitStr F S X T) s) ∧
    (∀ t : Str, t.count ' ' ≠ 2 → Raises (.fpFromStr F t) s .malformedInput .notThreeParts)

/-- R190, R102: a radix outside RADICES is refused; a string that is no numeral of the radix is MalformedInput; a
numeral of more than W bits is WidthError; else its value is the packed word. -/
def Obligations.FromRadixReadsTheNumeral : Prop :=
  ∀ (F : Fmt) (t : Str) (r : Nat) (s : State), F.codecOk = true →
    (r ∉ s.params.radices → Refuses (.fpFromRadix F t r) s .radix) ∧
    (r ∈ s.params.radices → t = [] ∨ (∃ c ∈ t, ∀ d, digitValue c = some d → r ≤ d) →
      Raises (.fpFromRadix F t r) s .malformedInput .notANumeral) ∧
    (r ∈ s.params.radices → t ≠ [] → (∀ c ∈ t, ∃ d, digitValue c = some d ∧ d < r) →
      let n := t.foldl (fun n c => n * r + (digitValue c).getD 0) 0
      (n < 2 ^ F.W → Answers (.fpFromRadix F t r) s (.word (Word.ofNat F.W n))) ∧
      (2 ^ F.W ≤ n → Raises (.fpFromRadix F t r) s .widthError .numeralTooWide)) ∧
    (∀ n : Nat, r ∈ s.params.radices → 2 ≤ r → r ≤ 16 → n < 2 ^ F.W → t = Nat.toDigits r n →
      Answers (.fpFromRadix F t r) s (.word (Word.ofNat F.W n)))

/-- R191: the three binary strings have 1, E and M binary characters, and reading them back gives the word. -/
def Obligations.BinaryStringsRoundTrip : Prop :=
  ∀ (F : Fmt) (w : Word) (s : State), F.codecOk = true → w.width = F.W →
    ∃ S X T : Str, Answers (.fpToBitStr F w) s (.strings S X T) ∧ S.length = 1 ∧ X.length = F.E ∧ T.length = F.M ∧
      (∀ c ∈ S ++ X ++ T, c = '0' ∨ c = '1') ∧
      IsPacked F w (binaryWord S).toNat (binaryWord X).toNat (binaryWord T).toNat ∧
      ∀ s', Answers (.fpFromBitStr F S X T) s' (.word w)

/-- R192: the spaced string is the three binary strings with one space between; parsing it gives the word back, and
every string that parses to a word of the format is the string of that word. -/
def Obligations.SpacedStringsRoundTrip : Prop :=
  ∀ (F : Fmt) (s : State), F.codecOk = true →
    (∀ w : Word, w.width = F.W → ∃ S X T : Str, Answers (.fpToBitStr F w) s (.strings S X T) ∧
      Answers (.fpToStr F w) s (.string (S ++ [' '] ++ X ++ [' '] ++ T)) ∧
      Answers (.fpFromStr F (S ++ [' '] ++ X ++ [' '] ++ T)) s (.word w)) ∧
    (∀ (S X T : Str) (w : Word), ' ' ∉ S → ' ' ∉ X → ' ' ∉ T → X.length = F.E → T.length = F.M →
      Answers (.fpFromStr F (S ++ [' '] ++ X ++ [' '] ++ T)) s (.word w) →
      ∀ s', Answers (.fpToStr F w) s' (.string (S ++ [' '] ++ X ++ [' '] ++ T)))

/-! ### Rounding -/

/-- R126, R127 and R129: the machine's rounding and its truncation of an exact magnitude are the rule's, on real
numbers. -/
def Obligations.RoundingFollowsTheExactRule : Prop :=
  (∀ (F : Fmt) (s : Bool) (a : Mag), 0 < a.den → rne F s a = roundReal F s a.toReal) ∧
  (∀ (p : Params) (F : Fmt) (s : Bool) (a : Mag), 0 < a.den → rtz p F s a = truncReal p F s a.toReal)

/-- R128: overflow threshold, underflow to zero, exactness, and the sign of a zero result. -/
def Obligations.RoundingConsequences : Prop :=
  ∀ (F : Fmt) (s : Bool), F.unitOk = true →
    (∀ a : ℝ, 0 ≤ a →
      (roundReal F s a = infWordOf F s ↔ (2 : ℝ) ^ F.emax * (2 - (2 : ℝ) ^ (-(F.M : ℤ) - 1)) ≤ a)) ∧
    (∀ a : ℝ, 0 < a → a ≤ (2 : ℝ) ^ (F.emin - F.M - 1) → roundReal F s a = zeroWordOf F s) ∧
    (∀ a : ℝ, (2 : ℝ) ^ (F.emin - F.M - 1) < a → a < 1.5 * (2 : ℝ) ^ (F.emin - F.M) →
      roundReal F s a = pack F s 0 1) ∧
    (∀ v : Word, v.width = F.W → isFinite F v = true → signOf F v = s → roundReal F s |realValue F v| = v) ∧
    roundReal F s 0 = zeroWordOf F s ∧
    (∃ v : Word, roundReal F s (1.5 * (2 : ℝ) ^ (F.emin - F.M)) = v ∧
      |realValue F v| = 2 * (2 : ℝ) ^ (F.emin - F.M))

/-- R124: the canonical NaN is a NaN of its format, one word for every format of one triple, and the default word where
no other was chosen. -/
def Obligations.CanonicalNaNIsOneNaNPerFormat : Prop :=
  ∀ (p : Params) (F : Fmt), F.codecOk = true →
    isNaN F (canonNaN p F) = true ∧ (canonNaN p F).width = F.W ∧
    (∀ G : Fmt, F.same G = true → canonNaN p G = canonNaN p F) ∧
    (p.canonNaN = [] → F.variant = .ieee → IsPacked F (canonNaN p F) 0 (2 ^ F.E - 1) (2 ^ (F.M - 1))) ∧
    (p.canonNaN = [] → F.variant = .e4m3 → (canonNaN p F).toNat = 0x7F)

/-- R230 to R233: the round-up decision from the kept bit, guard, round and sticky bits, missing ones 0; an `lsb` outside
the vector is refused. -/
def Obligations.RoundUpDecision : Prop :=
  ∀ (bits : Word) (lsb : Int) (s : State),
    (lsb < 0 ∨ (bits.width : Int) ≤ lsb → Refuses (.rndRne bits lsb) s .lsbRange) ∧
    (∀ n : Nat, lsb = n → n < bits.width →
      ∃ up : Bool, Answers (.rndRne bits lsb) s (.bit up) ∧
        (up = true ↔ 1 ≤ n ∧ bits.bits.getLsbD (n - 1) = true ∧
          (bits.bits.getLsbD n = true ∨ (2 ≤ n ∧ bits.bits.getLsbD (n - 2) = true) ∨
            ∃ k, k + 2 < n ∧ bits.bits.getLsbD k = true)))

/-- R234, R235: the decision is round to nearest, ties to even, of `B / 2^lsb`, and it is the same with zero bits
appended below. -/
def Obligations.RoundUpIsNearestTiesToEven : Prop :=
  ∀ (bits : Word) (n : Nat) (s : State), n < bits.width →
    let K := bits.toNat / 2 ^ n
    let R := bits.toNat % 2 ^ n
    ∃ up : Bool, Answers (.rndRne bits n) s (.bit up) ∧
      (up = true ↔ 2 * R > 2 ^ n ∨ (2 * R = 2 ^ n ∧ K % 2 = 1)) ∧
      (2 * R = 2 ^ n → (K + up.toNat) % 2 = 0) ∧
      ∀ k : Nat, Answers (.rndRne ⟨bits.width + k, bits.bits ++ BitVec.zero k⟩ ((n : Int) + k)) s (.bit up)

/-! ### Reference operators -/

/-- R194: operands of different formats raise WidthError; operands of one format, a named narrow one apart, always
complete with a word of the format; a named narrow one completes or raises RangeError (log 17). -/
def Obligations.ReferenceOperatorsComplete : Prop :=
  ∀ (Fa Fb : Fmt) (a b : Word) (s : State) (i : Instr), Fa.codecOk = true → Fb.codecOk = true →
    a.width = Fa.W → b.width = Fb.W →
    (i = .refAdd Fa a Fb b ∨ i = .refSub Fa a Fb b ∨ i = .refMul Fa a Fb b ∨ i = .refDiv Fa a Fb b) →
    (Fa.same Fb = false → Raises i s .widthError .formatsDiffer) ∧
    (Fa.same Fb = true → isNarrowNamed Fa = false →
      ∃ w, AnswersDrawing i s 3 (.word w) ∧ w.width = Fa.W) ∧
    (Fa.same Fb = true → isNarrowNamed Fa = true →
      (∃ w, AnswersDrawing i s 3 (.word w) ∧ w.width = Fa.W) ∨
      ∃ info, exec i s = .next ((s.drew 2).fail .rangeError info))

/-- R194 to R198, on all operands of one format: both converted to binary64 (R186), exactly where they are finite and the
format is inside binary64; the exact sum, difference, product or quotient rounded to binary64, with IEEE special cases;
and that double converted back (R180). A NaN is the canonical one (R124), but for the draw of R184 at (8, 23), where `0 ÷ 0`
is canonical all the same (R198; log 18); the second operand may carry another name of the format (log 17). At `E = 1` the way back rounds as log 13
says. -/
def Obligations.ReferenceRoundsThroughBinary64 : Prop :=
  ∀ (F G : Fmt) (a b : Word) (s : State), F.codecOk = true → F.same G = true → a.width = F.W → b.width = F.W →
    let nan := defaultNaN fp64
    let da := cvtSpec F fp64 nan a
    let db := cvtSpec F fp64 nan b
    (∀ w : Word, w.width = F.W → isFinite F w = true → F.E ≤ 11 → F.M ≤ 52 →
      isFinite fp64 (cvtSpec F fp64 nan w) = true ∧ realValue fp64 (cvtSpec F fp64 nan w) = realValue F w ∧
        signOf fp64 (cvtSpec F fp64 nan w) = signOf F w) ∧
    ReferenceAnswers (.refAdd F a G b) F s (addSpec fp64 nan da db false) ∧
    ReferenceAnswers (.refSub F a G b) F s (addSpec fp64 nan da db true) ∧
    ReferenceAnswers (.refMul F a G b) F s (mulSpec fp64 nan da db) ∧
    (isZero F a = true → isZero F b = true → AnswersDrawing (.refDiv F a G b) s 3 (.word (canonNaN s.params F))) ∧
    (¬ (isZero F a = true ∧ isZero F b = true) → ReferenceAnswers (.refDiv F a G b) F s (divSpec fp64 nan da db))

/-- R199 for the product: the multiplier and REF.MUL give the same word wherever the result is not a NaN, for formats
with E ≤ 10 and M ≤ 24, whose products lie inside binary64 (the named FP8-E5M2, which can raise RangeError, apart). -/
def Obligations.MultiplierAgreesWithReference : Prop :=
  ∀ (F : Fmt) (a b : Word) (s : State), F.unitOk = true → F.E ≤ 10 → F.M ≤ 24 → isNarrowNamed F = false →
    a.width = F.W → b.width = F.W → isNaN F a = false → isNaN F b = false →
    ¬ (isInf F a = true ∧ isZero F b = true) → ¬ (isZero F a = true ∧ isInf F b = true) →
    ∃ w, Answers (.fmul F F a b) s (.word w) ∧ AnswersDrawing (.refMul F a F b) s 3 (.word w)

/-- R199 for the sum and difference: both adder paths and REF.ADD, REF.SUB give the same word wherever the result is not
a NaN (infinities of opposite effective sign apart), for formats with E ≤ 10 and M ≤ 24, the named FP8-E5M2 apart. -/
def Obligations.AdderAgreesWithReference : Prop :=
  ∀ (F : Fmt) (path : AdderPath) (a b : Word) (s : State), F.unitOk = true → F.E ≤ 10 → F.M ≤ 24 →
    isNarrowNamed F = false → a.width = F.W → b.width = F.W → isNaN F a = false → isNaN F b = false →
    (¬ (isInf F a = true ∧ isInf F b = true ∧ signOf F a ≠ signOf F b) →
      ∃ w, Answers (.fadd F F path none a b) s (.word w) ∧ AnswersDrawing (.refAdd F a F b) s 3 (.word w)) ∧
    (¬ (isInf F a = true ∧ isInf F b = true ∧ signOf F a = signOf F b) →
      ∃ w, Answers (.fsub F F path none a b) s (.word w) ∧ AnswersDrawing (.refSub F a F b) s 3 (.word w))

/-! ### Arithmetic units -/

/-- Every arithmetic unit completes on every pair of words of every admitted format, with its datapath's words, and
changes nothing else (R34, R64, R251, R252, R300, R340, R380). -/
def Obligations.UnitsCompleteOnEveryOperand : Prop :=
  ∀ (F G : Fmt) (path : AdderPath) (rm : Option (BitVec 3)) (sub : SqrtSubnormal) (a b : Word) (s : State),
    F.unitOk = true → a.width = F.W → b.width = F.W →
    (G.same F = true → rm = none ∨ rm = some 0 →
      Answers (.fadd F G path rm a b) s (.word (adderSum F path (canonNaN s.params F) a b false)) ∧
      Answers (.fsub F G path rm a b) s (.word (adderSum F path (canonNaN s.params F) a b true)) ∧
      Answers (.fmul F G a b) s (.word (multiplierProduct F (canonNaN s.params F) a b))) ∧
    (G.unitOk = true → Answers (.fcvt F G a) s (.word (converted F G (canonNaN s.params G) a))) ∧
    Answers (.fsqrt ⟨F, sub⟩ a) s (.root (rootWord F (canonNaN s.params F) sub a) (errorOutput F sub a))

/-- R251, R252: on every pair of words and either path the adder gives the exact sum or difference rounded once, with
the rule's special cases. -/
def Obligations.AdderRoundsTheExactSumOnce : Prop :=
  ∀ (F G : Fmt) (path : AdderPath) (rm : Option (BitVec 3)) (a b : Word) (s : State), F.unitOk = true →
    G.same F = true → rm = none ∨ rm = some 0 → a.width = F.W → b.width = F.W →
    Answers (.fadd F G path rm a b) s (.word (addSpec F (canonNaN s.params F) a b false)) ∧
    Answers (.fsub F G path rm a b) s (.word (addSpec F (canonNaN s.params F) a b true))

/-- R267: ADDER_PATH is not observable at the ports. -/
def Obligations.AdderPathIsNotObservable : Prop :=
  ∀ (F G : Fmt) (rm : Option (BitVec 3)) (a b : Word) (s : State),
    exec (.fadd F G .dual rm a b) s = exec (.fadd F G .single rm a b) s ∧
    exec (.fsub F G .dual rm a b) s = exec (.fsub F G .single rm a b) s

/-- R253: NaN operand, then infinity against infinity of opposite effective sign, then any infinity, then the selected
path. -/
def Obligations.AdderSpecialCasePriority : Prop :=
  ∀ (F : Fmt) (path : AdderPath) (a b : Word) (s : State) (sub : Bool) (i : Instr), F.unitOk = true →
    a.width = F.W → b.width = F.W →
    i = (if sub then .fsub F F path none a b else .fadd F F path none a b) →
    (isNaN F a = true ∨ isNaN F b = true → Answers i s (.word (canonNaN s.params F))) ∧
    (isInf F a = true → isInf F b = true → signOf F a ≠ (signOf F b ^^ sub) →
      Answers i s (.word (canonNaN s.params F))) ∧
    (isInf F a = true → isInf F b = true → signOf F a = (signOf F b ^^ sub) →
      Answers i s (.word (infWordOf F (signOf F a)))) ∧
    (isInf F a = true → isFinite F b = true → Answers i s (.word (infWordOf F (signOf F a)))) ∧
    (isFinite F a = true → isInf F b = true → Answers i s (.word (infWordOf F (signOf F b ^^ sub)))) ∧
    (isFinite F a = true → isFinite F b = true → path = .dual → Answers i s (.word (dualPathSum F a b sub))) ∧
    (isFinite F a = true → isFinite F b = true → path = .single → Answers i s (.word (singlePathSum F a b sub)))

/-- R254: an exact sum of zero is +0 unless both addends are zeros of one effective sign, which it keeps; a nonzero exact
sum never rounds to zero. -/
def Obligations.SignOfAnExactZeroSum : Prop :=
  ∀ (F : Fmt) (path : AdderPath) (a b : Word) (s : State) (sub : Bool) (i : Instr), F.unitOk = true →
    a.width = F.W → b.width = F.W → isFinite F a = true → isFinite F b = true →
    i = (if sub then .fsub F F path none a b else .fadd F F path none a b) →
    let x := realValue F a + (if sub then -realValue F b else realValue F b)
    (isZero F a = true → isZero F b = true → signOf F a = (signOf F b ^^ sub) →
      Answers i s (.word (zeroWordOf F (signOf F a)))) ∧
    (x = 0 → ¬ (isZero F a = true ∧ isZero F b = true ∧ signOf F a = (signOf F b ^^ sub)) →
      Answers i s (.word (zeroWordOf F false))) ∧
    (x ≠ 0 → ∃ w, Answers i s (.word w) ∧ isZero F w = false)

/-- R255: with an `rm` port only 000 is admitted, and every other value is refused; without one the adder does what 000
does. -/
def Obligations.AdderRoundingModePort : Prop :=
  ∀ (F G : Fmt) (path : AdderPath) (a b : Word) (s : State), F.unitOk = true → G.same F = true →
    a.width = F.W → b.width = F.W →
    (∀ rm : BitVec 3, rm ≠ 0 → Refuses (.fadd F G path (some rm) a b) s .adderRounding ∧
      Refuses (.fsub F G path (some rm) a b) s .adderRounding) ∧
    (∃ w, Answers (.fadd F G path (some 0) a b) s (.word w) ∧ Answers (.fadd F G path none a b) s (.word w)) ∧
    (∃ w, Answers (.fsub F G path (some 0) a b) s (.word w) ∧ Answers (.fsub F G path none a b) s (.word w))

/-- R262 (93 I25): on the far path a carry out of the addition is never followed by a rounding carry. -/
def Obligations.FarPathNeverCarriesTwice : Prop :=
  ∀ (F : Fmt) (x : Aligned), x.sigL < 2 ^ (F.M + 1) → x.sigS < 2 ^ (F.M + 1) →
    (farSum false x).testBit (F.M + 4) = true →
    let D := (farNormalise F (farSum false x) x.eL).1
    (farNormalise F (farSum false x) x.eL).2 = x.eL + 1 ∧ D / 2 ^ 3 + (roundUp D 3).toNat < 2 ^ (F.M + 1)

/-- R269: adding a zero of either sign to a finite nonzero value gives it back exactly, and an addition does not depend
on the order of its operands. -/
def Obligations.AdditionOfZeroAndCommutation : Prop :=
  ∀ (F : Fmt) (path : AdderPath) (a b : Word) (s : State), F.unitOk = true → a.width = F.W → b.width = F.W →
    (isZero F b = true → isFinite F a = true → isZero F a = false →
      Answers (.fadd F F path none a b) s (.word a) ∧ Answers (.fsub F F path none a b) s (.word a) ∧
      Answers (.fadd F F path none b a) s (.word a)) ∧
    exec (.fadd F F path none a b) s = exec (.fadd F F path none b a) s

/-- R300: on every pair of words the multiplier gives the exact product rounded once, with the rule's special cases. -/
def Obligations.MultiplierRoundsTheExactProductOnce : Prop :=
  ∀ (F G : Fmt) (a b : Word) (s : State), F.unitOk = true → G.same F = true → a.width = F.W → b.width = F.W →
    Answers (.fmul F G a b) s (.word (mulSpec F (canonNaN s.params F) a b))

/-- R340: on every word and every pair of admitted formats the converter gives the value rounded once, with the rule's
special cases. -/
def Obligations.ConverterRoundsOnce : Prop :=
  ∀ (Fs Fd : Fmt) (a : Word) (s : State), Fs.unitOk = true → Fd.unitOk = true → a.width = Fs.W →
    Answers (.fcvt Fs Fd a) s (.word (cvtSpec Fs Fd (canonNaN s.params Fd) a))

/-- R349, R350: the identity conversion gives every word but a NaN back, a NaN becomes the canonical one, and widening
then narrowing gives every word but a NaN back with its value exact in between. -/
def Obligations.ConversionsThatLoseNothing : Prop :=
  ∀ (Fs Fd : Fmt) (a : Word) (s : State), Fs.unitOk = true → Fd.unitOk = true → a.width = Fs.W →
    (isNaN Fs a = true → Answers (.fcvt Fs Fs a) s (.word (canonNaN s.params Fs))) ∧
    (isNaN Fs a = false → Answers (.fcvt Fs Fs a) s (.word a)) ∧
    (isNaN Fs a = false → Fs.E ≤ Fd.E → Fs.M ≤ Fd.M →
      ∃ w, Answers (.fcvt Fs Fd a) s (.word w) ∧ (isFinite Fs a = true → realValue Fd w = realValue Fs a) ∧
        ∀ s', Answers (.fcvt Fd Fs w) s' (.word a))

/-- R380, R383: on every word the square root gives the exact root rounded once beside `error`, with the rule's special
cases and the subnormal case as SQRT_SUBNORMAL says. -/
def Obligations.SquareRootRoundsTheExactRootOnce : Prop :=
  ∀ (F : Fmt) (sub : SqrtSubnormal) (a : Word) (s : State), F.unitOk = true → a.width = F.W →
    let r := sqrtSpec F (canonNaN s.params F) sub a
    Answers (.fsqrt ⟨F, sub⟩ a) s (.root r.1 r.2)

/-- R382: `error` is 1 exactly for a negative nonzero operand (a positive subnormal under SQRT_SUBNORMAL = flagged
apart, R383), and its code is that of InvalidOperation. -/
def Obligations.SquareRootErrorOutput : Prop :=
  ∀ (F : Fmt) (sub : SqrtSubnormal) (a : Word) (s : State), F.unitOk = true → a.width = F.W →
    ∃ w e, Answers (.fsqrt ⟨F, sub⟩ a) s (.root w e) ∧
      (sub ≠ .flagged →
        (e = true ↔ (isFinite F a = true ∧ realValue F a < 0) ∨ (isInf F a = true ∧ signOf F a = true))) ∧
      (sub = .flagged →
        (e = true ↔ (isFinite F a = true ∧ realValue F a < 0) ∨ (isInf F a = true ∧ signOf F a = true) ∨
          (isSubnormal F a = true ∧ signOf F a = false))) ∧
      (Out.value (.root w e)).code = (if e then 2 else 0)

/-- R388: the root of an exact square is exact, with `error` 0. -/
def Obligations.RootOfAnExactSquare : Prop :=
  ∀ (F : Fmt) (sub : SqrtSubnormal) (x y : Word) (s : State), F.unitOk = true → x.width = F.W → y.width = F.W →
    isFinite F x = true → isFinite F y = true → signOf F x = false → signOf F y = false →
    realValue F x = realValue F y * realValue F y → (isSubnormal F x = true → sub = .rounded) →
    Answers (.fsqrt ⟨F, sub⟩ x) s (.root y false)

/-! ### Refusals and errors -/

/-- R428: the listed invocations are refused, in every state. -/
def Obligations.RefusedInvocations : Prop :=
  ∀ (s : State) (F G : Fmt) (path : AdderPath) (rm : Option (BitVec 3)) (sub : SqrtSubnormal) (a b : Word),
    (∀ (op : BitVec 8) (args : List Arg) (rest : List HostAction), s.program = .invoke ⟨op, args⟩ :: rest →
      reservedSelector op.toNat → step s = .refused (.reservedSelector op)) ∧
    (∀ r : BitVec 3, r ≠ 0 → (∃ q, Refuses (.fadd F G path (some r) a b) s q) ∧
      (∃ q, Refuses (.fsub F G path (some r) a b) s q)) ∧
    (∀ (x : BitVec 64) (r : BitVec 3), 6 ≤ r.toNat → ∃ q, Refuses (.fpFromDouble x F r) s q) ∧
    (F.unitOk = false → Refuses (.fadd F G path rm a b) s .unitFormat ∧ Refuses (.fsub F G path rm a b) s .unitFormat ∧
      Refuses (.fmul F G a b) s .unitFormat ∧ Refuses (.fcvt F G a) s .unitFormat ∧
      (∃ q, Refuses (.fcvt G F a) s q) ∧ Refuses (.fsqrt ⟨F, sub⟩ a) s .unitFormat) ∧
    (G.same F = false → (∃ q, Refuses (.fadd F G path rm a b) s q) ∧ (∃ q, Refuses (.fsub F G path rm a b) s q) ∧
      (∃ q, Refuses (.fmul F G a b) s q)) ∧
    (∀ lsb : Int, lsb < 0 ∨ (a.width : Int) ≤ lsb → Refuses (.rndRne a lsb) s .lsbRange) ∧
    (∀ sg e m : Word, F.isGeneric = true → e.width = 0 ∨ m.width = 0 → ∃ q, Refuses (.fpPack F sg e m) s q) ∧
    (∀ sg e m : SizedNat, F.isGeneric = true → e.width = 0 ∨ m.width = 0 → ∃ q, Refuses (.fpFromInts F sg e m) s q) ∧
    (∀ S X T : Str, F.isGeneric = true → X = [] ∨ T = [] → (∃ q, Refuses (.fpFromBitStr F S X T) s q) ∧
      (' ' ∉ S → ' ' ∉ X → ' ' ∉ T → ∃ q, Refuses (.fpFromStr F (S ++ ' ' :: (X ++ ' ' :: T))) s q)) ∧
    (F.variant = .e4m3 → Refuses (.constInf F) s .noInfinity) ∧
    (F.E = 1 → (∃ q, Refuses (.constMinNorm F) s q) ∧ (∃ q, Refuses (.constOne F) s q) ∧
      (∃ q, Refuses (.constOnePlus F) s q) ∧ (∃ q, Refuses (.constMaxNorm F) s q)) ∧
    (∀ (t : Str) (r : Nat), r ∉ s.params.radices → ∃ q, Refuses (.fpFromRadix F t r) s q)

/-- R426: which condition wins when several hold. -/
def Obligations.PriorityWithinOneOperation : Prop :=
  ∀ (s : State) (F : Fmt) (sub : SqrtSubnormal),
    (∀ S X T : Str, F.isGeneric = true → X = [] ∨ T = [] → ∃ q, Refuses (.fpFromBitStr F S X T) s q) ∧
    (∀ S X T : Str, ¬ (F.isGeneric = true ∧ (X = [] ∨ T = [])) →
      (∃ c ∈ S ++ X ++ T, c ≠ '0' ∧ c ≠ '1') ∨ S = [] ∨ X = [] ∨ T = [] →
      ∃ info, Raises (.fpFromBitStr F S X T) s .malformedInput info) ∧
    (∀ t : Str, t.count ' ' ≠ 2 → ∃ info, Raises (.fpFromStr F t) s .malformedInput info) ∧
    (∀ (t : Str) (r : Nat), r ∉ s.params.radices → ∃ q, Refuses (.fpFromRadix F t r) s q) ∧
    (∀ (t : Str) (r : Nat), F.codecOk = true → r ∈ s.params.radices →
      (∃ c ∈ t, ∀ d, digitValue c = some d → r ≤ d) →
      Raises (.fpFromRadix F t r) s .malformedInput .notANumeral) ∧
    (∀ sg e m : SizedNat, e.width ≠ 0 → m.width ≠ 0 → 2 ^ e.width ≤ e.val →
      Raises (.fpFromInts F sg e m) s .widthError .integerExceedsItsWidth) ∧
    (∀ sg e m : SizedNat, e.width ≠ 0 → m.width ≠ 0 → sg.val < 2 ^ sg.width → e.val < 2 ^ e.width →
      m.val < 2 ^ m.width → sg.width ≠ 1 → Raises (.fpFromInts F sg e m) s .widthError .signWidth) ∧
    (∀ (x : BitVec 64) (rm : BitVec 3), F.codecOk = true → 6 ≤ rm.toNat →
      Refuses (.fpFromDouble x F rm) s .reservedRounding) ∧
    (∀ a : Word, F.unitOk = true → a.width = F.W → isNaN F a = true ∨ isZero F a = true →
      ∃ w, Answers (.fsqrt ⟨F, sub⟩ a) s (.root w false))

/-! ### Clocked units -/

/-- R38, R461, R465: what one drive of a unit's ports does to its slots. A reset clears all of them (asynchronously or
at a rising edge) and wins over the enable; an enabled rising edge shifts them and captures the inputs; anything else
leaves the unit as it is. The drive completes whenever the operation whose inputs reach the last slot does. -/
def Obligations.ClockEdgeFollowsTheLadder : Prop :=
  ∀ (s : State) (k : Nat) (pins : Pins) (i : Instr) (rest : List HostAction) (u : ClockedUnit),
    s.program = .drive k pins (encode i) :: rest → s.units[k]? = some u → unitOk u = true →
    fits u.cfg.kind i = true →
    let c := u.cfg
    let clears := c.hasReset = true ∧ pins.reset = true ∧ (c.resetStyle = .async ∨ pins.rising = true)
    let captures := pins.rising = true ∧ (c.hasEnable = false ∨ pins.en = true)
    (clears → ∃ t u', step s = .next t ∧ t.units[k]? = some u' ∧ u'.slots.length = c.latency ∧
      ∀ x ∈ u'.slots, x = .bottom .zeros) ∧
    (¬ clears → captures → (∀ j, lastSlot (.captured i :: u.slots.dropLast) = .captured j → ∃ t, exec j s = .next t) →
      ∃ t u', step s = .next t ∧ t.units[k]? = some u' ∧ u'.slots.length = c.latency ∧
        u'.slots[0]? = some (.captured i) ∧
        ∀ n, n + 1 < c.latency → u'.slots[n + 1]? = (u.slots[n]?).map Slot.advance) ∧
    (¬ clears → ¬ captures → ∃ t, step s = .next t ∧ t.units = s.units ∧ t.out = .value u.out)

/-- R40: after a drive that changes the slots the unit's outputs are the operation of the last slot's inputs, or, when
that slot is ⊥, words of the output widths, and the unit shows them on its ports; after any other drive its outputs
hold. -/
def Obligations.ClockedOutputsAreTheLastSlots : Prop :=
  ∀ (s t : State) (k : Nat) (pins : Pins) (i : Instr) (rest : List HostAction) (u : ClockedUnit),
    s.program = .drive k pins (encode i) :: rest → s.units[k]? = some u → unitOk u = true → step s = .next t →
    (clockEvent u.cfg pins = .hold → t.units[k]? = some u ∧ t.out = .value u.out) ∧
    (clockEvent u.cfg pins ≠ .hold →
      ∃ u', t.units[k]? = some u' ∧ t.out = .value u'.out ∧ u'.cfg = u.cfg ∧
        (∀ j, lastSlot u'.slots = .captured j → ∃ t', exec j s = .next t' ∧ t'.out = .value u'.out) ∧
        (∀ b, lastSlot u'.slots = .bottom b →
          match u.cfg.kind with
          | .adder _ outF _ _ _ => ∃ w, u'.out = .word w ∧ w.width = outF.W
          | .multiplier _ outF => ∃ w, u'.out = .word w ∧ w.width = outF.W
          | .converter _ Fd => ∃ w, u'.out = .word w ∧ w.width = Fd.W
          | .squareRoot v => ∃ w e, u'.out = .root w e ∧ w.width = v.F.W))

/-- R41, R464: elaborating an admitted configuration adds a unit whose LATENCY slots are all ⊥ and changes no other; a
configuration that is not admitted is refused. -/
def Obligations.ElaborationStartsEverySlotEmpty : Prop :=
  ∀ (s : State) (c : UnitCfg) (rest : List HostAction), s.program = .elaborate c :: rest →
    (admitted c = true → ∃ t u, step s = .next t ∧ t.units = s.units ++ [u] ∧ u.cfg = c ∧
      u.slots.length = c.latency ∧ (∀ x ∈ u.slots, x = .bottom .unknown) ∧ t.params = s.params ∧ t.program = rest) ∧
    (admitted c = false → ∃ r, step s = .refused r)

/-- R472: the wait rule. Between resets, after `n` enabled edges of a unit that starts empty, its outputs are the
operation of the inputs of edge `n - LATENCY + 1` when `n ≥ LATENCY`; before that its last slot is ⊥ and they are draws.
Disabled edges are not counted. -/
def Obligations.OutputsArriveLatencyEdgesLater : Prop :=
  ∀ (s t : State) (k : Nat) (u : ClockedUnit) (xs : List (Pins × Instr)) (rest : List HostAction),
    s.program = driveScript k xs ++ rest → s.units[k]? = some u → unitOk u = true →
    (∀ x ∈ u.slots, ∃ b, x = .bottom b) → (∀ x ∈ xs, clockEvent u.cfg x.1 ≠ .clear) →
    (Host.Core.run core xs.length s : StepOutcome) = .next t →
    let ins := capturedInputs u.cfg xs
    ∃ u', t.units[k]? = some u' ∧ u'.cfg = u.cfg ∧ t.program = rest ∧
      (ins.length < u.cfg.latency → ∃ b, lastSlot u'.slots = .bottom b) ∧
      (∀ j, u.cfg.latency ≤ ins.length → ins[ins.length - u.cfg.latency]? = some j →
        lastSlot u'.slots = .captured j ∧ ∃ t', exec j s = .next t' ∧ t'.out = .value u'.out)

/-- R473: driving one unit leaves every other unit as it is, and what it does to its own unit and outputs does not
depend on the others. -/
def Obligations.UnitsAreIndependent : Prop :=
  ∀ (s s' : State) (k : Nat) (pins : Pins) (v : Invocation) (rest rest' : List HostAction),
    s.program = .drive k pins v :: rest → s'.program = .drive k pins v :: rest' →
    s.params = s'.params → s.draws = s'.draws → s.units[k]? = s'.units[k]? →
    SameOutputs (step s) (step s') ∧
    ∀ t t', step s = .next t → step s' = .next t' →
      t.units[k]? = t'.units[k]? ∧ ∀ j, j ≠ k → t.units[j]? = s.units[j]?
end

