-- ==== Sys2Proof/Laws/Numerics.lean ====
section
/-! SUPPORT. Laws/Numerics.lean: what the integer helpers of the rounding compute: the integer square root, the floor of a
base-2 logarithm, and a magnitude scaled by a power of two as a fraction. -/

namespace Sys2Proof.Machine

open Sys2Proof

/-- The digit recurrence keeps a lower bound and ends within one of the root. -/
theorem isqrtLoop_bounds (n : Nat) : ∀ (k r : Nat), r * r ≤ n → n < (r + 2 ^ k) * (r + 2 ^ k) →
    isqrtLoop n k r * isqrtLoop n k r ≤ n ∧ n < (isqrtLoop n k r + 1) * (isqrtLoop n k r + 1)
  | 0, r, h1, h2 => ⟨h1, by simpa [isqrtLoop] using h2⟩
  | k + 1, r, h1, h2 => by
    unfold isqrtLoop
    split
    · rename_i h
      refine isqrtLoop_bounds n k _ h ?_
      have : r + 2 ^ k + 2 ^ k = r + 2 ^ (k + 1) := by rw [pow_succ]; omega
      rw [this]
      exact h2
    · rename_i h
      exact isqrtLoop_bounds n k _ h1 (by omega)

/-- `isqrt n = ⌊√n⌋` (spec/00_scope.md R10). -/
theorem isqrt_bounds (n : Nat) : isqrt n * isqrt n ≤ n ∧ n < (isqrt n + 1) * (isqrt n + 1) := by
  refine isqrtLoop_bounds n _ 0 (by simp) ?_
  have h := Nat.lt_log2_self (n := n)
  have h2 : 2 ^ (n.log2 + 1) ≤ 2 ^ (n.log2 / 2 + 1) * 2 ^ (n.log2 / 2 + 1) := by
    rw [← pow_add]
    exact Nat.pow_le_pow_right (by norm_num) (by omega)
  simp only [Nat.zero_add]
  omega

theorem isqrt_eq_sqrt (n : Nat) : isqrt n = Nat.sqrt n :=
  Nat.eq_sqrt.mpr ⟨(isqrt_bounds n).1, (isqrt_bounds n).2⟩

/-- A power of two with a natural-number exponent on either side of a fraction is the signed power. -/
theorem two_zpow_toNat (z : Int) : (2 : ℝ) ^ z = (2 : ℝ) ^ z.toNat / (2 : ℝ) ^ (-z).toNat := by
  rcases le_total 0 z with h | h
  · have h1 : (-z).toNat = 0 := by omega
    have h2 : (2 : ℝ) ^ z = (2 : ℝ) ^ ((z.toNat : Nat) : Int) := by rw [Int.toNat_of_nonneg h]
    rw [h1, h2, zpow_natCast, pow_zero, div_one]
  · have h1 : z.toNat = 0 := by omega
    have h2 : (2 : ℝ) ^ z = ((2 : ℝ) ^ (((-z).toNat : Nat) : Int))⁻¹ := by
      rw [Int.toNat_of_nonneg (by omega), ← zpow_neg, neg_neg]
    rw [h1, h2, zpow_natCast, pow_zero, one_div]

/-- A magnitude scaled by `2^k`, as the fraction the machine computes with, is the real number scaled
(spec/40_numerics.md R126). -/
theorem scale_toReal (a : Mag) (k : Int) : ((a.scale k).1 : ℝ) / (a.scale k).2 = a.toReal * (2 : ℝ) ^ k := by
  have h : a.toReal * (2 : ℝ) ^ k = (a.num : ℝ) / a.den * (2 : ℝ) ^ (a.exp + k) := by
    rw [Mag.toReal, zpow_add₀ (by norm_num)]
    ring
  rw [h, two_zpow_toNat]
  simp only [Mag.scale]
  push_cast
  rw [mul_div_mul_comm]

/-- `⌊log2 (n / d)⌋` is Mathlib's integer logarithm of the real quotient. -/
theorem floorLog2Ratio_eq (n d : Nat) (hn : 0 < n) (hd : 0 < d) :
    floorLog2Ratio n d = Int.log 2 ((n : ℝ) / d) := by
  have hq : (0 : ℝ) < (n : ℝ) / d := by positivity
  suffices h : (2 : ℝ) ^ floorLog2Ratio n d ≤ (n : ℝ) / d ∧ (n : ℝ) / d < (2 : ℝ) ^ (floorLog2Ratio n d + 1) by
    apply le_antisymm
    · exact (Int.zpow_le_iff_le_log (by norm_num) hq).mp (by exact_mod_cast h.1)
    · have := (Int.lt_zpow_iff_log_lt (b := 2) (by norm_num) hq (x := floorLog2Ratio n d + 1)).mp (by exact_mod_cast h.2)
      omega
  have hn1 : (2 : ℝ) ^ (n.log2 : Int) ≤ n := by
    rw [zpow_natCast]
    exact_mod_cast Nat.log2_self_le (by omega)
  have hn2 : (n : ℝ) < (2 : ℝ) ^ ((n.log2 : Int) + 1) := by
    have h : n < 2 ^ (n.log2 + 1) := Nat.lt_log2_self
    have e : (2 : ℝ) ^ ((n.log2 : Int) + 1) = (2 : ℝ) ^ (n.log2 + 1) := by rw [← zpow_natCast]; push_cast; rfl
    rw [e]
    exact_mod_cast h
  have hd1 : (2 : ℝ) ^ (d.log2 : Int) ≤ d := by
    rw [zpow_natCast]
    exact_mod_cast Nat.log2_self_le (by omega)
  have hd2 : (d : ℝ) < (2 : ℝ) ^ ((d.log2 : Int) + 1) := by
    have h : d < 2 ^ (d.log2 + 1) := Nat.lt_log2_self
    have e : (2 : ℝ) ^ ((d.log2 : Int) + 1) = (2 : ℝ) ^ (d.log2 + 1) := by rw [← zpow_natCast]; push_cast; rfl
    rw [e]
    exact_mod_cast h
  have hdr : (0 : ℝ) < d := by exact_mod_cast hd
  obtain ⟨g, hg⟩ : ∃ g : Int, g = (n.log2 : Int) - (d.log2 : Int) := ⟨_, rfl⟩
  have upper : (n : ℝ) / d < (2 : ℝ) ^ (g + 1) := by
    rw [div_lt_iff₀ hdr]
    have e : (n.log2 : Int) + 1 = (g + 1) + d.log2 := by omega
    rw [e, zpow_add₀ (by norm_num)] at hn2
    exact lt_of_lt_of_le hn2 (mul_le_mul_of_nonneg_left hd1 (by positivity))
  have lower : (2 : ℝ) ^ (g - 1) ≤ (n : ℝ) / d := by
    rw [le_div_iff₀ hdr]
    have e : (n.log2 : Int) = (g - 1) + (d.log2 + 1) := by omega
    rw [e, zpow_add₀ (by norm_num)] at hn1
    exact le_trans (mul_le_mul_of_nonneg_left hd2.le (by positivity)) hn1
  have test : (if 0 ≤ g then d * 2 ^ g.toNat ≤ n else d ≤ n * 2 ^ (-g).toNat) ↔ (2 : ℝ) ^ g ≤ (n : ℝ) / d := by
    rw [le_div_iff₀ hdr]
    split
    · rename_i h
      have e : (2 : ℝ) ^ g = (2 : ℝ) ^ g.toNat := by rw [← zpow_natCast, Int.toNat_of_nonneg h]
      rw [e, mul_comm]
      norm_cast
    · rename_i h
      have e : (2 : ℝ) ^ g = ((2 : ℝ) ^ (-g).toNat)⁻¹ := by
        rw [← zpow_natCast, Int.toNat_of_nonneg (by omega), ← zpow_neg, neg_neg]
      rw [e, inv_mul_le_iff₀ (by positivity), mul_comm]
      norm_cast
  have value : floorLog2Ratio n d = if (2 : ℝ) ^ g ≤ (n : ℝ) / d then g else g - 1 := by
    simp only [floorLog2Ratio, ← hg]
    by_cases h0 : 0 ≤ g
    · simp only [h0, if_true] at test ⊢
      simp only [test]
    · simp only [h0, if_false] at test ⊢
      simp only [test]
  rw [value]
  split
  · exact ⟨by assumption, upper⟩
  · rename_i h
    exact ⟨lower, by rw [sub_add_cancel]; exact lt_of_not_ge h⟩

end Sys2Proof.Machine
end

