-- ==== Sys2Proof/Laws/State.lean ====
section
/-! SUPPORT. Laws/State.lean: one lemma per field of State for every update of it, true by `rfl`. -/

namespace Sys2Proof.Machine

open Sys2Proof

variable (s : State)

@[simp] theorem put_out (v : Value) : (s.put v).out = .value v := rfl
@[simp] theorem put_params (v : Value) : (s.put v).params = s.params := rfl
@[simp] theorem put_units (v : Value) : (s.put v).units = s.units := rfl
@[simp] theorem put_program (v : Value) : (s.put v).program = s.program := rfl
@[simp] theorem put_draws (v : Value) : (s.put v).draws = s.draws := rfl

@[simp] theorem fail_out (e : ErrorCode) (i : ErrorInfo) : (s.fail e i).out = .raised e i := rfl
@[simp] theorem fail_params (e : ErrorCode) (i : ErrorInfo) : (s.fail e i).params = s.params := rfl
@[simp] theorem fail_units (e : ErrorCode) (i : ErrorInfo) : (s.fail e i).units = s.units := rfl
@[simp] theorem fail_program (e : ErrorCode) (i : ErrorInfo) : (s.fail e i).program = s.program := rfl
@[simp] theorem fail_draws (e : ErrorCode) (i : ErrorInfo) : (s.fail e i).draws = s.draws := rfl

@[simp] theorem drew_out (n : Nat) : (s.drew n).out = s.out := rfl
@[simp] theorem drew_params (n : Nat) : (s.drew n).params = s.params := rfl
@[simp] theorem drew_units (n : Nat) : (s.drew n).units = s.units := rfl
@[simp] theorem drew_program (n : Nat) : (s.drew n).program = s.program := rfl
@[simp] theorem drew_draws (n : Nat) : (s.drew n).draws = s.draws + n := rfl

@[simp] theorem setUnit_out (k : Nat) (u : ClockedUnit) : (s.setUnit k u).out = s.out := rfl
@[simp] theorem setUnit_params (k : Nat) (u : ClockedUnit) : (s.setUnit k u).params = s.params := rfl
@[simp] theorem setUnit_units (k : Nat) (u : ClockedUnit) : (s.setUnit k u).units = s.units.set k u := rfl
@[simp] theorem setUnit_program (k : Nat) (u : ClockedUnit) : (s.setUnit k u).program = s.program := rfl
@[simp] theorem setUnit_draws (k : Nat) (u : ClockedUnit) : (s.setUnit k u).draws = s.draws := rfl

@[simp] theorem addUnit_out (u : ClockedUnit) : (s.addUnit u).out = s.out := rfl
@[simp] theorem addUnit_params (u : ClockedUnit) : (s.addUnit u).params = s.params := rfl
@[simp] theorem addUnit_units (u : ClockedUnit) : (s.addUnit u).units = s.units ++ [u] := rfl
@[simp] theorem addUnit_program (u : ClockedUnit) : (s.addUnit u).program = s.program := rfl
@[simp] theorem addUnit_draws (u : ClockedUnit) : (s.addUnit u).draws = s.draws := rfl

@[simp] theorem dropAction_out : s.dropAction.out = s.out := rfl
@[simp] theorem dropAction_params : s.dropAction.params = s.params := rfl
@[simp] theorem dropAction_units : s.dropAction.units = s.units := rfl
@[simp] theorem dropAction_program : s.dropAction.program = s.program.tail := rfl
@[simp] theorem dropAction_draws : s.dropAction.draws = s.draws := rfl

@[simp] theorem withByteOrder_out (o : ByteOrder) : (s.withByteOrder o).out = s.out := rfl
@[simp] theorem withByteOrder_params (o : ByteOrder) :
    (s.withByteOrder o).params = { s.params with byteOrder := o } := rfl
@[simp] theorem withByteOrder_units (o : ByteOrder) : (s.withByteOrder o).units = s.units := rfl
@[simp] theorem withByteOrder_program (o : ByteOrder) : (s.withByteOrder o).program = s.program := rfl
@[simp] theorem withByteOrder_draws (o : ByteOrder) : (s.withByteOrder o).draws = s.draws := rfl

/-- Updates of different fields commute. -/
theorem put_dropAction (v : Value) : (s.put v).dropAction = s.dropAction.put v := rfl
theorem fail_dropAction (e : ErrorCode) (i : ErrorInfo) : (s.fail e i).dropAction = s.dropAction.fail e i := rfl
theorem drew_dropAction (n : Nat) : (s.drew n).dropAction = s.dropAction.drew n := rfl
theorem put_drew (v : Value) (n : Nat) : (s.put v).drew n = (s.drew n).put v := rfl
theorem put_withByteOrder (v : Value) (o : ByteOrder) : (s.put v).withByteOrder o = (s.withByteOrder o).put v := rfl
theorem fail_withByteOrder (e : ErrorCode) (i : ErrorInfo) (o : ByteOrder) :
    (s.fail e i).withByteOrder o = (s.withByteOrder o).fail e i := rfl
theorem drew_withByteOrder (n : Nat) (o : ByteOrder) : (s.drew n).withByteOrder o = (s.withByteOrder o).drew n := rfl

/-- A state whose oldest action is dropped, written as the statements write it. -/
theorem dropAction_of_program {a : HostAction} {rest : List HostAction} (h : s.program = a :: rest) :
    s.dropAction = { s with program := rest } := by
  simp [State.dropAction, h]

end Sys2Proof.Machine
end

