-- ==== Sys2Proof/Laws/Ops.lean ====
section
/-! SUPPORT. Laws/Ops.lean: what each shared operation can do, once: the guards, the output operations, construction,
the conversions from a double, the reference operators, the adder unit and the clocked units. -/

namespace Sys2Proof.Machine

open Sys2Proof

/-! ### Outputs and guards -/

@[simp] theorem emit_eq (v : Value) (s : State) : emit v s = .next (s.put v) := rfl

@[simp] theorem raise_eq (e : ErrorCode) (i : ErrorInfo) (s : State) : raise e i s = .next (s.fail e i) := rfl

@[simp] theorem refuse_eq (r : Refusal) : refuse r = .refused r := rfl

@[simp] theorem withCodecFormat_of_ok {F : Fmt} {k : StepOutcome} (h : F.codecOk = true) : withCodecFormat F k = k := by
  simp [withCodecFormat, h]

theorem withCodecFormat_cases (F : Fmt) (k : StepOutcome) :
    (F.codecOk = true ∧ withCodecFormat F k = k) ∨ (F.codecOk = false ∧ withCodecFormat F k = .refused .codecFormat) := by
  cases h : F.codecOk <;> simp [withCodecFormat, h]

theorem withCodecWord_of_ok {F : Fmt} {w : Word} {k : StepOutcome} (h : F.codecOk = true) (hw : w.width = F.W) :
    withCodecWord F w k = k := by
  simp [withCodecWord, h, hw]

theorem withCodecWord_cases (F : Fmt) (w : Word) (k : StepOutcome) :
    (F.codecOk = true ∧ w.width = F.W ∧ withCodecWord F w k = k) ∨
    (F.codecOk = false ∧ withCodecWord F w k = .refused .codecFormat) ∨
    (F.codecOk = true ∧ w.width ≠ F.W ∧ withCodecWord F w k = .refused .operandWidth) := by
  cases h : F.codecOk <;> by_cases hw : w.width = F.W <;> simp [withCodecWord, withCodecFormat, h, hw]

@[simp] theorem withUnitFormat_of_ok {F : Fmt} {k : StepOutcome} (h : F.unitOk = true) : withUnitFormat F k = k := by
  simp [withUnitFormat, h]

theorem withUnitFormat_cases (F : Fmt) (k : StepOutcome) :
    (F.unitOk = true ∧ withUnitFormat F k = k) ∨ (F.unitOk = false ∧ withUnitFormat F k = .refused .unitFormat) := by
  cases h : F.unitOk <;> simp [withUnitFormat, h]

theorem withUnitWord_of_ok {F : Fmt} {w : Word} {k : StepOutcome} (h : F.unitOk = true) (hw : w.width = F.W) :
    withUnitWord F w k = k := by
  simp [withUnitWord, h, hw]

theorem withUnitWord_cases (F : Fmt) (w : Word) (k : StepOutcome) :
    (F.unitOk = true ∧ w.width = F.W ∧ withUnitWord F w k = k) ∨
    (F.unitOk = false ∧ withUnitWord F w k = .refused .unitFormat) ∨
    (F.unitOk = true ∧ w.width ≠ F.W ∧ withUnitWord F w k = .refused .operandWidth) := by
  cases h : F.unitOk <;> by_cases hw : w.width = F.W <;> simp [withUnitWord, withUnitFormat, h, hw]

theorem withOutFormat_cases (F G : Fmt) (k : StepOutcome) :
    (G.same F = true ∧ withOutFormat F G k = k) ∨ (G.same F = false ∧ withOutFormat F G k = .refused .outputFormat) := by
  cases h : G.same F <;> simp [withOutFormat, h]

/-! ### Formats -/

theorem unitOk_iff (F : Fmt) : F.unitOk = true ↔ F.variant = .ieee ∧ 2 ≤ F.E ∧ 1 ≤ F.M := by
  simp [Fmt.unitOk, and_assoc]

theorem codecOk_iff (F : Fmt) : F.codecOk = true ↔ 1 ≤ F.E ∧ 1 ≤ F.M := by
  simp [Fmt.codecOk]

theorem codecOk_of_unitOk {F : Fmt} (h : F.unitOk = true) : F.codecOk = true := by
  rw [unitOk_iff] at h
  rw [codecOk_iff]
  omega

theorem same_iff (F G : Fmt) : F.same G = true ↔ F.E = G.E ∧ F.M = G.M ∧ F.variant = G.variant := by
  simp [Fmt.same, and_assoc]

/-! ### Packing and fields -/

@[simp] theorem pack_width (F : Fmt) (s : Bool) (e m : Nat) : (pack F s e m).width = F.W := rfl

/-- The packed number, for fields that fit (spec/30_encoding.md R80). -/
theorem pack_toNat {F : Fmt} {s : Bool} {e m : Nat} (he : e < 2 ^ F.E) (hm : m < 2 ^ F.M) :
    (pack F s e m).toNat = s.toNat * 2 ^ (F.E + F.M) + e * 2 ^ F.M + m := by
  have h1 : (e + 1) * 2 ^ F.M ≤ 2 ^ F.E * 2 ^ F.M := Nat.mul_le_mul_right _ he
  have h2 : 2 ^ F.W = 2 * (2 ^ F.E * 2 ^ F.M) := by
    rw [Fmt.W, ← pow_add]
    ring
  have h3 : 2 ^ (F.E + F.M) = 2 ^ F.E * 2 ^ F.M := pow_add 2 F.E F.M
  simp only [pack, Word.ofNat, Word.toNat, BitVec.toNat_ofNat]
  apply Nat.mod_eq_of_lt
  rw [h2, h3]
  rw [Nat.add_mul] at h1
  cases s <;> simp <;> omega

/-- Cutting the fields from a packed word gives them back (R80, R161). -/
theorem fields_pack {F : Fmt} {s : Bool} {e m : Nat} (he : e < 2 ^ F.E) (hm : m < 2 ^ F.M) :
    fields F (pack F s e m) = ⟨s, e, m⟩ := by
  have hp := pack_toNat (s := s) he hm
  have hsplit : (pack F s e m).toNat = 2 ^ F.M * (s.toNat * 2 ^ F.E + e) + m := by
    rw [hp, pow_add]
    ring
  have hdiv : (pack F s e m).toNat / 2 ^ F.M = s.toNat * 2 ^ F.E + e := by
    rw [hsplit, Nat.mul_add_div (Nat.two_pow_pos _), Nat.div_eq_of_lt hm, Nat.add_zero]
  have htop : (pack F s e m).bit (F.W - 1) = s := by
    have hw : F.W - 1 = F.E + F.M := by simp only [Fmt.W]; omega
    have hb : (pack F s e m).bit (F.W - 1) = (pack F s e m).toNat.testBit (F.E + F.M) := by
      rw [hw]
      rfl
    have hq : (pack F s e m).toNat / 2 ^ (F.E + F.M) = s.toNat := by
      rw [Nat.add_comm F.E F.M, pow_add, ← Nat.div_div_eq_div_mul, hdiv, Nat.mul_comm,
        Nat.mul_add_div (Nat.two_pow_pos _), Nat.div_eq_of_lt he, Nat.add_zero]
    rw [hb, Nat.testBit_eq_decide_div_mod_eq, hq]
    cases s <;> simp
  have hmant : (pack F s e m).toNat % 2 ^ F.M = m := by
    rw [hsplit, Nat.mul_add_mod, Nat.mod_eq_of_lt hm]
  have hexp : (pack F s e m).toNat / 2 ^ F.M % 2 ^ F.E = e := by
    rw [hdiv, Nat.mul_comm, Nat.mul_add_mod, Nat.mod_eq_of_lt he]
  simp only [fields, htop, hmant, hexp]

@[simp] theorem zeroWordOf_width (F : Fmt) (s : Bool) : (zeroWordOf F s).width = F.W := rfl

@[simp] theorem infWordOf_width (F : Fmt) (s : Bool) : (infWordOf F s).width = F.W := rfl

@[simp] theorem defaultNaN_width (F : Fmt) : (defaultNaN F).width = F.W := by
  unfold defaultNaN
  split <;> rfl

@[simp] theorem drawNaN_width (F : Fmt) (c : Nat) : (drawNaN F c).width = F.W := rfl

@[simp] theorem packUnit_width (F : Fmt) (s : Bool) (re K : Nat) : (packUnit F s re K).width = F.W := by
  unfold packUnit
  split
  · rfl
  · split <;> rfl

@[simp] theorem roundAndPack_width (F : Fmt) (s : Bool) (X lsb re : Nat) : (roundAndPack F s X lsb re).width = F.W := by
  unfold roundAndPack
  dsimp only
  split <;> simp

theorem packRounded_width (F : Fmt) (s : Bool) (q : Int) (N : Nat) (o : Word) (h : o.width = F.W) :
    (packRounded F s q N o).width = F.W := by
  unfold packRounded
  dsimp only
  repeat' split
  all_goals first | exact h | rfl

@[simp] theorem rne_width (F : Fmt) (s : Bool) (a : Mag) : (rne F s a).width = F.W := by
  unfold rne
  split
  · rfl
  · exact packRounded_width _ _ _ _ _ rfl

/-! ### Construction and conversion -/

/-- Everything construction can do (spec/41_value_codec.md R160). -/
theorem construct_cases (F : Fmt) (sg e m : Word) (s : State) :
    construct F sg e m s = .refused .emptyGenericField ∨
    construct F sg e m s = .next (s.fail .widthError .signWidth) ∨
    construct F sg e m s = .next (s.fail .widthError .fieldWidthOfNamedFormat) ∨
    (sg.width = 1 ∧
      construct F sg e m s = .next (s.put (.word (pack (.generic e.width m.width) (sg.bit 0) e.toNat m.toNat)))) := by
  unfold construct
  repeat' split
  all_goals simp_all

/-- Everything reading three binary strings can do (R188, R426). -/
theorem fromBinaryStrings_cases (F : Fmt) (S X T : Str) (s : State) :
    fromBinaryStrings F S X T s = .refused .emptyGenericField ∨
    fromBinaryStrings F S X T s = .next (s.fail .malformedInput .notABinaryDigit) ∨
    fromBinaryStrings F S X T s = .next (s.fail .malformedInput .emptyString) ∨
    fromBinaryStrings F S X T s = construct F (binaryWord S) (binaryWord X) (binaryWord T) s := by
  unfold fromBinaryStrings
  repeat' split
  all_goals simp

/-- Everything the end of a FromDouble can do (R180, R185). -/
theorem finishFromDouble_cases (F : Fmt) (rm : RoundingMode) (x : BitVec 64) (s : State) :
    (∃ i, rangeError F x = some i ∧ finishFromDouble F rm x s = .next (s.fail .rangeError i)) ∨
    (rangeError F x = none ∧
      finishFromDouble F rm x s = .next ((s.drew 1).put (.word (fromDouble s.params s.draws F rm x)))) := by
  unfold finishFromDouble
  cases h : rangeError F x <;> simp

/-- Only the two named narrow formats have a RangeError (R185). -/
theorem rangeError_of_other {F : Fmt} (h1 : F ≠ .named .fp8e4m3) (h2 : F ≠ .named .fp8e5m2) (x : BitVec 64) :
    rangeError F x = none := by
  simp [rangeError, h1, h2]

/-- Two operands of one format, or the reason why not (R194). -/
theorem withSameFormat_cases (Fa : Fmt) (a : Word) (Fb : Fmt) (b : Word) (s : State) (k : StepOutcome) :
    (Fa.codecOk = true ∧ Fb.codecOk = true ∧ a.width = Fa.W ∧ b.width = Fb.W ∧ Fa.same Fb = true ∧
      withSameFormat Fa a Fb b s k = k) ∨
    (Fa.same Fb = false ∧ withSameFormat Fa a Fb b s k = .next (s.fail .widthError .formatsDiffer)) ∨
    withSameFormat Fa a Fb b s k = .refused .codecFormat ∨ withSameFormat Fa a Fb b s k = .refused .operandWidth := by
  unfold withSameFormat
  rcases withCodecWord_cases Fa a
    (withCodecWord Fb b (if Fa.same Fb then k else raise .widthError .formatsDiffer s)) with ⟨h1, h2, h⟩ | ⟨_, h⟩ | ⟨_, _, h⟩
  · rcases withCodecWord_cases Fb b (if Fa.same Fb then k else raise .widthError .formatsDiffer s)
      with ⟨g1, g2, g⟩ | ⟨_, g⟩ | ⟨_, _, g⟩
    · cases hs : Fa.same Fb with
      | true => exact .inl ⟨h1, g1, h2, g2, rfl, by rw [hs] at h g; exact h.trans g⟩
      | false => exact .inr (.inl ⟨rfl, by rw [hs] at h g; exact h.trans g⟩)
    · exact .inr (.inr (.inl (h.trans g)))
    · exact .inr (.inr (.inr (h.trans g)))
  · exact .inr (.inr (.inl h))
  · exact .inr (.inr (.inr h))

/-- Everything a reference operator can do once its operands are of one format (R194): RangeError of a named narrow format,
or the binary64 result converted back. -/
theorem reference_cases (op : Params → BitVec 64 → BitVec 64 → BitVec 64) (F : Fmt) (a b : Word) (s : State) :
    (∃ i, rangeError F (referenceDouble op s.params F a b s.draws) = some i ∧
      reference op F a b s = .next ((s.drew 2).fail .rangeError i)) ∨
    (rangeError F (referenceDouble op s.params F a b s.draws) = none ∧
      reference op F a b s = .next ((s.drew 3).put (.word
        (fromDouble s.params (s.draws + 2) F .nearestEven (referenceDouble op s.params F a b s.draws))))) :=
  finishFromDouble_cases F .nearestEven (referenceDouble op s.params F a b s.draws) (s.drew 2)

/-- The canonical NaN is a NaN of FP64, whatever word was chosen (spec/40_numerics.md R124). -/
theorem isNaN_canonNaN_fp64 (p : Params) : isNaN fp64 (canonNaN p fp64) = true := by
  unfold canonNaN
  split
  · decide +kernel
  · dsimp only
    split
    · assumption
    · decide +kernel

/-- The adder unit completes on its admitted forms with its datapath's word, and is refused otherwise (R250, R255). -/
theorem adderUnit_cases (F G : Fmt) (path : AdderPath) (rm : Option (BitVec 3)) (a b : Word) (sub : Bool) (s : State) :
    (F.unitOk = true ∧ a.width = F.W ∧ b.width = F.W ∧ G.same F = true ∧ (rm = none ∨ rm = some 0) ∧
      adderUnit F G path rm a b sub s = .next (s.put (.word (adderSum F path (canonNaN s.params F) a b sub)))) ∨
    ∃ r, adderUnit F G path rm a b sub s = .refused r := by
  unfold adderUnit withUnitWord withUnitFormat withOutFormat
  repeat' split
  all_goals simp_all

/-! ### Clocked units -/

/-- Everything presenting a unit's outputs can do (spec/10_state.md R40). -/
theorem presentOutputs_next {op : Meaning} {k : Nat} {u : ClockedUnit} {s t : State}
    (h : presentOutputs op k u s = .next t) :
    (∃ b, lastSlot u.slots = .bottom b ∧
      t = ((s.setUnit k { u with out := drawOutputs u.cfg.kind s.draws }).drew 1).put (drawOutputs u.cfg.kind s.draws)) ∨
    (∃ j t', lastSlot u.slots = .captured j ∧ op j s = .next t' ∧
      ((∃ v, t'.out = .value v ∧ t = t'.setUnit k { u with out := v }) ∨
        ((∀ v, t'.out ≠ .value v) ∧ t = t'.setUnit k u))) := by
  unfold presentOutputs at h
  cases hl : lastSlot u.slots with
  | bottom b =>
    simp only [hl, emit_eq] at h
    injection h with h
    exact .inl ⟨b, rfl, h.symm⟩
  | captured j =>
    simp only [hl] at h
    cases ho : op j s with
    | next t' =>
      simp only [ho] at h
      refine .inr ⟨j, t', rfl, ho, ?_⟩
      cases hv : t'.out with
      | value v =>
        simp only [hv] at h
        injection h with h
        exact .inl ⟨v, rfl, h.symm⟩
      | raised e i =>
        simp only [hv] at h
        injection h with h
        exact .inr ⟨by simp, h.symm⟩
      | nothing =>
        simp only [hv] at h
        injection h with h
        exact .inr ⟨by simp, h.symm⟩
    | fault f => simp [ho] at h
    | refused r => simp [ho] at h

/-- Everything driving a unit can do (R38, R464). -/
theorem driveUnit_cases (op : Meaning) (k : Nat) (pins : Pins) (i : Instr) (s : State) :
    (s.units[k]? = none ∧ driveUnit op k pins i s = .refused .noSuchUnit) ∨
    (∃ u, s.units[k]? = some u ∧ admitted u.cfg = false ∧ driveUnit op k pins i s = .fault .stuckConfiguration) ∨
    (∃ u, s.units[k]? = some u ∧ admitted u.cfg = true ∧ fits u.cfg.kind i = false ∧
      driveUnit op k pins i s = .refused .portMismatch) ∨
    (∃ u, s.units[k]? = some u ∧ admitted u.cfg = true ∧ fits u.cfg.kind i = true ∧
      driveUnit op k pins i s = clockUnit op k u (clockEvent u.cfg pins) i s) := by
  unfold driveUnit
  cases hu : s.units[k]? with
  | none => simp
  | some u => cases ha : admitted u.cfg <;> cases hf : fits u.cfg.kind i <;> simp [ha, hf]

/-- Everything elaborating a unit can do (R464). -/
theorem elaborateUnit_cases (c : UnitCfg) (s : State) :
    (∃ r, elaborateUnit c s = .refused r) ∨
    (kindFormatsOk c.kind = true ∧ admittedKind c.kind = true ∧ 1 ≤ c.latency ∧
      elaborateUnit c s = .next ((s.addUnit (powerUpUnit c s.draws)).drew 1)) := by
  unfold elaborateUnit
  repeat' split
  all_goals first
    | exact .inl ⟨_, rfl⟩
    | (right; simp_all; omega)

/-- The number of slots stays (R36). -/
theorem clockSlots_length (e : ClockEvent) (i : Instr) (slots : List Slot) (h : slots ≠ []) :
    (clockSlots e i slots).length = slots.length := by
  have : 0 < slots.length := List.length_pos_of_ne_nil h
  cases e with
  | clear => simp [clockSlots]
  | capture => simp [clockSlots]; omega
  | hold => rfl

/-- One action of the host, taken from the front of its queue. -/
theorem step_of_program {s : State} {a : HostAction} {rest : List HostAction} (h : s.program = a :: rest) :
    step s = runAction exec a s.dropAction := by
  simp [step, takeAction, h]

/-- A decoded invocation reaches its continuation; any other is refused (spec/30_encoding.md R105, R106). -/
theorem withDecoded_ok {v : Invocation} {i : Instr} (h : decode v = .ok i) (k : Instr → StepOutcome) :
    withDecoded v k = k i := by
  simp [withDecoded, h]

theorem withDecoded_error {v : Invocation} {e : DecodeError} (h : decode v = .error e) (k : Instr → StepOutcome) :
    withDecoded v k = .refused (decodeRefusal e) := by
  simp [withDecoded, h]

end Sys2Proof.Machine
end

