-- ==== Sys2Proof/Laws/PerInstr.lean ====
section
/-! SUPPORT. Laws/PerInstr.lean: a statement about every instruction as syntax, one lemma per constructor: its selector is
that of a row of spec/30_encoding.md R104. -/

namespace Sys2Proof.Laws.Selector

open Sys2Proof

/-- The instruction's selector has a row (R104), so it is none of the reserved ones (R105). -/
def Statement (i : Instr) : Prop := ∃ read, selectorRow (encode i).op.toNat = some read

theorem fpPack (F : Fmt) (s e m : Word) : Statement (.fpPack F s e m) := ⟨_, rfl⟩
theorem fpFields (F : Fmt) (w : Word) : Statement (.fpFields F w) := ⟨_, rfl⟩
theorem fpIsZero (F : Fmt) (w : Word) : Statement (.fpIsZero F w) := ⟨_, rfl⟩
theorem fpIsNormal (F : Fmt) (w : Word) : Statement (.fpIsNormal F w) := ⟨_, rfl⟩
theorem fpIsSubnormal (F : Fmt) (w : Word) : Statement (.fpIsSubnormal F w) := ⟨_, rfl⟩
theorem fpIsInf (F : Fmt) (w : Word) : Statement (.fpIsInf F w) := ⟨_, rfl⟩
theorem fpIsNaN (F : Fmt) (w : Word) : Statement (.fpIsNaN F w) := ⟨_, rfl⟩
theorem fpCmp (Fa : Fmt) (a : Word) (Fb : Fmt) (b : Word) : Statement (.fpCmp Fa a Fb b) := ⟨_, rfl⟩
theorem constNegZero (F : Fmt) : Statement (.constNegZero F) := ⟨_, rfl⟩
theorem constPosZero (F : Fmt) : Statement (.constPosZero F) := ⟨_, rfl⟩
theorem constMinSub (F : Fmt) : Statement (.constMinSub F) := ⟨_, rfl⟩
theorem constMaxSub (F : Fmt) : Statement (.constMaxSub F) := ⟨_, rfl⟩
theorem constMinNorm (F : Fmt) : Statement (.constMinNorm F) := ⟨_, rfl⟩
theorem constOne (F : Fmt) : Statement (.constOne F) := ⟨_, rfl⟩
theorem constOnePlus (F : Fmt) : Statement (.constOnePlus F) := ⟨_, rfl⟩
theorem constMaxNorm (F : Fmt) : Statement (.constMaxNorm F) := ⟨_, rfl⟩
theorem constInf (F : Fmt) : Statement (.constInf F) := ⟨_, rfl⟩
theorem fpFromDouble (x : BitVec 64) (F : Fmt) (rm : BitVec 3) : Statement (.fpFromDouble x F rm) := ⟨_, rfl⟩
theorem fpToDouble (F : Fmt) (w : Word) : Statement (.fpToDouble F w) := ⟨_, rfl⟩
theorem fpFromInts (F : Fmt) (s e m : SizedNat) : Statement (.fpFromInts F s e m) := ⟨_, rfl⟩
theorem fpFromBitStr (F : Fmt) (S X T : Str) : Statement (.fpFromBitStr F S X T) := ⟨_, rfl⟩
theorem fpFromStr (F : Fmt) (str : Str) : Statement (.fpFromStr F str) := ⟨_, rfl⟩
theorem fpFromRadix (F : Fmt) (str : Str) (r : Nat) : Statement (.fpFromRadix F str r) := ⟨_, rfl⟩
theorem fpToBitStr (F : Fmt) (w : Word) : Statement (.fpToBitStr F w) := ⟨_, rfl⟩
theorem fpToStr (F : Fmt) (w : Word) : Statement (.fpToStr F w) := ⟨_, rfl⟩
theorem refAdd (Fa : Fmt) (a : Word) (Fb : Fmt) (b : Word) : Statement (.refAdd Fa a Fb b) := ⟨_, rfl⟩
theorem refSub (Fa : Fmt) (a : Word) (Fb : Fmt) (b : Word) : Statement (.refSub Fa a Fb b) := ⟨_, rfl⟩
theorem refMul (Fa : Fmt) (a : Word) (Fb : Fmt) (b : Word) : Statement (.refMul Fa a Fb b) := ⟨_, rfl⟩
theorem refDiv (Fa : Fmt) (a : Word) (Fb : Fmt) (b : Word) : Statement (.refDiv Fa a Fb b) := ⟨_, rfl⟩
theorem rndRne (bits : Word) (lsb : Int) : Statement (.rndRne bits lsb) := ⟨_, rfl⟩
theorem fadd (F outF : Fmt) (path : AdderPath) (rm : Option (BitVec 3)) (a b : Word) :
    Statement (.fadd F outF path rm a b) := ⟨_, rfl⟩
theorem fsub (F outF : Fmt) (path : AdderPath) (rm : Option (BitVec 3)) (a b : Word) :
    Statement (.fsub F outF path rm a b) := ⟨_, rfl⟩
theorem fmul (F outF : Fmt) (a b : Word) :
    Statement (.fmul F outF a b) := ⟨_, rfl⟩
theorem fcvt (Fs Fd : Fmt) (a : Word) : Statement (.fcvt Fs Fd a) := ⟨_, rfl⟩
theorem fsqrt (u : SqrtUnit) (a : Word) : Statement (.fsqrt u a) := ⟨_, rfl⟩

end Sys2Proof.Laws.Selector
end

