-- ==== Sys2Proof/Tests/Slice0.lean ====
section
/-! SUPPORT. Tests/Slice0.lean: the model against the spec's own vectors (spec/95_test_vectors.md and the examples of the
rules), the selector bytes of 30_encoding.md R104, ill-formed terms, and a witness for the hypotheses of each
statement. -/

namespace Sys2Proof.Tests

set_option Elab.async false

open Sys2Proof Sys2Proof.Machine

/-- The outputs a step or an operation leaves. -/
def outOf : StepOutcome → Option Out
  | .next t => some t.out
  | _ => none

/-- The word an operation puts on its outputs, from the reset state. -/
def wordOf (i : Instr) : Option Nat :=
  match outOf (exec i State.reset) with
  | some (.value (.word w)) => some w.toNat
  | _ => none

/-- The value an operation puts on its outputs, from the reset state. -/
def valueOf (i : Instr) : Option Value :=
  match outOf (exec i State.reset) with
  | some (.value v) => some v
  | _ => none

/-- The error an operation raises, from the reset state. -/
def errorOf (i : Instr) : Option ErrorCode :=
  match outOf (exec i State.reset) with
  | some (.raised e _) => some e
  | _ => none

/-- The square root's pair, from the reset state. -/
def rootOf (i : Instr) : Option (Nat × Bool) :=
  match outOf (exec i State.reset) with
  | some (.value (.root w e)) => some (w.toNat, e)
  | _ => none

def refusalOf : StepOutcome → Option Refusal
  | .refused r => some r
  | _ => none

abbrev e34 : Fmt := .generic 3 4
abbrev fp8 : Fmt := .named .fp8e4m3
abbrev e5m2 : Fmt := .named .fp8e5m2
abbrev fp16 : Fmt := .named .fp16
/-- Square root units with SQRT_SUBNORMAL at its default. -/
abbrev sq32 : SqrtUnit := { F := fp32 }
abbrev sq8 : SqrtUnit := { F := fp8 }
abbrev w8 (n : Nat) : Word := Word.ofNat 8 n
abbrev w16 (n : Nat) : Word := Word.ofNat 16 n
abbrev w32 (n : Nat) : Word := Word.ofNat 32 n
abbrev w64 (n : Nat) : Word := Word.ofNat 64 n

/-! ### Ill-formed terms are refused by WellFormed -/

theorem test_illFormed_codecWidth : WellFormed (.fpIsZero fp32 (w8 0)) = false := by decide
theorem test_illFormed_codecFormat : WellFormed (.constOne (.generic 0 4)) = false := by decide
theorem test_illFormed_codecMantissa : WellFormed (.fpFromDouble 0 (.generic 4 0) 0) = false := by decide
theorem test_illFormed_secondOperand : WellFormed (.fpCmp fp32 (w32 0) fp16 (w32 0)) = false := by decide
theorem test_illFormed_unitVariant : WellFormed (.fadd fp8 fp8 .dual none (w8 0) (w8 0)) = false := by decide
theorem test_illFormed_unitExponent :
    WellFormed (.fmul (.generic 1 3) (.generic 1 3) (Word.ofNat 5 0) (Word.ofNat 5 0)) = false := by decide
theorem test_illFormed_unitWidth : WellFormed (.fsqrt sq32 (w16 0)) = false := by decide
theorem test_illFormed_destination : WellFormed (.fcvt fp32 fp8 (w32 0)) = false := by decide
theorem test_illFormed_emptyVector : WellFormed (.rndRne (Word.ofNat 0 0) 0) = false := by decide
theorem test_wellFormed_adder : WellFormed (.fadd fp32 fp32 .dual none (w32 0) (w32 0)) = true := by decide

/-! ### Every selector byte of R104, written out, with its row's operands (and the model's additions of logs 17 and 19) -/

section Decoding

variable (F G : Fmt) (a b c : Word) (S X T : Str) (m n k : SizedNat) (p : AdderPath) (r : Option (BitVec 3))

theorem test_decode_pack : decode ⟨0b00000001, [.fmt F, .word a, .word b, .word c]⟩ = .ok (.fpPack F a b c) := rfl
theorem test_decode_fields : decode ⟨0b00000010, [.fmt F, .word a]⟩ = .ok (.fpFields F a) := rfl
theorem test_decode_isZero : decode ⟨0b00000011, [.fmt F, .word a]⟩ = .ok (.fpIsZero F a) := rfl
theorem test_decode_isNormal : decode ⟨0b00000100, [.fmt F, .word a]⟩ = .ok (.fpIsNormal F a) := rfl
theorem test_decode_isSubnormal : decode ⟨0b00000101, [.fmt F, .word a]⟩ = .ok (.fpIsSubnormal F a) := rfl
theorem test_decode_isInf : decode ⟨0b00000110, [.fmt F, .word a]⟩ = .ok (.fpIsInf F a) := rfl
theorem test_decode_isNaN : decode ⟨0b00000111, [.fmt F, .word a]⟩ = .ok (.fpIsNaN F a) := rfl
theorem test_decode_cmp : decode ⟨0b00001000, [.fmt F, .word a, .fmt G, .word b]⟩ = .ok (.fpCmp F a G b) := rfl
theorem test_decode_negZero : decode ⟨0b00010000, [.fmt F]⟩ = .ok (.constNegZero F) := rfl
theorem test_decode_posZero : decode ⟨0b00010001, [.fmt F]⟩ = .ok (.constPosZero F) := rfl
theorem test_decode_minSub : decode ⟨0b00010010, [.fmt F]⟩ = .ok (.constMinSub F) := rfl
theorem test_decode_maxSub : decode ⟨0b00010011, [.fmt F]⟩ = .ok (.constMaxSub F) := rfl
theorem test_decode_minNorm : decode ⟨0b00010100, [.fmt F]⟩ = .ok (.constMinNorm F) := rfl
theorem test_decode_one : decode ⟨0b00010101, [.fmt F]⟩ = .ok (.constOne F) := rfl
theorem test_decode_onePlus : decode ⟨0b00010110, [.fmt F]⟩ = .ok (.constOnePlus F) := rfl
theorem test_decode_maxNorm : decode ⟨0b00010111, [.fmt F]⟩ = .ok (.constMaxNorm F) := rfl
theorem test_decode_inf : decode ⟨0b00011000, [.fmt F]⟩ = .ok (.constInf F) := rfl
theorem test_decode_fromDouble (x : BitVec 64) (rm : BitVec 3) :
    decode ⟨0b00100000, [.double x, .fmt F, .rm (some rm)]⟩ = .ok (.fpFromDouble x F rm) := rfl
theorem test_decode_toDouble : decode ⟨0b00100001, [.fmt F, .word a]⟩ = .ok (.fpToDouble F a) := rfl
theorem test_decode_fromInts :
    decode ⟨0b00100010, [.fmt F, .sized m, .sized n, .sized k]⟩ = .ok (.fpFromInts F m n k) := rfl
theorem test_decode_fromBitStr :
    decode ⟨0b00100011, [.fmt F, .str S, .str X, .str T]⟩ = .ok (.fpFromBitStr F S X T) := rfl
theorem test_decode_fromStr : decode ⟨0b00100100, [.fmt F, .str S]⟩ = .ok (.fpFromStr F S) := rfl
theorem test_decode_fromRadix (q : Nat) : decode ⟨0b00100101, [.fmt F, .str S, .nat q]⟩ = .ok (.fpFromRadix F S q) := rfl
theorem test_decode_toBitStr : decode ⟨0b00100110, [.fmt F, .word a]⟩ = .ok (.fpToBitStr F a) := rfl
theorem test_decode_toStr : decode ⟨0b00100111, [.fmt F, .word a]⟩ = .ok (.fpToStr F a) := rfl
theorem test_decode_refAdd : decode ⟨0b00101000, [.fmt F, .word a, .fmt G, .word b]⟩ = .ok (.refAdd F a G b) := rfl
theorem test_decode_refSub : decode ⟨0b00101001, [.fmt F, .word a, .fmt G, .word b]⟩ = .ok (.refSub F a G b) := rfl
theorem test_decode_refMul : decode ⟨0b00101010, [.fmt F, .word a, .fmt G, .word b]⟩ = .ok (.refMul F a G b) := rfl
theorem test_decode_refDiv : decode ⟨0b00101011, [.fmt F, .word a, .fmt G, .word b]⟩ = .ok (.refDiv F a G b) := rfl
theorem test_decode_rne (z : Int) : decode ⟨0b00110000, [.word a, .int z]⟩ = .ok (.rndRne a z) := rfl
theorem test_decode_fadd :
    decode ⟨0b01000000, [.fmt F, .fmt G, .path p, .rm r, .word a, .word b]⟩ = .ok (.fadd F G p r a b) := rfl
theorem test_decode_fsub :
    decode ⟨0b01000001, [.fmt F, .fmt G, .path p, .rm r, .word a, .word b]⟩ = .ok (.fsub F G p r a b) := rfl
theorem test_decode_fmul : decode ⟨0b01010000, [.fmt F, .fmt G, .word a, .word b]⟩ = .ok (.fmul F G a b) := rfl
theorem test_decode_fcvt : decode ⟨0b01100000, [.fmt F, .fmt G, .word a]⟩ = .ok (.fcvt F G a) := rfl
theorem test_decode_fsqrt (x : SqrtSubnormal) :
    decode ⟨0b01110000, [.fmt F, .sqrtSub x, .word a]⟩ = .ok (.fsqrt ⟨F, x⟩ a) := rfl

end Decoding

/-- 95 section 3.8: reserved selectors. -/
theorem test_decode_reserved : [0x00, 0x09, 0x42, 0xFF].all (fun n => (decodeTableWord 8 n).isNone) = true := by decide

/-- Operands that are not those of the row are rejected by name. -/
theorem test_decode_shape : decode ⟨0x70, [.word (w32 0)]⟩ = .error (.operandShape 0x70) := rfl

/-! ### Value codec (95 sections 1 and 3.2) -/

theorem test_pack_one : wordOf (.fpPack fp32 (Word.ofNat 1 0) (w8 127) (Word.ofNat 23 0)) = some 0x3F800000 := by
  decide +kernel
theorem test_pack_width : errorOf (.fpPack fp32 (Word.ofNat 1 0) (Word.ofNat 7 127) (Word.ofNat 23 0)) =
    some .widthError := by decide +kernel
theorem test_fields : valueOf (.fpFields fp32 (w32 0xC0490FDB)) =
    some (.fields (Word.ofNat 1 1) (w8 0x80) (Word.ofNat 23 0x490FDB)) := by decide +kernel
theorem test_fields_signed : valueOf (.fpFields fp32 (w32 0xC0800000)) =
    some (.fields (Word.ofNat 1 1) (w8 0x81) (Word.ofNat 23 0)) := by decide +kernel
theorem test_isZero_negative : valueOf (.fpIsZero fp32 (w32 0x80000000)) = some (.bit true) := by decide +kernel
theorem test_isNormal_e4m3 : valueOf (.fpIsNormal fp8 (w8 0x7E)) = some (.bit true) := by decide +kernel
theorem test_isNormal_largestSubnormal : valueOf (.fpIsNormal fp32 (w32 0x007FFFFF)) = some (.bit false) := by
  decide +kernel
theorem test_isSubnormal : valueOf (.fpIsSubnormal fp32 (w32 1)) = some (.bit true) := by decide +kernel
theorem test_isInf : valueOf (.fpIsInf fp32 (w32 0xFF800000)) = some (.bit true) := by decide +kernel
theorem test_isInf_e4m3 : valueOf (.fpIsInf fp8 (w8 0x78)) = some (.bit false) := by decide +kernel
theorem test_isNaN_e4m3 : valueOf (.fpIsNaN fp8 (w8 0xFF)) = some (.bit true) := by decide +kernel
theorem test_isNaN_bare43 : valueOf (.fpIsNaN (.generic 4 3) (w8 0x7E)) = some (.bit true) := by decide +kernel
theorem test_cmp_rawBits : valueOf (.fpCmp fp32 (w32 0x3F800000) fp32 (w32 0xBF800000)) = some (.order (-1)) := by
  decide +kernel
theorem test_cmp_widths : errorOf (.fpCmp fp32 (w32 0) fp16 (w16 0)) = some .widthError := by decide +kernel

/-- The constants of FP32, E3M4 and FP8-E4M3, in the order of 95 section 3.2. -/
theorem test_const_negZero : [fp32, e34, fp8].map (fun F => wordOf (.constNegZero F)) =
    [some 0x80000000, some 0x80, some 0x80] := by decide +kernel
theorem test_const_posZero : [fp32, e34, fp8].map (fun F => wordOf (.constPosZero F)) =
    [some 0, some 0, some 0] := by decide +kernel
theorem test_const_minSub : [fp32, e34, fp8].map (fun F => wordOf (.constMinSub F)) =
    [some 1, some 1, some 1] := by decide +kernel
theorem test_const_maxSub : [fp32, e34, fp8].map (fun F => wordOf (.constMaxSub F)) =
    [some 0x007FFFFF, some 0x0F, some 0x07] := by decide +kernel
theorem test_const_minNorm : [fp32, e34, .generic 2 1].map (fun F => wordOf (.constMinNorm F)) =
    [some 0x00800000, some 0x10, some 2] := by decide +kernel
theorem test_const_one : [fp32, e34, fp8].map (fun F => wordOf (.constOne F)) =
    [some 0x3F800000, some 0x30, some 0x38] := by decide +kernel
theorem test_const_onePlus : [fp32, e34, fp8].map (fun F => wordOf (.constOnePlus F)) =
    [some 0x3F800001, some 0x31, some 0x39] := by decide +kernel
theorem test_const_maxNorm : [fp32, e34, fp8].map (fun F => wordOf (.constMaxNorm F)) =
    [some 0x7F7FFFFF, some 0x6F, some 0x7E] := by decide +kernel
theorem test_const_inf : [fp32, e34, fp8].map (fun F => wordOf (.constInf F)) =
    [some 0x7F800000, some 0x70, none] := by decide +kernel
theorem test_const_one_E1 : refusalOf (exec (.constOne (.generic 1 2)) State.reset) = some .constantNeedsNormal := by
  decide +kernel

theorem test_fromDouble_overflow : wordOf (.fpFromDouble 0xC6293E5939A08CEA e34 0) = some 0xF0 := by decide +kernel
theorem test_fromDouble_truncate : wordOf (.fpFromDouble 0x3FFF800000000000 e34 1) = some 0x3F := by decide +kernel
theorem test_toDouble_subnormal : valueOf (.fpToDouble fp32 (w32 1)) = some (.double 0x36A0000000000000) := by
  decide +kernel
theorem test_toDouble_e4m3 : valueOf (.fpToDouble fp8 (w8 0x7E)) = some (.double 0x407C000000000000) := by
  decide +kernel
theorem test_fromInts_tooBig : errorOf (.fpFromInts fp32 ⟨1, 0⟩ ⟨8, 256⟩ ⟨23, 0⟩) = some .widthError := by decide +kernel
theorem test_fromInts_one : wordOf (.fpFromInts fp32 ⟨1, 0⟩ ⟨8, 127⟩ ⟨23, 0⟩) = some 0x3F800000 := by decide +kernel
theorem test_fromBitStr_malformed :
    errorOf (.fpFromBitStr fp32 "0".toList "0111111x".toList (zeroChars 23)) = some .malformedInput := by decide +kernel
theorem test_fromBitStr_width :
    errorOf (.fpFromBitStr fp32 "0".toList "0111111".toList (zeroChars 23)) = some .widthError := by decide +kernel
theorem test_fromStr_nan : wordOf (.fpFromStr fp8 "0 1111 111".toList) = some 0x7F := by decide +kernel
theorem test_fromStr_twoSpaces : errorOf (.fpFromStr fp8 "0  1111 111".toList) = some .malformedInput := by
  decide +kernel
theorem test_fromRadix_upperCase : wordOf (.fpFromRadix fp32 "3F800000".toList 16) = some 0x3F800000 := by
  decide +kernel
theorem test_fromRadix_tooWide : errorOf (.fpFromRadix fp32 "1ffffffff".toList 16) = some .widthError := by
  decide +kernel
theorem test_toBitStr : valueOf (.fpToBitStr e34 (w8 0x30)) =
    some (.strings "0".toList "011".toList "0000".toList) := by decide +kernel
theorem test_toStr : valueOf (.fpToStr fp16 (w16 0x4380)) = some (.string "0 10000 1110000000".toList) := by
  decide +kernel

/-! ### Reference operators (95 section 3.2) -/

theorem test_refAdd : wordOf (.refAdd fp32 (w32 0x3FC00000) fp32 (w32 0x40100000)) = some 0x40700000 := by
  decide +kernel
/-- At (11, 51) the reference rounds twice, and the adder once. -/
theorem test_refAdd_twice : (wordOf (.refAdd (.generic 11 51) (Word.ofNat 63 0x1FBB988EC2CE6F44) (.generic 11 51)
      (Word.ofNat 63 0x1FA30973A6CECC1B)), wordOf (.fadd (.generic 11 51) (.generic 11 51) .dual none
      (Word.ofNat 63 0x1FBB988EC2CE6F44) (Word.ofNat 63 0x1FA30973A6CECC1B))) =
    (some 0x1FBCF9BD37A848C8, some 0x1FBCF9BD37A848C7) := by decide +kernel
/-- `∞ - ∞` at FP64 is the canonical NaN (40_numerics.md R124), as is an operation on a NaN with another payload. -/
theorem test_refSub_fp64NaN : [0x7FF0000000000000, 0xFFF0000000000001].map
    (fun a => wordOf (.refSub fp64 (w64 a) fp64 (w64 0x7FF0000000000000))) =
    [some 0x7FF8000000000000, some 0x7FF8000000000000] := by decide +kernel
theorem test_refSub : wordOf (.refSub fp32 (w32 0x3F800000) fp32 (w32 0x3F800000)) = some 0 := by decide +kernel
theorem test_refMul : wordOf (.refMul fp32 (w32 0x3FC00000) fp32 (w32 0x40100000)) = some 0x40580000 := by
  decide +kernel
theorem test_refDiv_third : wordOf (.refDiv fp32 (w32 0x3F800000) fp32 (w32 0x40400000)) = some 0x3EAAAAAB := by
  decide +kernel
theorem test_refDiv_zeroByZero : wordOf (.refDiv fp32 (w32 0) fp32 (w32 0)) = some 0x7FC00000 := by decide +kernel

/-! ### Rounding primitive (95 section 3.1) -/

theorem test_rne_ties : [(0b1010, 4, 2), (0b1110, 4, 2), (0b10100, 5, 3), (0b11, 2, 1), (0b01, 2, 1)].map
    (fun (v, n, l) => valueOf (.rndRne (Word.ofNat n v) l)) =
    [some (.bit false), some (.bit true), some (.bit false), some (.bit true), some (.bit false)] := by decide +kernel
theorem test_rne_sticky_and_bounds : [(0b10101, 5, 3), (0b10011, 5, 3), (1, 1, 0), (0b1010, 4, 4)].map
    (fun (v, n, l) => valueOf (.rndRne (Word.ofNat n v) l)) =
    [some (.bit true), some (.bit false), some (.bit false), none] := by decide +kernel

/-! ### Units (95 sections 3.3 to 3.6) -/

/-- E3M4 sums on both paths: the carry, the lost leading one, the clamp to a subnormal, and 0x80 + 0x00. -/
theorem test_fadd_e34 : [AdderPath.dual, .single].map (fun p =>
      [(0x3F, 0x20), (0x3F, 0x03), (0x0F, 0x01), (0x80, 0x00), (0x70, 0xF0)].map
        (fun (a, b) => wordOf (.fadd e34 e34 p none (w8 a) (w8 b)))) =
    [[some 0x44, some 0x40, some 0x10, some 0x00, some 0x78], [some 0x44, some 0x40, some 0x10, some 0x00, some 0x78]] := by
  decide +kernel
theorem test_fadd_fp32 : [(0x3FC00000, 0x40100000), (0x4B800000, 0x3F800000), (0x7F7FFFFF, 0x73000000),
      (0x3F800000, 0x33800001)].map (fun (a, b) => wordOf (.fadd fp32 fp32 .dual none (w32 a) (w32 b))) =
    [some 0x40700000, some 0x4B800000, some 0x7F800000, some 0x3F800001] := by decide +kernel
theorem test_fsub_e34 : [AdderPath.dual, .single].map (fun p =>
      [(0x40, 0x01), (0x31, 0x30), (0x30, 0x31), (0x30, 0x2F), (0x80, 0x00)].map
        (fun (a, b) => wordOf (.fsub e34 e34 p none (w8 a) (w8 b)))) =
    [[some 0x40, some 0x04, some 0x84, some 0x02, some 0x80], [some 0x40, some 0x04, some 0x84, some 0x02, some 0x80]] := by
  decide +kernel
theorem test_fsub_fp32 : [(0x3F800001, 0x3F800000), (0x3F800000, 0x337FFFFF), (0x00800000, 0x00000001)].map
      (fun (a, b) => wordOf (.fsub fp32 fp32 .dual none (w32 a) (w32 b))) =
    [some 0x34000000, some 0x3F7FFFFF, some 0x007FFFFF] := by decide +kernel
theorem test_fmul_e34 : [(0x3F, 0x3F), (0x6F, 0x4F), (0x1F, 0x17), (0x01, 0x40), (0x00, 0xF0), (0x80, 0x30)].map
      (fun (a, b) => wordOf (.fmul e34 e34 (w8 a) (w8 b))) =
    [some 0x4E, some 0x70, some 0x0B, some 0x02, some 0x78, some 0x80] := by decide +kernel
theorem test_fmul_fp32 : [(0x00000001, 0x3F000000), (0x00000001, 0x3F400000), (0xC0000000, 0x40400000)].map
      (fun (a, b) => wordOf (.fmul fp32 fp32 (w32 a) (w32 b))) =
    [some 0, some 1, some 0xC0C00000] := by decide +kernel
theorem test_fcvt_narrow : [0x3FF0000010000000, 0x3FF0000010000001, 0x47EFFFFFF0000000, 0x3690000000000000].map
      (fun a => wordOf (.fcvt fp64 fp32 (w64 a))) =
    [some 0x3F800000, some 0x3F800001, some 0x7F800000, some 0] := by decide +kernel
theorem test_fcvt_small : [(e34, Fmt.generic 5 2, 0x01), (.generic 4 3, .generic 5 2, 0x3B), (e34, .generic 5 2, 0x7F)].map
      (fun (Fs, Fd, a) => wordOf (.fcvt Fs Fd (w8 a))) = [some 0x24, some 0x3E, some 0x7E] := by decide +kernel
theorem test_fsqrt_values : [0x40000000, 0x00000001, 0x80000000, 0xFF800000, 0xC0800000, 0xFFC00000, 0x80000001].map
      (fun a => rootOf (.fsqrt sq32 (w32 a))) =
    [some (0x3FB504F3, false), some (0x1A3504F3, false), some (0x80000000, false), some (0xFF800000, true),
      some (0x7FC00000, true), some (0x7FC00000, false), some (0x7FC00000, true)] := by decide +kernel
/-- Units that differ in SQRT_SUBNORMAL (46_sqrt.md R383): only the positive subnormal tells them apart. -/
theorem test_fsqrt_units : [SqrtSubnormal.rounded, .passthrough, .flagged].map
      (fun x => (rootOf (.fsqrt ⟨e34, x⟩ (w8 0x01)), rootOf (.fsqrt ⟨e34, x⟩ (w8 0x10)))) =
    [(some (0x08, false), some (0x20, false)), (some (0x01, false), some (0x20, false)),
      (some (0x78, true), some (0x20, false))] := by decide +kernel

/-- 95 section 3.8; and an empty generic field, refused before the malformed character (R426). -/
theorem test_refusals : [exec (.fadd fp8 fp8 .dual none (w8 0) (w8 0)) State.reset,
      exec (.fmul (.generic 1 3) (.generic 1 3) (Word.ofNat 5 0) (Word.ofNat 5 0)) State.reset,
      exec (.fcvt fp32 fp8 (w32 0)) State.reset, exec (.constInf fp8) State.reset,
      exec (.fpFromRadix fp32 "0".toList 36) State.reset,
      exec (.fpFromBitStr e34 "0".toList "x".toList []) State.reset].map refusalOf =
    [some .unitFormat, some .unitFormat, some .unitFormat, some .noInfinity, some .radix, some .emptyGenericField] := by decide +kernel

/-! ### Clocked units (95 program P2) -/

/-- P2's adder. -/
def p2 : UnitCfg := ⟨.adder fp32 fp32 .dual false true, true, true, 2, .sync⟩

def p2Input (sub : Bool) (a b : Nat) : Instr :=
  if sub then .fsub fp32 fp32 .dual none (w32 a) (w32 b) else .fadd fp32 fp32 .dual none (w32 a) (w32 b)

/-- A state with one unit and a queue. -/
def oneUnit (u : ClockedUnit) (q : List HostAction) : State := { State.reset with units := [u], program := q }

/-- P2 after edge 2 (x1 in slot 1), driven as `act` says. -/
def afterEdge2 (act : HostAction) : State :=
  oneUnit ⟨p2, [.captured (p2Input false 0x3FC00000 0x40100000), .bottom .unknown], .word (w32 0)⟩ [act]

/-- Edge 3 delivers x1's sum. -/
theorem test_clocked_deliver :
    outOf (step (afterEdge2 (.drive 0 ⟨true, true, false⟩ (encode (p2Input false 0x4B800000 0x3F800000))))) =
      some (.value (.word (w32 0x40700000))) := by decide +kernel

/-- With en = 0 nothing moves and the outputs hold. -/
theorem test_clocked_hold :
    outOf (step (afterEdge2 (.drive 0 ⟨true, false, false⟩ (encode (p2Input false 0 0))))) =
      some (.value (.word (w32 0))) := by decide +kernel

/-- The slots of the first unit after a step. -/
def slotsOf (o : StepOutcome) : Option (List Slot) :=
  match o with
  | .next t => (t.units[0]?).map ClockedUnit.slots
  | _ => none

/-- A reset at a rising edge wins over the enable and discards x1 (edge 7). -/
theorem test_clocked_reset :
    slotsOf (step (afterEdge2 (.drive 0 ⟨true, true, true⟩ (encode (p2Input true 0x40000000 0x3F800000))))) =
      some [.bottom .zeros, .bottom .zeros] := by decide +kernel

theorem test_elaborate : slotsOf (step { State.reset with program := [.elaborate p2] }) =
    some [.bottom .unknown, .bottom .unknown] := by decide +kernel

/-- Every selector of the table runs as the first instruction after reset. -/
theorem test_table_runs : [0x01, 0x02, 0x03, 0x04, 0x05, 0x06, 0x07, 0x08, 0x10, 0x11, 0x12, 0x13, 0x14, 0x15, 0x16, 0x17,
      0x18, 0x20, 0x21, 0x22, 0x23, 0x24, 0x25, 0x26, 0x27, 0x28, 0x29, 0x2A, 0x2B, 0x30, 0x40, 0x41, 0x50, 0x60, 0x70].all
    (fun w => (outOf (step (State.reset.withFetchWord 8 w))).isSome) = true := by decide +kernel

/-! ### Witnesses: states and operands that meet the hypotheses of the statements

Each theorem is named after the statement whose hypotheses it meets. -/

/-- A state with a queue and no unit. -/
def queue (q : List HostAction) : State := { State.reset with program := q }

/-- An E3M4 adder of one stage, as elaboration leaves it. -/
def adder1 : UnitCfg := ⟨.adder e34 e34 .dual false false, true, true, 1, .sync⟩

def add34 (a b : Nat) : Instr := .fadd e34 e34 .dual none (w8 a) (w8 b)

/-- The one-stage adder, empty, driven by a rising edge. -/
def edge1 (en reset : Bool) : State :=
  oneUnit ⟨adder1, [.bottom .unknown], .word (w8 0)⟩ [.drive 0 ⟨true, en, reset⟩ (encode (add34 0x30 0x30))]

/-- A unit of a refused configuration (FP8-E4M3), driven. -/
def stuckState : State :=
  oneUnit ⟨⟨.squareRoot sq8, false, false, 1, .sync⟩, [.bottom .unknown], .root (w8 0) false⟩
    [.drive 0 ⟨true, true, false⟩ (encode (.fsqrt sq8 (w8 0)))]

/-- The exact value of a finite word, from its fields. -/
theorem realValue_of_fields {F : Fmt} {w : Word} {s : Bool} {e m : Nat} (h : fields F w = ⟨s, e, m⟩) :
    realValue F w = (if s then -1 else 1) *
      (if e ≠ 0 then (2 : ℝ) ^ ((e : ℤ) - F.bias) * (1 + (m : ℝ) / 2 ^ F.M)
       else (2 : ℝ) ^ F.emin * ((m : ℝ) / 2 ^ F.M)) := by
  simp [realValue, signOf, h]

theorem witness_DecodeAndEncodeAgree : decode ⟨0x70, [.fmt fp32, .sqrtSub .flagged, .word (w32 0)]⟩ =
    .ok (.fsqrt ⟨fp32, .flagged⟩ (w32 0)) := rfl

theorem witness_ReservedSelectorsAreRefused :
    (queue [.invoke ⟨0xFF, []⟩]).program = .invoke ⟨0xFF, []⟩ :: [] ∧
    (∀ n ∈ [0x00, 0x09, 0x0F, 0x19, 0x1F, 0x2C, 0x2F, 0x31, 0x3F, 0x42, 0x4F, 0x51, 0x5F, 0x61, 0x6F, 0x71, 0xFF],
      reservedSelector n) ∧
    (∀ n ∈ [0x01, 0x08, 0x10, 0x18, 0x20, 0x2B, 0x30, 0x40, 0x41, 0x50, 0x60, 0x70], ¬ reservedSelector n) := by
  refine ⟨rfl, ?_, ?_⟩ <;> (unfold reservedSelector; decide)

theorem witness_StepRunsTheDecodedInstruction :
    ((queue [.invoke (encode (.constOne fp32))]).program = .invoke (encode (.constOne fp32)) :: [] ∧
      decode (encode (.constOne fp32)) = .ok (.constOne fp32)) ∧
    (edge1 true false).program = .drive 0 ⟨true, true, false⟩ (encode (add34 0x30 0x30)) :: [] ∧
    (queue [.elaborate adder1]).program = .elaborate adder1 :: [] ∧ (queue []).program = [] :=
  ⟨⟨rfl, rfl⟩, rfl, rfl, rfl⟩

theorem witness_OperationsChangeOnlyTheOutputs :
    (∃ t, exec (.constOne fp32) State.reset = .next t) ∧ usesDraws (.constOne fp32) = false := ⟨⟨_, rfl⟩, rfl⟩

theorem witness_ParametersNeverChange : ∃ t u, step (edge1 true false) = .next t ∧ (edge1 true false).units[0]? = some u :=
  ⟨_, _, rfl, rfl⟩

theorem witness_OutputsDependOnInputsAndParametersOnly :
    (State.reset.put (.bit true)).params = State.reset.params ∧
    (State.reset.put (.bit true)).draws = State.reset.draws ∧ usesDraws (.fpToDouble fp32 (w32 0)) = true ∧
    (State.reset.drew 1).params = State.reset.params ∧ usesDraws (.fsqrt sq32 (w32 0)) = false := by decide

theorem witness_OnlyRefusedConfigurationsAreStuck :
    step stuckState = .fault .stuckConfiguration ∧
    stuckState.program = .drive 0 ⟨true, true, false⟩ (encode (.fsqrt sq8 (w8 0))) :: [] ∧
    (∃ u, stuckState.units[0]? = some u ∧ admitted u.cfg = false) ∧ StagesOk (edge1 true false) :=
  ⟨rfl, rfl, ⟨_, rfl, by decide⟩, by unfold StagesOk; decide⟩

theorem witness_EveryStepKeepsTheStageInvariant : StagesOk (edge1 true false) ∧ ∃ t, step (edge1 true false) = .next t :=
  ⟨by unfold StagesOk; decide, _, rfl⟩

theorem witness_PackFollowsItsRule :
    (e34.isGeneric = true ∧ (Word.ofNat 0 0).width = 0) ∧
    (¬ (fp32.isGeneric = true ∧ ((w8 0).width = 0 ∨ (Word.ofNat 23 0).width = 0)) ∧ (Word.ofNat 2 0).width ≠ 1) ∧
    (fp32.isGeneric = false ∧ (Word.ofNat 1 0).width = 1 ∧ (Word.ofNat 7 0).width ≠ fp32.E) ∧
    (fp32.isGeneric = false ∧ (w8 255).width = fp32.E ∧ (Word.ofNat 23 0).width = fp32.M) ∧
    (e34.isGeneric = true ∧ (Word.ofNat 1 0).width ≠ 0 ∧ (w8 255).width ≠ 0) := by decide

theorem witness_FieldsOfAPackedValue :
    fp32.codecOk = true ∧ (w32 0xFFFFFFFF).width = fp32.W ∧ (w8 0).width ≠ fp32.W ∧
    (Word.ofNat 1 1).width = 1 ∧ (w8 255).width = fp32.E ∧ (Word.ofNat 23 0).width = fp32.M := by decide

theorem witness_ExactlyOneClassHolds :
    fp8.codecOk = true ∧ (w8 0x7F).width = fp8.W ∧ fp8.variant = .e4m3 ∧
    (Fmt.generic 1 1).codecOk = true ∧ (Word.ofNat 3 7).width = (Fmt.generic 1 1).W := by decide

theorem witness_ClassifierPatterns :
    fp8.codecOk = true ∧ (w8 0x7F).width = fp8.W ∧ fp8.variant = .e4m3 ∧
    e34.codecOk = true ∧ (w8 0x70).width = e34.W ∧ e34.variant = .ieee := by decide

theorem witness_CompareIsTheRawOrder :
    fp32.codecOk = true ∧ fp16.codecOk = true ∧ (w32 0).width = fp32.W ∧ (w16 0).width = fp16.W ∧ fp32.E ≠ fp16.E ∧
    fp8.codecOk = true ∧ (Fmt.generic 4 3).codecOk = true ∧ fp8.E = (Fmt.generic 4 3).E ∧
    fp8.M = (Fmt.generic 4 3).M := by decide

theorem witness_ZeroSubnormalAndInfinityConstants :
    (Fmt.generic 1 1).codecOk = true ∧ (Fmt.generic 1 1).variant = .ieee ∧ fp8.codecOk = true ∧ fp8.variant = .e4m3 := by
  decide

theorem witness_NormalConstants :
    (Fmt.generic 2 1).codecOk = true ∧ 2 ≤ (Fmt.generic 2 1).E ∧ (Fmt.generic 2 1).E = 2 ∧
    (Fmt.generic 2 1).variant = .ieee ∧ fp8.codecOk = true ∧ 2 ≤ fp8.E ∧ fp8.variant = .e4m3 := by decide

theorem witness_EncodingOrderIsMagnitudeOrder :
    e34.codecOk = true ∧ (w8 0).width = e34.W ∧ (w8 0x6F).width = e34.W ∧ signOf e34 (w8 0) = false ∧
    isFinite e34 (w8 0) = true ∧ signOf e34 (w8 0x6F) = false ∧ isFinite e34 (w8 0x6F) = true ∧ e34.variant = .ieee := by
  decide

/-- 448, the least double above it, and 57344 with the least double above it. -/
theorem value_448 : realValue fp64 (doubleWord 0x407C000000000000) = 448 := by
  rw [realValue_of_fields (s := false) (e := 1031) (m := 0xC000000000000) (by decide +kernel)]
  norm_num [Fmt.bias, Fmt.E, Fmt.M, fp64]

theorem value_above448 : 448 < |realValue fp64 (doubleWord 0x407C000000000001)| := by
  rw [realValue_of_fields (s := false) (e := 1031) (m := 0xC000000000001) (by decide +kernel), lt_abs]
  left
  norm_num [Fmt.bias, Fmt.E, Fmt.M, fp64]

theorem value_57344 : realValue fp64 (doubleWord 0x40EC000000000000) = 57344 := by
  rw [realValue_of_fields (s := false) (e := 1038) (m := 0xC000000000000) (by decide +kernel)]
  norm_num [Fmt.bias, Fmt.E, Fmt.M, fp64]

theorem value_above57344 : 57344 < |realValue fp64 (doubleWord 0x40EC000000000001)| := by
  rw [realValue_of_fields (s := false) (e := 1038) (m := 0xC000000000001) (by decide +kernel), lt_abs]
  left
  norm_num [Fmt.bias, Fmt.E, Fmt.M, fp64]

theorem witness_FromDoubleGenericPath :
    (e34.codecOk = true ∧ ¬ (e34.E = 11 ∧ e34.M = 52) ∧ ¬ (e34.E = 8 ∧ e34.M = 23) ∧ e34 ≠ fp8 ∧ e34 ≠ e5m2 ∧
      isNaN fp64 (doubleWord 0x7FF8000000000000) = true ∧ isInf fp64 (doubleWord 0xFFF0000000000000) = true ∧
      isFinite fp64 (doubleWord 0) = true) ∧
    (fp8.codecOk = true ∧ isInf fp64 (doubleWord 0x407C000000000000) = false ∧
      isFinite fp64 (doubleWord 0x407C000000000000) = true ∧
      |realValue fp64 (doubleWord 0x407C000000000000)| ≤ 448 ∧ fp8.variant = .e4m3) ∧
    (e5m2.codecOk = true ∧ |realValue fp64 (doubleWord 0x40EC000000000000)| ≤ 57344 ∧
      isInf fp64 (doubleWord 0x7FF0000000000000) = true) := by
  rw [value_448, value_57344]
  refine ⟨by decide +kernel, ⟨by decide, by decide +kernel, by decide +kernel, by norm_num, by decide⟩, by decide, ?_, ?_⟩
  · norm_num
  · decide +kernel

theorem witness_StubbedModesTruncate :
    2 ≤ (2#3).toNat ∧ (5#3).toNat ≤ 5 ∧ ¬ (fp64.E = 8 ∧ fp64.M = 23) ∧ ¬ (e34.E = 8 ∧ e34.M = 23) := by decide

theorem witness_FromDoubleExactFormats :
    (0#3).toNat ≤ 5 ∧ (5#3).toNat ≤ 5 ∧ fp64.E = 11 ∧ fp64.M = 52 ∧ fp32.E = 8 ∧ fp32.M = 23 ∧
    isNaN fp64 (doubleWord 0x7FF0000000000001) = true ∧ isInf fp64 (doubleWord 0xFFF0000000000000) = true ∧
    isFinite fp64 (doubleWord 0x7FEFFFFFFFFFFFFF) = true := by decide +kernel

theorem witness_RangeErrorThresholds :
    (isNaN fp64 (doubleWord 0x407C000000000001) = false ∧ |realValue fp64 (doubleWord 0x407C000000000001)| > 448) ∧
    (isNaN fp64 (doubleWord 0xFFF0000000000000) = false ∧ isInf fp64 (doubleWord 0xFFF0000000000000) = true) ∧
    (isFinite fp64 (doubleWord 0x40EC000000000001) = true ∧ |realValue fp64 (doubleWord 0x40EC000000000001)| > 57344) ∧
    (fp8.codecOk = true ∧ isInf fp64 (doubleWord 0x407C000000000000) = false ∧
      |realValue fp64 (doubleWord 0x407C000000000000)| ≤ 448) ∧
    (e5m2.codecOk = true ∧ |realValue fp64 (doubleWord 0x40EC000000000000)| ≤ 57344) ∧
    (0#3).toNat ≤ 5 ∧ (5#3).toNat ≤ 5 := by
  refine ⟨⟨by decide +kernel, value_above448⟩, by decide +kernel, ⟨by decide +kernel, value_above57344⟩,
    ⟨by decide, by decide +kernel, ?_⟩, ⟨by decide, ?_⟩, by decide, by decide⟩
  · rw [value_448]; norm_num
  · rw [value_57344]; norm_num

theorem witness_ToDoubleIsTheNearestDouble :
    (fp32.codecOk = true ∧ (w32 0x7F800001).width = fp32.W ∧ isNaN fp32 (w32 0x7F800001) = true) ∧
    (fp64.codecOk = true ∧ (w64 0x7FF0000000000001).width = fp64.W ∧ isNaN fp64 (w64 0x7FF0000000000001) = true ∧
      fp64.same fp64 = true) ∧
    isInf fp32 (w32 0xFF800000) = true ∧ isZero fp32 (w32 0x80000000) = true ∧
    (isFinite fp32 (w32 0x7F7FFFFF) = true ∧ isZero fp32 (w32 0x7F7FFFFF) = false ∧ fp32.E ≤ 11 ∧ fp32.M ≤ 52) ∧
    ((Fmt.generic 12 3).codecOk = true ∧ isFinite (Fmt.generic 12 3) (w16 1) = true) := by decide +kernel

theorem witness_DoubleRoundTrip :
    (Fmt.generic 2 1).codecOk = true ∧ 2 ≤ (Fmt.generic 2 1).E ∧ (Fmt.generic 2 1).E ≤ 11 ∧ (Fmt.generic 2 1).M ≤ 52 ∧
    (Word.ofNat 4 6).width = (Fmt.generic 2 1).W ∧ isNaN (Fmt.generic 2 1) (Word.ofNat 4 6) = false ∧
    fp64.codecOk = true ∧ 2 ≤ fp64.E ∧ fp64.E ≤ 11 ∧ fp64.M ≤ 52 ∧ isNaN fp64 (w64 0) = false := by decide +kernel

theorem witness_FromIntsChecksThenPacks :
    (fp32.isGeneric = false ∧ 2 ^ (SizedNat.mk 8 256).width ≤ (SizedNat.mk 8 256).val) ∧
    ((1 : Nat) < 2 ^ 1 ∧ (255 : Nat) < 2 ^ 8 ∧ (0 : Nat) < 2 ^ 23) ∧
    (fp32.codecOk = true ∧ (SizedNat.mk 8 255).width = fp32.E ∧ (SizedNat.mk 23 0).width = fp32.M ∧
      (SizedNat.mk 8 255).val < 2 ^ fp32.E ∧ (SizedNat.mk 23 0).val < 2 ^ fp32.M) := by decide +kernel

theorem witness_FromStringForms :
    (e34.isGeneric = true ∧ ("".toList = [] ∨ "0".toList = [])) ∧
    (¬ (e34.isGeneric = true ∧ ("1".toList = [] ∨ "0".toList = [])) ∧
      ∃ c ∈ "x".toList ++ "1".toList ++ "0".toList, c ≠ '0' ∧ c ≠ '1') ∧
    (¬ (fp8.isGeneric = true ∧ ("".toList = [] ∨ "1".toList = [])) ∧
      (∀ c ∈ "0".toList ++ "".toList ++ "1".toList, c = '0' ∨ c = '1') ∧ "".toList = []) ∧
    (e34.codecOk = true ∧ (∀ c ∈ "0".toList ++ "011".toList ++ "0000".toList, c = '0' ∨ c = '1') ∧ "0".toList ≠ [] ∧
      "011".toList ≠ [] ∧ "0000".toList ≠ [] ∧ "0".toList.length = 1 ∧ "011".toList.length = e34.E ∧
      "0000".toList.length = e34.M ∧ ' ' ∉ "0".toList ∧ ' ' ∉ "011".toList ∧ ' ' ∉ "0000".toList) ∧
    "0 1".toList.count ' ' ≠ 2 ∧ "0  1 1".toList.count ' ' ≠ 2 := by
  refine ⟨by decide, ⟨by decide, 'x', by decide⟩, ⟨by decide, by simp, by decide⟩, ⟨by decide, by simp, ?_⟩, by decide,
    by decide⟩
  decide

theorem witness_FromRadixReadsTheNumeral :
    fp32.codecOk = true ∧ 36 ∉ State.reset.params.radices ∧ 16 ∈ State.reset.params.radices ∧
    (∃ c ∈ "g".toList, ∀ d, digitValue c = some d → 16 ≤ d) ∧
    (∀ c ∈ "fF".toList, ∃ d, digitValue c = some d ∧ d < 16) ∧
    "ffffffff".toList.foldl (fun n c => n * 16 + (digitValue c).getD 0) 0 < 2 ^ fp32.W ∧
    2 ^ fp32.W ≤ "100000000".toList.foldl (fun n c => n * 16 + (digitValue c).getD 0) 0 ∧
    "ff".toList = Nat.toDigits 16 255 := by
  refine ⟨by decide, by decide, by decide, ⟨'g', by decide, ?_⟩, ?_, by decide +kernel, by decide +kernel, by decide +kernel⟩
  · intro d h
    have : digitValue 'g' = some 16 := by decide
    rw [this] at h
    injection h with h
    omega
  · intro c hc
    rcases (by simpa using hc : c = 'f' ∨ c = 'F') with rfl | rfl
    · exact ⟨15, by decide, by decide⟩
    · exact ⟨15, by decide, by decide⟩

theorem witness_BinaryStringsRoundTrip : fp8.codecOk = true ∧ (w8 0xFF).width = fp8.W := by decide

theorem witness_SpacedStringsRoundTrip :
    fp8.codecOk = true ∧ (w8 0x7F).width = fp8.W ∧ ' ' ∉ "0".toList ∧ ' ' ∉ "1111".toList ∧ ' ' ∉ "111".toList ∧
    "1111".toList.length = fp8.E ∧ "111".toList.length = fp8.M ∧
    Answers (.fpFromStr fp8 ("0".toList ++ [' '] ++ "1111".toList ++ [' '] ++ "111".toList)) State.reset
      (.word (w8 0x7F)) :=
  ⟨by decide, by decide, by decide, by decide, by decide, by decide, by decide, rfl⟩

theorem witness_RoundingFollowsTheExactRule : 0 < (⟨0, 1, 0⟩ : Mag).den ∧ 0 < (⟨1, 3, -5⟩ : Mag).den := by decide

theorem witness_RoundingConsequences :
    e34.unitOk = true ∧ (Fmt.generic 2 1).unitOk = true ∧
    ((0 : ℝ) < (2 : ℝ) ^ (e34.emin - e34.M - 1) ∧
      (2 : ℝ) ^ (e34.emin - e34.M - 1) < 1.25 * (2 : ℝ) ^ (e34.emin - e34.M) ∧
      1.25 * (2 : ℝ) ^ (e34.emin - e34.M) < 1.5 * (2 : ℝ) ^ (e34.emin - e34.M)) ∧
    (w8 0x6F).width = e34.W ∧ isFinite e34 (w8 0x6F) = true ∧ signOf e34 (w8 0x6F) = false := by
  refine ⟨by decide, by decide, ⟨by positivity, ?_, ?_⟩, by decide, by decide, by decide⟩ <;>
    norm_num [Fmt.emin, Fmt.bias, Fmt.E, Fmt.M, zpow_neg]

theorem witness_CanonicalNaNIsOneNaNPerFormat :
    fp8.codecOk = true ∧ fp8.variant = .e4m3 ∧ fp32.codecOk = true ∧ fp32.variant = .ieee ∧ defaultParams.canonNaN = [] ∧
    fp32.same (.generic 8 23) = true := by decide

theorem witness_RoundUpDecision :
    (-1 : Int) < 0 ∧ (((w8 0).width : Nat) : Int) ≤ 8 ∧ (0 : Nat) < (w8 0).width ∧ (7 : Nat) < (w8 0).width := by decide

theorem witness_RoundUpIsNearestTiesToEven :
    (2 : Nat) < (Word.ofNat 4 0b1110).width ∧
    2 * ((Word.ofNat 4 0b1110).toNat % 2 ^ 2) = 2 ^ 2 ∧ (0 : Nat) < (Word.ofNat 4 0b1110).width := by decide

theorem witness_ReferenceOperatorsComplete :
    fp32.codecOk = true ∧ e34.codecOk = true ∧ (w32 0).width = fp32.W ∧ (w8 0).width = e34.W ∧ fp32.same e34 = false ∧
    fp32.same (.generic 8 23) = true ∧ isNarrowNamed fp32 = false ∧
    fp8.codecOk = true ∧ fp8.same fp8 = true ∧ isNarrowNamed fp8 = true := by decide

/-- Words of E3M4 and of FP32 under both its names; finite ones, a NaN, both zeros. -/
theorem witness_ReferenceRoundsThroughBinary64 :
    e34.codecOk = true ∧ e34.same e34 = true ∧ fp32.codecOk = true ∧ fp32.same (.generic 8 23) = true ∧
    (w8 0x71).width = e34.W ∧ isNaN e34 (w8 0x71) = true ∧ isFinite e34 (w8 0x6F) = true ∧ e34.E ≤ 11 ∧ e34.M ≤ 52 ∧
    isZero e34 (w8 0) = true ∧ isZero e34 (w8 0x80) = true ∧ ¬ (isZero e34 (w8 0) = true ∧ isZero e34 (w8 1) = true) ∧
    fp8.codecOk = true ∧ fp8.same fp8 = true ∧ fp64.E ≤ 11 ∧ fp64.M ≤ 52 := by decide

/-- The cases of a reference outcome: a double above each narrow format's range, NaNs at (8, 23) and at other formats, and a
double that is none of these. -/
theorem witness_ReferenceAnswers :
    exceedsE4M3 fp8 (doubleWord 0x407C000000000001) ∧ exceedsE4M3 fp8 (doubleWord 0x7FF0000000000000) ∧
    exceedsE5M2 e5m2 (doubleWord 0x40EC000000000001) ∧
    (isNaN fp64 (defaultNaN fp64) = true ∧ drawsItsNaN fp32 = true ∧ drawsItsNaN fp64 = false ∧
      drawsItsNaN e34 = false) ∧
    (isNaN fp64 (doubleWord 0x407C000000000000) = false ∧ ¬ exceedsE4M3 fp8 (doubleWord 0x407C000000000000) ∧
      ¬ exceedsE5M2 fp8 (doubleWord 0x407C000000000000)) := by
  refine ⟨⟨rfl, by decide +kernel, .inr value_above448⟩, ⟨rfl, by decide +kernel, .inl (by decide +kernel)⟩,
    ⟨rfl, by decide +kernel, value_above57344⟩, by decide +kernel, by decide +kernel, ?_, ?_⟩
  · rintro ⟨-, -, h | h⟩
    · exact absurd h (by decide +kernel)
    · rw [value_448] at h
      norm_num at h
  · rintro ⟨h, -, -⟩
    exact absurd h (by decide)

theorem witness_MultiplierAgreesWithReference :
    (fp32.unitOk = true ∧ fp32.E ≤ 10 ∧ fp32.M ≤ 24 ∧ isNarrowNamed fp32 = false ∧ (w32 0).width = fp32.W ∧
      isNaN fp32 (w32 0) = false ∧ isInf fp32 (w32 0) = false) ∧
    ((Fmt.generic 10 24).unitOk = true ∧ (Fmt.generic 10 24).E ≤ 10 ∧ (Fmt.generic 10 24).M ≤ 24) := by decide +kernel

/-- Infinities of each pair of signs: each of the two clauses admits one pair. -/
theorem witness_AdderAgreesWithReference :
    (fp32.unitOk = true ∧ fp32.E ≤ 10 ∧ fp32.M ≤ 24 ∧ isNarrowNamed fp32 = false ∧ (w32 0x7F800000).width = fp32.W ∧
      isNaN fp32 (w32 0x7F800000) = false ∧ isNaN fp32 (w32 0xFF800000) = false) ∧
    ¬ (isInf fp32 (w32 0x7F800000) = true ∧ isInf fp32 (w32 0x7F800000) = true ∧
      signOf fp32 (w32 0x7F800000) ≠ signOf fp32 (w32 0x7F800000)) ∧
    ¬ (isInf fp32 (w32 0x7F800000) = true ∧ isInf fp32 (w32 0xFF800000) = true ∧
      signOf fp32 (w32 0x7F800000) = signOf fp32 (w32 0xFF800000)) ∧
    ((Fmt.generic 10 24).unitOk = true ∧ (Fmt.generic 10 24).M ≤ 24) := by decide +kernel

theorem witness_UnitsCompleteOnEveryOperand :
    (Fmt.generic 2 1).unitOk = true ∧ (Word.ofNat 4 15).width = (Fmt.generic 2 1).W ∧
    (Fmt.generic 2 1).same (.generic 2 1) = true ∧ fp32.unitOk = true := by decide

theorem witness_AdderRoundsTheExactSumOnce :
    fp32.unitOk = true ∧ (Fmt.generic 8 23).same fp32 = true ∧ (some 0#3 = none ∨ some 0#3 = some 0) ∧
    (w32 0x7F7FFFFF).width = fp32.W ∧ (w32 1).width = fp32.W := by decide

theorem witness_AdderSpecialCasePriority :
    e34.unitOk = true ∧ (w8 0xFF).width = e34.W ∧ isNaN e34 (w8 0x71) = true ∧ isInf e34 (w8 0x70) = true ∧
    isInf e34 (w8 0xF0) = true ∧ signOf e34 (w8 0x70) ≠ (signOf e34 (w8 0xF0) ^^ false) ∧
    signOf e34 (w8 0x70) = (signOf e34 (w8 0xF0) ^^ true) ∧ isFinite e34 (w8 0x6F) = true := by decide

theorem witness_SignOfAnExactZeroSum :
    e34.unitOk = true ∧ (w8 0x80).width = e34.W ∧ isFinite e34 (w8 0x80) = true ∧ isZero e34 (w8 0x80) = true ∧
    isZero e34 (w8 0) = true ∧ signOf e34 (w8 0x80) = (signOf e34 (w8 0x80) ^^ false) ∧
    signOf e34 (w8 0x80) = (signOf e34 (w8 0) ^^ true) ∧
    ¬ (isZero e34 (w8 0x80) = true ∧ isZero e34 (w8 0) = true ∧ signOf e34 (w8 0x80) = (signOf e34 (w8 0) ^^ false)) ∧
    realValue e34 (w8 0x80) + realValue e34 (w8 0) = 0 ∧ realValue e34 (w8 0x30) + realValue e34 (w8 0) ≠ 0 := by
  refine ⟨by decide, by decide, by decide, by decide, by decide, by decide, by decide, by decide, ?_, ?_⟩
  · rw [realValue_of_fields (w := w8 0x80) (s := true) (e := 0) (m := 0) (by decide),
      realValue_of_fields (w := w8 0) (s := false) (e := 0) (m := 0) (by decide)]
    norm_num
  · rw [realValue_of_fields (w := w8 0x30) (s := false) (e := 3) (m := 0) (by decide),
      realValue_of_fields (w := w8 0) (s := false) (e := 0) (m := 0) (by decide)]
    norm_num [Fmt.bias, Fmt.E, Fmt.M]

theorem witness_AdderRoundingModePort :
    e34.unitOk = true ∧ e34.same e34 = true ∧ (w8 0).width = e34.W ∧ (1#3) ≠ 0 ∧ (7#3) ≠ 0 := by decide

/-- Two largest significands: the sum carries out. -/
theorem witness_FarPathNeverCarriesTwice :
    (31 : Nat) < 2 ^ (e34.M + 1) ∧ (farSum false ⟨6, 31, false, 6, 31⟩).testBit (e34.M + 4) = true := by decide

theorem witness_AdditionOfZeroAndCommutation :
    e34.unitOk = true ∧ (w8 1).width = e34.W ∧ (w8 0x80).width = e34.W ∧ isZero e34 (w8 0x80) = true ∧
    isFinite e34 (w8 1) = true ∧ isZero e34 (w8 1) = false := by decide

theorem witness_MultiplierRoundsTheExactProductOnce :
    fp32.unitOk = true ∧ (Fmt.generic 8 23).same fp32 = true ∧ (w32 1).width = fp32.W := by decide

theorem witness_ConverterRoundsOnce :
    (Fmt.generic 2 1).unitOk = true ∧ fp64.unitOk = true ∧ (Word.ofNat 4 1).width = (Fmt.generic 2 1).W := by decide

theorem witness_ConversionsThatLoseNothing :
    e34.unitOk = true ∧ fp32.unitOk = true ∧ (w8 0x7F).width = e34.W ∧ isNaN e34 (w8 0x7F) = true ∧
    isNaN e34 (w8 1) = false ∧ isFinite e34 (w8 1) = true ∧ e34.E ≤ fp32.E ∧ e34.M ≤ fp32.M ∧
    isNaN e34 (w8 0x70) = false ∧ isFinite e34 (w8 0x70) = false := by decide

theorem witness_SquareRootRoundsTheExactRootOnce : fp32.unitOk = true ∧ (w32 1).width = fp32.W := by decide

theorem witness_SquareRootErrorOutput :
    e34.unitOk = true ∧ (w8 0x81).width = e34.W ∧ SqrtSubnormal.rounded ≠ .flagged ∧
    isSubnormal e34 (w8 0x01) = true ∧ signOf e34 (w8 0x01) = false := by decide

/-- `9/4 = (3/2)^2` at E3M4. -/
theorem witness_RootOfAnExactSquare :
    e34.unitOk = true ∧ (w8 0x42).width = e34.W ∧ (w8 0x38).width = e34.W ∧ isFinite e34 (w8 0x42) = true ∧
    isFinite e34 (w8 0x38) = true ∧ signOf e34 (w8 0x42) = false ∧ signOf e34 (w8 0x38) = false ∧
    isSubnormal e34 (w8 0x42) = false ∧
    realValue e34 (w8 0x42) = realValue e34 (w8 0x38) * realValue e34 (w8 0x38) := by
  refine ⟨by decide, by decide, by decide, by decide, by decide, by decide, by decide, by decide, ?_⟩
  rw [realValue_of_fields (w := w8 0x42) (s := false) (e := 4) (m := 2) (by decide),
    realValue_of_fields (w := w8 0x38) (s := false) (e := 3) (m := 8) (by decide)]
  norm_num [Fmt.bias, Fmt.E, Fmt.M]

theorem witness_RefusedInvocations :
    (1#3) ≠ 0 ∧ 6 ≤ (6#3).toNat ∧ 6 ≤ (7#3).toNat ∧ fp8.unitOk = false ∧ (Fmt.generic 1 3).unitOk = false ∧
    (Fmt.generic 2 0).unitOk = false ∧ fp16.same fp32 = false ∧ (-1 : Int) < 0 ∧ (((w8 0).width : Nat) : Int) ≤ 8 ∧
    (Fmt.generic 8 23).isGeneric = true ∧ (Word.ofNat 0 0).width = 0 ∧ "".toList = [] ∧ ' ' ∉ "0".toList ∧ (SizedNat.mk 0 0).width = 0 ∧
    fp8.variant = .e4m3 ∧ (Fmt.generic 1 1).E = 1 ∧ 36 ∉ State.reset.params.radices := by decide

theorem witness_PriorityWithinOneOperation :
    (e34.isGeneric = true ∧ "".toList = []) ∧
    (¬ (e34.isGeneric = true ∧ ("2".toList = [] ∨ "0".toList = [])) ∧
      ∃ c ∈ "0".toList ++ "2".toList ++ "0".toList, c ≠ '0' ∧ c ≠ '1') ∧ "0  1 1".toList.count ' ' ≠ 2 ∧
    36 ∉ State.reset.params.radices ∧ 2 ∈ State.reset.params.radices ∧ digitValue '2' = some 2 ∧
    ((SizedNat.mk 8 256).width ≠ 0 ∧ 2 ^ (SizedNat.mk 8 256).width ≤ (SizedNat.mk 8 256).val) ∧
    ((SizedNat.mk 2 0).val < 2 ^ (SizedNat.mk 2 0).width ∧ (SizedNat.mk 2 0).width ≠ 1) ∧
    (fp8.codecOk = true ∧ 6 ≤ (6#3).toNat) ∧
    (e34.unitOk = true ∧ (w8 0x80).width = e34.W ∧ isZero e34 (w8 0x80) = true ∧ isNaN e34 (w8 0xFF) = true) :=
  ⟨by decide, ⟨by decide, '2', by decide⟩, by decide⟩

/-- The one-stage adder: an operation that reaches the last slot completes; a reset; a disabled edge. -/
theorem witness_ClockEdgeFollowsTheLadder :
    (edge1 true false).program = .drive 0 ⟨true, true, false⟩ (encode (add34 0x30 0x30)) :: [] ∧
    (∃ u, (edge1 true false).units[0]? = some u ∧ unitOk u = true ∧ fits u.cfg.kind (add34 0x30 0x30) = true ∧
      u.cfg.hasReset = true ∧ u.cfg.resetStyle = .sync ∧ u.cfg.hasEnable = true ∧
      lastSlot (.captured (add34 0x30 0x30) :: u.slots.dropLast) = .captured (add34 0x30 0x30)) ∧
    (∃ t, exec (add34 0x30 0x30) (edge1 true false) = .next t) :=
  ⟨rfl, ⟨_, rfl, by decide, by decide, rfl, rfl, rfl, rfl⟩, _, rfl⟩

theorem witness_ClockedOutputsAreTheLastSlots :
    (clockEvent adder1 ⟨true, true, false⟩ = .capture ∧ (∃ t, step (edge1 true false) = .next t)) ∧
    (clockEvent adder1 ⟨true, true, true⟩ = .clear ∧ (∃ t, step (edge1 true true) = .next t)) ∧
    (clockEvent adder1 ⟨true, false, false⟩ = .hold ∧ (∃ t, step (edge1 false false) = .next t)) :=
  ⟨⟨rfl, _, rfl⟩, ⟨rfl, _, rfl⟩, ⟨rfl, _, rfl⟩⟩

theorem witness_ElaborationStartsEverySlotEmpty :
    (queue [.elaborate adder1]).program = .elaborate adder1 :: [] ∧ admitted adder1 = true ∧
    admitted { adder1 with latency := 0 } = false ∧ admitted ⟨.squareRoot sq8, true, true, 1, .sync⟩ = false := by decide

/-- Two edges of the one-stage adder, the second one disabled. -/
theorem witness_OutputsArriveLatencyEdgesLater :
    let xs : List (Pins × Instr) := [(⟨true, true, false⟩, add34 0x30 0x30), (⟨true, false, false⟩, add34 0 0)]
    let u : ClockedUnit := ⟨adder1, [.bottom .unknown], .word (w8 0)⟩
    let s := oneUnit u (driveScript 0 xs)
    s.program = driveScript 0 xs ++ [] ∧ s.units[0]? = some u ∧ unitOk u = true ∧
    (∀ x ∈ u.slots, ∃ b, x = .bottom b) ∧ (∀ x ∈ xs, clockEvent u.cfg x.1 ≠ .clear) ∧
    u.cfg.latency ≤ (capturedInputs u.cfg xs).length ∧ (capturedInputs u.cfg []).length < u.cfg.latency ∧
    ∃ t, (Host.Core.run core xs.length s : StepOutcome) = .next t := by
  refine ⟨rfl, rfl, by decide, ?_, by decide, by decide, by decide, _, rfl⟩
  intro x hx
  exact ⟨.unknown, by simpa using hx⟩

theorem witness_UnitsAreIndependent :
    let s := edge1 true false
    let s' : State := { s with units := s.units ++ s.units, out := .value (.bit true) }
    s.params = s'.params ∧ s.draws = s'.draws ∧ s.units[0]? = s'.units[0]? ∧ s'.units[1]? ≠ none ∧
    ∃ t t', step s = .next t ∧ step s' = .next t' :=
  ⟨rfl, rfl, rfl, by decide, _, _, rfl, rfl⟩

end Sys2Proof.Tests
end

section
/-! SUPPORT. The statements about the state (spec/10_state.md): what an operation's reply can depend on and change, what
one step does to the clocked units, and the invariant of their stage slots. -/

namespace Sys2Proof.Machine

open Sys2Proof

/-! ### An operation's reply, in two states at once -/

/-- The same reply given in two states: `n` draws counted and a value or an error put on the outputs, or a refusal. Each
state keeps everything else (R33, R43, R64). Without `d` nothing is drawn. -/
inductive RepliesAlike (d : Bool) (s s' : State) : StepOutcome → StepOutcome → Prop
  | value (n : Nat) (v : Value) (hn : d = false → n = 0) :
      RepliesAlike d s s' (.next ((s.drew n).put v)) (.next ((s'.drew n).put v))
  | error (n : Nat) (e : ErrorCode) (info : ErrorInfo) (hn : d = false → n = 0) :
      RepliesAlike d s s' (.next ((s.drew n).fail e info)) (.next ((s'.drew n).fail e info))
  | refusal (r : Refusal) : RepliesAlike d s s' (.refused r) (.refused r)

namespace RepliesAlike

variable {d : Bool} {s s' : State} {x x' y y' : StepOutcome}

theorem emit (v : Value) : RepliesAlike d s s' (emit v s) (emit v s') := .value 0 v fun _ => rfl

theorem emitDrawing (n : Nat) (v : Value) :
    RepliesAlike true s s' (Machine.emit v (s.drew n)) (Machine.emit v (s'.drew n)) := .value n v nofun

theorem raise (e : ErrorCode) (info : ErrorInfo) : RepliesAlike d s s' (raise e info s) (raise e info s') :=
  .error 0 e info fun _ => rfl

theorem refuse (r : Refusal) : RepliesAlike d s s' (refuse r) (refuse r) := .refusal r

theorem ite (c : Prop) [Decidable c] (hx : RepliesAlike d s s' x x') (hy : RepliesAlike d s s' y y') :
    RepliesAlike d s s' (if c then x else y) (if c then x' else y') := by
  split
  · exact hx
  · exact hy

theorem withCodecFormat (F : Fmt) (h : RepliesAlike d s s' x x') :
    RepliesAlike d s s' (withCodecFormat F x) (withCodecFormat F x') := ite _ h (refuse _)

theorem withCodecWord (F : Fmt) (w : Word) (h : RepliesAlike d s s' x x') :
    RepliesAlike d s s' (withCodecWord F w x) (withCodecWord F w x') := withCodecFormat F (ite _ h (refuse _))

theorem withUnitFormat (F : Fmt) (h : RepliesAlike d s s' x x') :
    RepliesAlike d s s' (withUnitFormat F x) (withUnitFormat F x') := ite _ h (refuse _)

theorem withUnitWord (F : Fmt) (w : Word) (h : RepliesAlike d s s' x x') :
    RepliesAlike d s s' (withUnitWord F w x) (withUnitWord F w x') := withUnitFormat F (ite _ h (refuse _))

theorem withOutFormat (F outF : Fmt) (h : RepliesAlike d s s' x x') :
    RepliesAlike d s s' (withOutFormat F outF x) (withOutFormat F outF x') := ite _ h (refuse _)

theorem withSameFormat (Fa : Fmt) (a : Word) (Fb : Fmt) (b : Word) (h : RepliesAlike d s s' x x') :
    RepliesAlike d s s' (withSameFormat Fa a Fb b s x) (withSameFormat Fa a Fb b s' x') :=
  withCodecWord Fa a (withCodecWord Fb b (ite _ h (raise _ _)))

theorem constant (F : Fmt) (w : Word) : RepliesAlike d s s' (constant F w s) (constant F w s') :=
  withCodecFormat F (emit _)

theorem normalConstant (F : Fmt) (w : Word) : RepliesAlike d s s' (normalConstant F w s) (normalConstant F w s') :=
  withCodecFormat F (ite _ (refuse _) (emit _))

theorem construct (F : Fmt) (sg e m : Word) : RepliesAlike d s s' (construct F sg e m s) (construct F sg e m s') :=
  ite _ (refuse _) (ite _ (raise _ _) (ite _ (raise _ _) (emit _)))

theorem fromBinaryStrings (F : Fmt) (S X T : Str) :
    RepliesAlike d s s' (fromBinaryStrings F S X T s) (fromBinaryStrings F S X T s') :=
  ite _ (refuse _) (ite _ (raise _ _) (ite _ (raise _ _) (construct _ _ _ _)))

theorem execFpFromStr (F : Fmt) (t : Str) : RepliesAlike d s s' (execFpFromStr F t s) (execFpFromStr F t s') := by
  unfold Machine.execFpFromStr
  split
  · exact fromBinaryStrings _ _ _ _
  · exact raise _ _

theorem execFpFromRadix (hp : s.params = s'.params) (F : Fmt) (t : Str) (r : Nat) :
    RepliesAlike d s s' (execFpFromRadix F t r s) (execFpFromRadix F t r s') := by
  unfold Machine.execFpFromRadix
  rw [hp]
  refine withCodecFormat F (ite _ (refuse _) ?_)
  cases numeralValue r t with
  | none => exact raise _ _
  | some n => exact ite _ (raise _ _) (emit _)

theorem adderUnit (hp : s.params = s'.params) (F outF : Fmt) (path : AdderPath) (rm : Option (BitVec 3)) (a b : Word)
    (sub : Bool) :
    RepliesAlike d s s' (adderUnit F outF path rm a b sub s) (adderUnit F outF path rm a b sub s') := by
  unfold Machine.adderUnit
  rw [hp]
  exact withUnitWord F a (withUnitWord F b (withOutFormat F outF (ite _ (emit _) (refuse _))))

/-- `n` draws stand before the conversion's own, as in a reference operator (R194; log 7). -/
theorem finishFromDouble (hp : s.params = s'.params) (hd : s.draws = s'.draws) (n : Nat) (F : Fmt) (rm : RoundingMode)
    (x : BitVec 64) :
    RepliesAlike true s s' (finishFromDouble F rm x (s.drew n)) (finishFromDouble F rm x (s'.drew n)) := by
  unfold Machine.finishFromDouble
  cases rangeError F x with
  | some info => exact .error n _ _ nofun
  | none =>
    simp only [drew_params, drew_draws, hp, hd]
    exact emitDrawing (n + 1) _

theorem execFpFromDouble (hp : s.params = s'.params) (hd : s.draws = s'.draws) (x : BitVec 64) (F : Fmt)
    (rm : BitVec 3) : RepliesAlike true s s' (execFpFromDouble x F rm s) (execFpFromDouble x F rm s') := by
  refine withCodecFormat F ?_
  cases roundingMode rm with
  | none => exact refuse _
  | some mode => exact finishFromDouble hp hd 0 F mode x

theorem reference (hp : s.params = s'.params) (hd : s.draws = s'.draws)
    (op : Params → BitVec 64 → BitVec 64 → BitVec 64) (F : Fmt) (a b : Word) :
    RepliesAlike true s s' (reference op F a b s) (reference op F a b s') := by
  unfold Machine.reference
  rw [hp, hd]
  exact finishFromDouble hp hd 2 F _ _

/-- The arms of `exec`: an operation reads of the state its parameters, and the draw count where it draws (R43, R66). -/
theorem exec (i : Instr) (hp : s.params = s'.params) (hd : usesDraws i = true → s.draws = s'.draws) :
    RepliesAlike (usesDraws i) s s' (exec i s) (exec i s') := by
  cases i with
  | fpPack F sg e m => exact construct F sg e m
  | fpFields F w => exact withCodecWord F w (emit _)
  | fpIsZero F w => exact withCodecWord F w (emit _)
  | fpIsNormal F w => exact withCodecWord F w (emit _)
  | fpIsSubnormal F w => exact withCodecWord F w (emit _)
  | fpIsInf F w => exact withCodecWord F w (emit _)
  | fpIsNaN F w => exact withCodecWord F w (emit _)
  | fpCmp Fa a Fb b => exact withCodecWord Fa a (withCodecWord Fb b (ite _ (raise _ _) (emit _)))
  | constNegZero F => exact constant F _
  | constPosZero F => exact constant F _
  | constMinSub F => exact constant F _
  | constMaxSub F => exact constant F _
  | constMinNorm F => exact normalConstant F _
  | constOne F => exact normalConstant F _
  | constOnePlus F => exact normalConstant F _
  | constMaxNorm F => exact normalConstant F _
  | constInf F => exact ite _ (refuse _) (constant F _)
  | fpFromDouble x F rm => exact execFpFromDouble hp (hd rfl) x F rm
  | fpToDouble F w =>
    have hc : s.draws = s'.draws := hd rfl
    simp only [Machine.exec, execFpToDouble, hc]
    exact withCodecWord F w (emitDrawing 1 _)
  | fpFromInts F sg e m => exact ite _ (refuse _) (ite _ (raise _ _) (construct F _ _ _))
  | fpFromBitStr F S X T => exact fromBinaryStrings F S X T
  | fpFromStr F t => exact execFpFromStr F t
  | fpFromRadix F t r => exact execFpFromRadix hp F t r
  | fpToBitStr F w => exact withCodecWord F w (emit _)
  | fpToStr F w => exact withCodecWord F w (emit _)
  | refAdd Fa a Fb b => exact withSameFormat Fa a Fb b (reference hp (hd rfl) _ Fa a b)
  | refSub Fa a Fb b => exact withSameFormat Fa a Fb b (reference hp (hd rfl) _ Fa a b)
  | refMul Fa a Fb b => exact withSameFormat Fa a Fb b (reference hp (hd rfl) _ Fa a b)
  | refDiv Fa a Fb b =>
    simp only [Machine.exec, execRefDiv, hp]
    exact withSameFormat Fa a Fb b (ite _ (emitDrawing 3 _) (reference hp (hd rfl) _ Fa a b))
  | rndRne bits lsb => exact ite _ (refuse _) (emit _)
  | fadd F outF path rm a b => exact adderUnit hp F outF path rm a b false
  | fsub F outF path rm a b => exact adderUnit hp F outF path rm a b true
  | fmul F outF a b =>
    simp only [Machine.exec, execFmul, hp]
    exact withUnitWord F a (withUnitWord F b (withOutFormat F outF (emit _)))
  | fcvt Fs Fd a =>
    simp only [Machine.exec, execFcvt, hp]
    exact withUnitWord Fs a (withUnitFormat Fd (emit _))
  | fsqrt u a =>
    simp only [Machine.exec, execFsqrt, hp]
    exact withUnitWord u.F a (emit _)

theorem sameOutputs (h : RepliesAlike d s s' x x') : SameOutputs x x' := by
  cases h <;> rfl

/-- Where one state completes, so does the other, with the same outputs. -/
theorem next {t : State} (h : RepliesAlike d s s' (.next t) x') : ∃ t', x' = .next t' ∧ t'.out = t.out := by
  cases h <;> exact ⟨_, rfl, rfl⟩

theorem frame {t : State} (h : RepliesAlike d s s' (.next t) x') :
    t.params = s.params ∧ t.units = s.units ∧ t.program = s.program ∧ s.draws ≤ t.draws ∧
    (d = false → t.draws = s.draws) ∧ t.out ≠ .nothing := by
  cases h with
  | value n v hn => exact ⟨rfl, rfl, rfl, by simp, fun h => by simp [hn h], nofun⟩
  | error n e info hn => exact ⟨rfl, rfl, rfl, by simp, fun h => by simp [hn h], nofun⟩

end RepliesAlike

/-- What an operation that completes leaves unchanged: its reply compared with itself. -/
theorem exec_frame {i : Instr} {s t : State} (h : exec i s = .next t) :
    t.params = s.params ∧ t.units = s.units ∧ t.program = s.program ∧ s.draws ≤ t.draws ∧
    (usesDraws i = false → t.draws = s.draws) ∧ t.out ≠ .nothing := by
  have hr := RepliesAlike.exec i (s := s) rfl fun _ => rfl
  rw [h] at hr
  exact hr.frame

/-- An operation that completes in one state completes with the same outputs in every state of the same parameters and
draw count. -/
theorem exec_next_of_same_inputs {i : Instr} {s t : State} (h : exec i s = .next t) (s' : State)
    (hp : s.params = s'.params) (hd : s.draws = s'.draws) : ∃ t', exec i s' = .next t' ∧ t'.out = t.out := by
  have hr := RepliesAlike.exec i hp fun _ => hd
  rw [h] at hr
  exact hr.next

/-! ### The operations of clocked units -/

theorem withUnitFormat_next {F : Fmt} {x : StepOutcome} {t : State} (h : withUnitFormat F x = .next t) :
    x = .next t := by
  rcases withUnitFormat_cases F x with ⟨-, e⟩ | ⟨-, e⟩ <;> simp_all

theorem withUnitWord_next {F : Fmt} {w : Word} {x : StepOutcome} {t : State} (h : withUnitWord F w x = .next t) :
    x = .next t := by
  rcases withUnitWord_cases F w x with ⟨-, -, e⟩ | ⟨-, e⟩ | ⟨-, -, e⟩ <;> simp_all

theorem withOutFormat_next {F G : Fmt} {x : StepOutcome} {t : State} (h : withOutFormat F G x = .next t) :
    x = .next t := by
  rcases withOutFormat_cases F G x with ⟨-, e⟩ | ⟨-, e⟩ <;> simp_all

theorem withOutFormat_of_same {F G : Fmt} {x : StepOutcome} (h : G.same F = true) : withOutFormat F G x = x := by
  simp [withOutFormat, h]

theorem adderUnit_of_ok {F G : Fmt} (path : AdderPath) {rm : Option (BitVec 3)} {a b : Word} (sub : Bool) (s : State)
    (hF : F.unitOk = true) (ha : a.width = F.W) (hb : b.width = F.W) (hG : G.same F = true)
    (hrm : rm = none ∨ rm = some 0) : adderUnit F G path rm a b sub s =
      .next (s.put (.word (adderSum F path (canonNaN s.params F) a b sub))) := by
  rw [adderUnit, withUnitWord_of_ok hF ha, withUnitWord_of_ok hF hb, withOutFormat_of_same hG, if_pos hrm]
  rfl

theorem adderUnit_next {F G : Fmt} {path : AdderPath} {rm : Option (BitVec 3)} {a b : Word} {sub : Bool} {s t : State}
    (h : adderUnit F G path rm a b sub s = .next t) : ∃ v, t = s.put v := by
  rcases adderUnit_cases F G path rm a b sub s with ⟨-, -, -, -, -, e⟩ | ⟨r, e⟩
  · rw [e] at h
    injection h with h
    exact ⟨_, h.symm⟩
  · simp [e] at h

/-- An operation whose inputs fit a clocked unit's ports is one of the five arithmetic ones: when it completes, it puts
a value on the outputs and changes nothing else (R34, R64). -/
theorem exec_next_of_fits {k : UnitKind} {i : Instr} {s t : State} (hf : fits k i = true) (h : exec i s = .next t) :
    ∃ v, t = s.put v := by
  unfold fits at hf
  split at hf
  case h_1 => exact adderUnit_next h
  case h_2 => exact adderUnit_next h
  case h_3 =>
    have h := withOutFormat_next (withUnitWord_next (withUnitWord_next h))
    injection h with h
    exact ⟨_, h.symm⟩
  case h_4 =>
    have h := withUnitFormat_next (withUnitWord_next h)
    injection h with h
    exact ⟨_, h.symm⟩
  case h_5 =>
    have h := withUnitWord_next h
    injection h with h
    exact ⟨_, h.symm⟩
  case h_6 => cases hf

/-! ### Slots -/

theorem clockedUnit_unitOk_iff (u : ClockedUnit) : unitOk u = true ↔
    admitted u.cfg = true ∧ u.slots.length = u.cfg.latency ∧ ∀ x ∈ u.slots, slotOk u.cfg.kind x = true := by
  simp [unitOk, and_assoc]

theorem admitted_iff (c : UnitCfg) : admitted c = true ↔ admittedKind c.kind = true ∧ 1 ≤ c.latency := by
  simp [admitted]

theorem slots_ne_nil_of_unitOk {u : ClockedUnit} (hu : unitOk u = true) : u.slots ≠ [] := by
  obtain ⟨ha, hlen, -⟩ := (clockedUnit_unitOk_iff u).mp hu
  have hlat := ((admitted_iff _).mp ha).2
  exact List.ne_nil_of_length_pos (by omega)

@[simp] theorem slotOk_advance (k : UnitKind) (x : Slot) : slotOk k x.advance = slotOk k x := by
  cases x <;> rfl

theorem advance_eq_captured_iff (x : Slot) (j : Instr) : x.advance = .captured j ↔ x = .captured j := by
  cases x <;> simp [Slot.advance]

/-- Captured inputs reach `slot[LATENCY]` unchanged: its new content, up to the register bits of ⊥ (log 12). -/
theorem lastSlot_capture (i : Instr) (slots : List Slot) :
    lastSlot (clockSlots .capture i slots) = (lastSlot (.captured i :: slots.dropLast)).advance := by
  have hmap : clockSlots .capture i slots = (Slot.captured i :: slots.dropLast).map Slot.advance := rfl
  rw [hmap, lastSlot, lastSlot, List.getLastD_eq_getLast?, List.getLastD_eq_getLast?, List.getLast?_map,
    List.getLast?_cons]
  rfl

theorem lastSlot_clear (i : Instr) {slots : List Slot} (h : slots ≠ []) :
    lastSlot (clockSlots .clear i slots) = .bottom .zeros := by
  have hlen : slots.length ≠ 0 := mt List.length_eq_zero_iff.mp h
  simp [lastSlot, clockSlots, List.getLast?_replicate, hlen]

/-- What reached the last slot of a unit are inputs of its ports. -/
theorem fits_of_lastSlot {u : ClockedUnit} {j : Instr} (hu : unitOk u = true) (h : lastSlot u.slots = .captured j) :
    fits u.cfg.kind j = true := by
  obtain ⟨-, -, hs⟩ := (clockedUnit_unitOk_iff u).mp hu
  have hlast : u.slots.getLast? = some (.captured j) := by
    rw [lastSlot, List.getLastD_eq_getLast?] at h
    cases hl : u.slots.getLast? with
    | none => simp [hl] at h
    | some x => simpa [hl] using h
  exact hs _ (List.mem_of_getLast? hlast)

/-- Each event leaves the slots of a unit as elaboration made them, when the inputs are of its ports (R36 to R38). -/
theorem unitOk_clockSlots {u : ClockedUnit} {i : Instr} (e : ClockEvent) (hu : unitOk u = true)
    (hf : fits u.cfg.kind i = true) : unitOk { u with slots := clockSlots e i u.slots } = true := by
  have hlen := clockSlots_length e i u.slots (slots_ne_nil_of_unitOk hu)
  obtain ⟨ha, hl, hs⟩ := (clockedUnit_unitOk_iff u).mp hu
  refine (clockedUnit_unitOk_iff _).mpr ⟨ha, hlen.trans hl, ?_⟩
  cases e with
  | clear => simp [clockSlots, slotOk]
  | capture =>
    intro x hx
    rcases List.mem_cons.mp hx with rfl | hx
    · exact hf
    · obtain ⟨y, hy, rfl⟩ := List.mem_map.mp hx
      simpa using hs y (List.mem_of_mem_dropLast hy)
  | hold => exact hs

theorem unitOk_powerUpUnit {c : UnitCfg} (h : admitted c = true) (draw : Nat) : unitOk (powerUpUnit c draw) = true := by
  refine (clockedUnit_unitOk_iff _).mpr ⟨h, List.length_replicate, fun x hx => ?_⟩
  rw [List.eq_of_mem_replicate hx]
  rfl

/-! ### Events of the control ports -/

theorem clockEvent_eq_clear_iff (c : UnitCfg) (pins : Pins) : clockEvent c pins = .clear ↔
    c.hasReset = true ∧ pins.reset = true ∧ (c.resetStyle = .async ∨ pins.rising = true) := by
  unfold clockEvent
  split
  · simp_all
  · split <;> simp_all

theorem clockEvent_of_not_clear {c : UnitCfg} {pins : Pins}
    (h : ¬ (c.hasReset = true ∧ pins.reset = true ∧ (c.resetStyle = .async ∨ pins.rising = true))) :
    clockEvent c pins =
      if pins.rising = true ∧ (c.hasEnable = false ∨ pins.en = true) then .capture else .hold := by
  simp_all [clockEvent]

/-! ### Driving a unit -/

theorem clockUnit_of_ne_hold (op : Meaning) (k : Nat) (u : ClockedUnit) {e : ClockEvent} (i : Instr) (s : State)
    (he : e ≠ .hold) : clockUnit op k u e i s = presentOutputs op k { u with slots := clockSlots e i u.slots } s := by
  cases e with
  | clear => rfl
  | capture => rfl
  | hold => exact absurd rfl he

theorem presentOutputs_of_bottom (op : Meaning) (k : Nat) {u : ClockedUnit} {b : RegBits} (s : State)
    (h : lastSlot u.slots = .bottom b) : presentOutputs op k u s =
      .next (((s.setUnit k { u with out := drawOutputs u.cfg.kind s.draws }).drew 1).put
        (drawOutputs u.cfg.kind s.draws)) := by
  simp [presentOutputs, h]

theorem presentOutputs_of_captured {op : Meaning} (k : Nat) {u : ClockedUnit} {j : Instr} {v : Value} {s : State}
    (h : lastSlot u.slots = .captured j) (hop : op j s = .next (s.put v)) :
    presentOutputs op k u s = .next ((s.put v).setUnit k { u with out := v }) := by
  simp [presentOutputs, h, hop]

/-- A unit as elaboration leaves it shows a value on its own ports and on the outputs: a drawn one for ⊥, else that of
the operation of its last slot, which never raises an error (R40). -/
theorem presentOutputs_exec_next {k : Nat} {u : ClockedUnit} {s t : State} (hu : unitOk u = true)
    (h : presentOutputs exec k u s = .next t) :
    ∃ v, t.out = .value v ∧ t.units = s.units.set k { u with out := v } ∧
      (∀ b, lastSlot u.slots = .bottom b → v = drawOutputs u.cfg.kind s.draws) ∧
      ∀ j, lastSlot u.slots = .captured j → exec j s = .next (s.put v) := by
  rcases presentOutputs_next h with ⟨b, hb, rfl⟩ | ⟨j, t', hj, hop, ht⟩
  · exact ⟨_, rfl, rfl, fun _ _ => rfl, fun j hj => by simp [hb] at hj⟩
  · obtain ⟨v, rfl⟩ := exec_next_of_fits (fits_of_lastSlot hu hj) hop
    rcases ht with ⟨v', hv', rfl⟩ | ⟨hno, -⟩
    · obtain rfl : v = v' := by simpa using hv'
      refine ⟨v, rfl, rfl, fun b hb => by simp [hj] at hb, fun j' hj' => ?_⟩
      obtain rfl : j = j' := by simpa [hj] using hj'
      exact hop
    · exact absurd rfl (hno v)

/-- It shows them whenever the operation of its last slot, if there is one, completes. -/
theorem presentOutputs_exec_completes (k : Nat) {u : ClockedUnit} {s : State} (hu : unitOk u = true)
    (hop : ∀ j, lastSlot u.slots = .captured j → ∃ t, exec j s = .next t) :
    ∃ t, presentOutputs exec k u s = .next t := by
  cases hl : lastSlot u.slots with
  | bottom b => exact ⟨_, presentOutputs_of_bottom exec k s hl⟩
  | captured j =>
    obtain ⟨t, ht⟩ := hop j hl
    obtain ⟨v, rfl⟩ := exec_next_of_fits (fits_of_lastSlot hu hl) ht
    exact ⟨_, presentOutputs_of_captured k hl ht⟩

/-- A drive that completes is of an elaborated unit, with inputs of its ports. -/
theorem driveUnit_next {op : Meaning} {k : Nat} {pins : Pins} {i : Instr} {s t : State}
    (h : driveUnit op k pins i s = .next t) : ∃ u, s.units[k]? = some u ∧ fits u.cfg.kind i = true ∧
      clockUnit op k u (clockEvent u.cfg pins) i s = .next t := by
  rcases driveUnit_cases op k pins i s with ⟨-, e⟩ | ⟨u, -, -, e⟩ | ⟨u, -, -, -, e⟩ | ⟨u, hu, -, hf, e⟩
  · simp [e] at h
  · simp [e] at h
  · simp [e] at h
  · exact ⟨u, hu, hf, e ▸ h⟩

theorem driveUnit_of_fits (op : Meaning) {k : Nat} {u : ClockedUnit} (pins : Pins) {i : Instr} {s : State}
    (hk : s.units[k]? = some u) (hu : unitOk u = true) (hf : fits u.cfg.kind i = true) :
    driveUnit op k pins i s = clockUnit op k u (clockEvent u.cfg pins) i s := by
  have ha := ((clockedUnit_unitOk_iff u).mp hu).1
  simp [driveUnit, hk, ha, hf]

/-! ### Elaborating a unit -/

theorem kindFormatsOk_of_admittedKind {k : UnitKind} (h : admittedKind k = true) : kindFormatsOk k = true := by
  cases k with
  | adder F outF path hasRm hasSubtract => exact Bool.and_elim_left h
  | multiplier F outF => exact Bool.and_elim_left h
  | converter Fs Fd => exact h
  | squareRoot u => exact h

theorem elaborateUnit_of_admitted {c : UnitCfg} (h : admitted c = true) (s : State) :
    elaborateUnit c s = .next ((s.addUnit (powerUpUnit c s.draws)).drew 1) := by
  obtain ⟨hk, hl⟩ := (admitted_iff c).mp h
  have hl' : c.latency ≠ 0 := by omega
  simp [elaborateUnit, kindFormatsOk_of_admittedKind hk, hk, hl']

theorem elaborateUnit_of_not_admitted {c : UnitCfg} (h : admitted c = false) (s : State) :
    ∃ r, elaborateUnit c s = .refused r := by
  rcases elaborateUnit_cases c s with hr | ⟨-, hk, hl, -⟩
  · exact hr
  · rw [(admitted_iff c).mpr ⟨hk, hl⟩] at h
    cases h

/-! ### One step -/

theorem step_of_empty {s : State} (h : s.program = []) : step s = .next s := by
  simp [step, takeAction, h]

theorem decode_encode (i : Instr) : decode (encode i) = .ok i := by
  cases i <;> rfl

theorem withDecoded_next {v : Invocation} {f : Instr → StepOutcome} {t : State} (h : withDecoded v f = .next t) :
    ∃ i, decode v = .ok i ∧ f i = .next t := by
  cases hv : decode v with
  | ok i => exact ⟨i, rfl, by rwa [withDecoded_ok hv] at h⟩
  | error e => simp [withDecoded_error hv] at h

/-- Everything a step that completes can do: nothing with an empty queue, else its oldest action. -/
theorem step_next {s t : State} (h : step s = .next t) :
    (s.program = [] ∧ t = s) ∨
    (∃ v rest i, s.program = .invoke v :: rest ∧ decode v = .ok i ∧ exec i s.dropAction = .next t) ∨
    (∃ c rest, s.program = .elaborate c :: rest ∧ elaborateUnit c s.dropAction = .next t) ∨
    (∃ k pins v rest i, s.program = .drive k pins v :: rest ∧ decode v = .ok i ∧
      driveUnit exec k pins i s.dropAction = .next t) := by
  cases hp : s.program with
  | nil =>
    rw [step_of_empty hp] at h
    injection h with h
    exact .inl ⟨rfl, h.symm⟩
  | cons a rest =>
    rw [step_of_program hp] at h
    cases a with
    | invoke v =>
      obtain ⟨i, hi, h⟩ := withDecoded_next h
      exact .inr (.inl ⟨v, rest, i, rfl, hi, h⟩)
    | elaborate c => exact .inr (.inr (.inl ⟨c, rest, rfl, h⟩))
    | drive k pins v =>
      obtain ⟨i, hi, h⟩ := withDecoded_next h
      exact .inr (.inr (.inr ⟨k, pins, v, rest, i, rfl, hi, h⟩))

theorem step_of_drive {s : State} {k : Nat} {pins : Pins} {i : Instr} {rest : List HostAction}
    (h : s.program = .drive k pins (encode i) :: rest) : step s = driveUnit exec k pins i s.dropAction := by
  rw [step_of_program h]
  exact withDecoded_ok (decode_encode i) _

theorem step_of_drive_of_fits {s : State} {k : Nat} {pins : Pins} {i : Instr} {rest : List HostAction} {u : ClockedUnit}
    (hprog : s.program = .drive k pins (encode i) :: rest) (hk : s.units[k]? = some u) (hu : unitOk u = true)
    (hf : fits u.cfg.kind i = true) : step s = clockUnit exec k u (clockEvent u.cfg pins) i s.dropAction :=
  (step_of_drive hprog).trans (driveUnit_of_fits exec pins (s := s.dropAction) hk hu hf)

/-- A drive whose event is not `hold` puts the event's slots in the unit and presents its outputs; it completes whenever
the operation that reached the last slot does. -/
theorem step_of_drive_event {s : State} {k : Nat} {pins : Pins} {i : Instr} {rest : List HostAction} {u : ClockedUnit}
    {e : ClockEvent} (hprog : s.program = .drive k pins (encode i) :: rest) (hk : s.units[k]? = some u)
    (hu : unitOk u = true) (hf : fits u.cfg.kind i = true) (he : clockEvent u.cfg pins = e) (hne : e ≠ .hold)
    (hop : ∀ j, lastSlot (clockSlots e i u.slots) = .captured j → ∃ t, exec j s = .next t) :
    ∃ t u', step s = .next t ∧ t.units[k]? = some u' ∧ u'.slots = clockSlots e i u.slots := by
  have hstep : step s = presentOutputs exec k { u with slots := clockSlots e i u.slots } s.dropAction := by
    rw [step_of_drive_of_fits hprog hk hu hf, he, clockUnit_of_ne_hold _ _ _ _ _ hne]
  have hu' := unitOk_clockSlots e hu hf
  obtain ⟨t, ht⟩ := presentOutputs_exec_completes k (s := s.dropAction) hu' fun j hj =>
    let ⟨_, hj⟩ := hop j hj
    let ⟨t', ht', _⟩ := exec_next_of_same_inputs hj s.dropAction rfl rfl
    ⟨t', ht'⟩
  obtain ⟨v, -, hunits, -⟩ := presentOutputs_exec_next hu' ht
  have hklt : k < s.units.length := (List.getElem?_eq_some_iff.mp hk).1
  exact ⟨t, _, hstep.trans ht, hunits ▸ List.getElem?_set_self hklt, rfl⟩

/-! ### The invariant of the stage slots -/

theorem StagesOk.of_units_eq {s t : State} (hs : StagesOk s) (h : t.units = s.units) : StagesOk t := by
  unfold StagesOk
  rwa [h]

theorem StagesOk.set {s t : State} {k : Nat} {u : ClockedUnit} (hs : StagesOk s) (hu : unitOk u = true)
    (h : t.units = s.units.set k u) : StagesOk t := by
  intro x hx
  rw [h] at hx
  rcases List.mem_or_eq_of_mem_set hx with hx | rfl
  · exact hs x hx
  · exact hu

theorem exec_keeps_stagesOk {i : Instr} {s t : State} (hs : StagesOk s) (h : exec i s = .next t) : StagesOk t := by
  obtain ⟨-, hunits, -⟩ := exec_frame h
  exact hs.of_units_eq hunits

theorem elaborateUnit_keeps_stagesOk {c : UnitCfg} {s t : State} (hs : StagesOk s)
    (h : elaborateUnit c s = .next t) : StagesOk t := by
  rcases elaborateUnit_cases c s with ⟨r, e⟩ | ⟨-, hk, hl, e⟩
  · simp [e] at h
  · rw [e] at h
    injection h with h
    subst h
    intro x hx
    rcases List.mem_append.mp hx with hx | hx
    · exact hs x hx
    · rw [List.mem_singleton.mp hx]
      exact unitOk_powerUpUnit ((admitted_iff c).mpr ⟨hk, hl⟩) _

theorem driveUnit_keeps_stagesOk {k : Nat} {pins : Pins} {i : Instr} {s t : State} (hs : StagesOk s)
    (h : driveUnit exec k pins i s = .next t) : StagesOk t := by
  obtain ⟨u, hk, hf, h⟩ := driveUnit_next h
  have hu := hs u (List.mem_of_getElem? hk)
  by_cases he : clockEvent u.cfg pins = .hold
  · rw [he] at h
    injection h with h
    exact hs.of_units_eq (by rw [← h]; rfl)
  · rw [clockUnit_of_ne_hold _ _ _ _ _ he] at h
    have hu' := unitOk_clockSlots (clockEvent u.cfg pins) hu hf
    obtain ⟨v, -, hunits, -⟩ := presentOutputs_exec_next hu' h
    exact hs.set (u := { u with slots := _, out := v }) hu' hunits

/-! ### The output words -/

/-- Drawn outputs have the widths of the unit's output ports (R40). -/
theorem drawOutputs_widths (k : UnitKind) (c : Nat) :
    match k with
    | .adder _ outF _ _ _ => ∃ w, drawOutputs k c = .word w ∧ w.width = outF.W
    | .multiplier _ outF => ∃ w, drawOutputs k c = .word w ∧ w.width = outF.W
    | .converter _ Fd => ∃ w, drawOutputs k c = .word w ∧ w.width = Fd.W
    | .squareRoot v => ∃ w e, drawOutputs k c = .root w e ∧ w.width = v.F.W := by
  cases k with
  | adder F outF path hasRm hasSubtract => exact ⟨_, rfl, rfl⟩
  | multiplier F outF => exact ⟨_, rfl, rfl⟩
  | converter Fs Fd => exact ⟨_, rfl, rfl⟩
  | squareRoot u => exact ⟨_, _, rfl, rfl⟩

end Sys2Proof.Machine

/-! ### The obligations -/

namespace Sys2Proof.Machine.StateFamily

open Sys2Proof Sys2Proof.Machine

/-- Settles O11: the step's four outcomes each keep every unit's configuration, slot count and slots. -/
theorem everyStepKeepsTheStageInvariant : Obligations.EveryStepKeepsTheStageInvariant := by
  intro s t hs h
  have hdrop : StagesOk s.dropAction := hs
  rcases step_next h with ⟨-, rfl⟩ | ⟨-, -, i, -, -, h⟩ | ⟨c, -, -, h⟩ | ⟨k, pins, -, -, i, -, -, h⟩
  · exact hs
  · exact exec_keeps_stagesOk hdrop h
  · exact elaborateUnit_keeps_stagesOk hdrop h
  · exact driveUnit_keeps_stagesOk hdrop h

/-- Settles O5: every arm of `exec` replies by `put` or `fail`, with draws counted only where it draws. -/
theorem operationsChangeOnlyTheOutputs : Obligations.OperationsChangeOnlyTheOutputs :=
  fun _ _ _ h => exec_frame h

/-- Settles O7, by the two-state reading of every arm of `exec`. -/
theorem outputsDependOnInputsAndParametersOnly : Obligations.OutputsDependOnInputsAndParametersOnly :=
  fun i _ _ hp hd => (RepliesAlike.exec i hp hd).sameOutputs

/-- Settles O56, one event of the control ports after the other. -/
theorem clockEdgeFollowsTheLadder : Obligations.ClockEdgeFollowsTheLadder := by
  intro s k pins i rest u hprog hk hu hf
  have hne := slots_ne_nil_of_unitOk hu
  obtain ⟨-, hlen, -⟩ := (clockedUnit_unitOk_iff u).mp hu
  refine ⟨fun hclr => ?_, fun hclr hcap hop => ?_, fun hclr hcap => ?_⟩
  · have he := (clockEvent_eq_clear_iff u.cfg pins).mpr hclr
    obtain ⟨t, u', ht, hu', hs⟩ := step_of_drive_event hprog hk hu hf he nofun
      fun j hj => by simp [lastSlot_clear i hne] at hj
    refine ⟨t, u', ht, hu', ?_, ?_⟩
    · rw [hs, clockSlots_length _ _ _ hne, hlen]
    · simp [hs, clockSlots]
  · have he := (clockEvent_of_not_clear hclr).trans (if_pos hcap)
    obtain ⟨t, u', ht, hu', hs⟩ := step_of_drive_event hprog hk hu hf he nofun
      fun j hj => hop j ((advance_eq_captured_iff _ j).mp (lastSlot_capture i u.slots ▸ hj))
    refine ⟨t, u', ht, hu', ?_, ?_, fun n hn => ?_⟩
    · rw [hs, clockSlots_length _ _ _ hne, hlen]
    · simp [hs, clockSlots]
    · have hn' : n < u.slots.length - 1 := by omega
      rw [hs, clockSlots, List.getElem?_cons_succ, List.getElem?_map, List.getElem?_dropLast, if_pos hn']
  · have he := (clockEvent_of_not_clear hclr).trans (if_neg hcap)
    have hstep := step_of_drive_of_fits hprog hk hu hf
    rw [he] at hstep
    exact ⟨_, hstep, rfl, rfl⟩

/-- Settles O57: a held drive emits the outputs held, any other presents those of the last slot. -/
theorem clockedOutputsAreTheLastSlots : Obligations.ClockedOutputsAreTheLastSlots := by
  intro s t k pins i rest u hprog hk hu h
  rw [step_of_drive hprog] at h
  obtain ⟨u₀, hk₀, hf, h⟩ := driveUnit_next h
  obtain rfl : u = u₀ := Option.some.inj (hk.symm.trans hk₀)
  refine ⟨fun he => ?_, fun he => ?_⟩
  · rw [he] at h
    injection h with h
    subst h
    exact ⟨hk, rfl⟩
  · rw [clockUnit_of_ne_hold _ _ _ _ _ he] at h
    obtain ⟨v, hout, hunits, hbot, hcap⟩ := presentOutputs_exec_next (unitOk_clockSlots _ hu hf) h
    have hklt : k < s.units.length := (List.getElem?_eq_some_iff.mp hk).1
    have hunit := (congrArg (·[k]?) hunits).trans (List.getElem?_set_self hklt)
    refine ⟨_, hunit, hout, rfl, fun j hj => ?_, fun b hb => ?_⟩
    · exact exec_next_of_same_inputs (hcap j hj) s rfl rfl
    · obtain rfl := hbot b hb
      exact drawOutputs_widths u.cfg.kind _

/-- Settles O3, one kind of action after the other. -/
theorem stepRunsTheDecodedInstruction : Obligations.StepRunsTheDecodedInstruction := by
  intro s rest
  have oldest {a} (hprog : s.program = a :: rest) : step s = runAction exec a { s with program := rest } := by
    rw [step_of_program hprog, dropAction_of_program s hprog]
  refine ⟨fun v i hprog hv => ?_, fun k pins v i hprog hv => ?_, fun c hprog => oldest hprog, step_of_empty⟩
  · exact (oldest hprog).trans (withDecoded_ok hv _)
  · exact (oldest hprog).trans (withDecoded_ok hv _)

/-- Settles O10: no unit at reset, so nothing to hold of one. -/
theorem stageInvariantHoldsAtReset : Obligations.StageInvariantHoldsAtReset :=
  ⟨fun _ hu => absurd hu List.not_mem_nil, rfl⟩

/-- Settles O40: every guard of the five units passes. -/
theorem unitsCompleteOnEveryOperand : Obligations.UnitsCompleteOnEveryOperand := by
  intro F G path rm sub a b s hF ha hb
  refine ⟨fun hG hrm => ⟨?_, ?_, ?_⟩, fun hG => ?_, ?_⟩
  · exact adderUnit_of_ok path false s hF ha hb hG hrm
  · exact adderUnit_of_ok path true s hF ha hb hG hrm
  · rw [Answers, exec, execFmul, withUnitWord_of_ok hF ha, withUnitWord_of_ok hF hb, withOutFormat_of_same hG, emit_eq]
  · rw [Answers, exec, execFcvt, withUnitWord_of_ok hF ha, withUnitFormat_of_ok hG, emit_eq]
  · rw [Answers, exec, execFsqrt, withUnitWord_of_ok hF ha, emit_eq]

/-- Settles O58, by the cases of elaboration. -/
theorem elaborationStartsEverySlotEmpty : Obligations.ElaborationStartsEverySlotEmpty := by
  intro s c rest hprog
  have hstep : step s = elaborateUnit c s.dropAction := step_of_program hprog
  refine ⟨fun ha => ?_, fun ha => ?_⟩
  · refine ⟨_, powerUpUnit c s.draws, hstep.trans (elaborateUnit_of_admitted ha _), rfl, rfl, ?_, ?_, rfl, ?_⟩
    · exact List.length_replicate
    · exact fun x hx => List.eq_of_mem_replicate hx
    · simp [hprog]
  · obtain ⟨r, hr⟩ := elaborateUnit_of_not_admitted ha s.dropAction
    exact ⟨r, hstep.trans hr⟩

end Sys2Proof.Machine.StateFamily
end

section
/-! SUPPORT. The statement about memory and byte order (spec/20_memory.md): BYTE_ORDER passes through every step unread,
because the parameters are read through CANON_NAN, TRUNC_OVERFLOW and RADICES alone. -/

namespace Sys2Proof.Machine

open Sys2Proof

/-- Another BYTE_ORDER put in before an action gives what putting it in afterwards gives, stops included (R62). -/
def IgnoresByteOrder (f : State → StepOutcome) : Prop :=
  ∀ (s : State) (o : ByteOrder), f (s.withByteOrder o) = mapNext (fun t => t.withByteOrder o) (f s)

/-! ### The parameters an operation reads -/

theorem canonNaN_withByteOrder (s : State) (o : ByteOrder) (F : Fmt) :
    canonNaN (s.withByteOrder o).params F = canonNaN s.params F := rfl

theorem rtz_withByteOrder (s : State) (o : ByteOrder) (F : Fmt) :
    rtz (s.withByteOrder o).params F = rtz s.params F := rfl

theorem fromDouble_withByteOrder (s : State) (o : ByteOrder) (c : Nat) (F : Fmt) (rm : RoundingMode) (x : BitVec 64) :
    fromDouble (s.withByteOrder o).params c F rm x = fromDouble s.params c F rm x := by
  simp only [fromDouble, fromDoubleNative32, fromDoubleGeneric, canonNaN_withByteOrder, rtz_withByteOrder]

/-- The binary64 operation of a reference operator reads CANON_NAN only (R194). -/
theorem referenceDouble_withByteOrder (op : Fmt → Word → Word → Word → Word) (s : State) (o : ByteOrder) (F : Fmt)
    (a b : Word) (c : Nat) :
    referenceDouble (double2 op) (s.withByteOrder o).params F a b c = referenceDouble (double2 op) s.params F a b c := by
  simp only [referenceDouble, double2, canonNaN_withByteOrder]

/-! ### An operation's reply under two byte orders -/

namespace RepliesAlike

variable {d : Bool} {s : State} {o : ByteOrder}

theorem eq_mapNext {x x' : StepOutcome} (h : RepliesAlike d s (s.withByteOrder o) x x') :
    x' = mapNext (fun t => t.withByteOrder o) x := by
  cases h <;> rfl

theorem adderUnit_withByteOrder (F outF : Fmt) (path : AdderPath) (rm : Option (BitVec 3)) (a b : Word) (sub : Bool) :
    RepliesAlike d s (s.withByteOrder o) (Machine.adderUnit F outF path rm a b sub s)
      (Machine.adderUnit F outF path rm a b sub (s.withByteOrder o)) := by
  simp only [Machine.adderUnit, canonNaN_withByteOrder]
  exact withUnitWord F a (withUnitWord F b (withOutFormat F outF (ite _ (emit _) (refuse _))))

theorem finishFromDouble_withByteOrder (n : Nat) (F : Fmt) (rm : RoundingMode) (x : BitVec 64) :
    RepliesAlike true s (s.withByteOrder o) (Machine.finishFromDouble F rm x (s.drew n))
      (Machine.finishFromDouble F rm x ((s.withByteOrder o).drew n)) := by
  unfold Machine.finishFromDouble
  cases rangeError F x with
  | some info => exact error n _ _ nofun
  | none =>
    simp only [drew_params, drew_draws, withByteOrder_draws, fromDouble_withByteOrder]
    exact emitDrawing (n + 1) _

theorem reference_withByteOrder (op : Fmt → Word → Word → Word → Word) (F : Fmt) (a b : Word) :
    RepliesAlike true s (s.withByteOrder o) (Machine.reference (double2 op) F a b s)
      (Machine.reference (double2 op) F a b (s.withByteOrder o)) := by
  simp only [Machine.reference, referenceDouble_withByteOrder, withByteOrder_draws]
  exact finishFromDouble_withByteOrder 2 F _ _

/-- The arms of `exec`, by the shape of their guards: those that read no parameter first, then those that do. -/
theorem exec_withByteOrder (i : Instr) :
    RepliesAlike true s (s.withByteOrder o) (Machine.exec i s) (Machine.exec i (s.withByteOrder o)) := by
  cases i with
  | fpPack F sg e m => exact construct F sg e m
  | fpFields F w | fpIsZero F w | fpIsNormal F w | fpIsSubnormal F w | fpIsInf F w | fpIsNaN F w | fpToBitStr F w
  | fpToStr F w => exact withCodecWord F w (emit _)
  | fpCmp Fa a Fb b => exact withCodecWord Fa a (withCodecWord Fb b (ite _ (raise _ _) (emit _)))
  | constNegZero F | constPosZero F | constMinSub F | constMaxSub F => exact constant F _
  | constMinNorm F | constOne F | constOnePlus F | constMaxNorm F => exact normalConstant F _
  | constInf F => exact ite _ (refuse _) (constant F _)
  | fpToDouble F w => exact withCodecWord F w (emitDrawing 1 _)
  | fpFromInts F sg e m => exact ite _ (refuse _) (ite _ (raise _ _) (construct F _ _ _))
  | fpFromBitStr F S X T => exact fromBinaryStrings F S X T
  | fpFromStr F t => exact execFpFromStr F t
  | rndRne bits lsb => exact ite _ (refuse _) (emit _)
  | fpFromDouble x F rm =>
    refine withCodecFormat F ?_
    cases roundingMode rm with
    | none => exact refuse _
    | some mode => exact finishFromDouble_withByteOrder 0 F mode x
  | fpFromRadix F t r =>
    refine withCodecFormat F (ite (r ∉ s.params.radices) (refuse _) ?_)
    cases numeralValue r t with
    | none => exact raise _ _
    | some n => exact ite _ (raise _ _) (emit _)
  | refAdd Fa a Fb b | refSub Fa a Fb b | refMul Fa a Fb b =>
    exact withSameFormat Fa a Fb b (reference_withByteOrder _ Fa a b)
  | refDiv Fa a Fb b =>
    exact withSameFormat Fa a Fb b (ite _ (emitDrawing 3 _) (reference_withByteOrder _ Fa a b))
  | fadd F outF path rm a b => exact adderUnit_withByteOrder F outF path rm a b false
  | fsub F outF path rm a b => exact adderUnit_withByteOrder F outF path rm a b true
  | fmul F outF a b => exact withUnitWord F a (withUnitWord F b (withOutFormat F outF (emit _)))
  | fcvt Fs Fd a => exact withUnitWord Fs a (withUnitFormat Fd (emit _))
  | fsqrt u a => exact withUnitWord u.F a (emit _)

end RepliesAlike

/-! ### One step under two byte orders -/

theorem exec_ignoresByteOrder (i : Instr) : IgnoresByteOrder (exec i) :=
  fun _ _ => (RepliesAlike.exec_withByteOrder i).eq_mapNext

theorem presentOutputs_ignoresByteOrder {op : Meaning} (hop : ∀ i, IgnoresByteOrder (op i)) (k : Nat) (u : ClockedUnit) :
    IgnoresByteOrder (presentOutputs op k u) := by
  intro s o
  cases hl : lastSlot u.slots with
  | bottom b =>
    rw [presentOutputs_of_bottom op k _ hl, presentOutputs_of_bottom op k _ hl]
    rfl
  | captured j =>
    simp only [presentOutputs, hl, hop j s o]
    cases op j s with
    | next t =>
      simp only [mapNext, withByteOrder_out]
      cases t.out <;> rfl
    | fault f => rfl
    | refused r => rfl

theorem clockUnit_ignoresByteOrder {op : Meaning} (hop : ∀ i, IgnoresByteOrder (op i)) (k : Nat) (u : ClockedUnit)
    (e : ClockEvent) (i : Instr) : IgnoresByteOrder (clockUnit op k u e i) := by
  cases e with
  | hold => exact fun _ _ => rfl
  | clear => exact presentOutputs_ignoresByteOrder hop k _
  | capture => exact presentOutputs_ignoresByteOrder hop k _

theorem driveUnit_ignoresByteOrder {op : Meaning} (hop : ∀ i, IgnoresByteOrder (op i)) (k : Nat) (pins : Pins)
    (i : Instr) : IgnoresByteOrder (driveUnit op k pins i) := by
  intro s o
  unfold driveUnit
  rw [withByteOrder_units]
  cases s.units[k]? with
  | none => rfl
  | some u =>
    dsimp only
    split
    · rfl
    · split
      · rfl
      · exact clockUnit_ignoresByteOrder hop k u _ i s o

theorem elaborateUnit_ignoresByteOrder (c : UnitCfg) : IgnoresByteOrder (elaborateUnit c) := by
  intro s o
  unfold elaborateUnit
  split
  · rfl
  · split
    · rfl
    · split <;> rfl

theorem withDecoded_ignoresByteOrder (v : Invocation) {f : Instr → State → StepOutcome}
    (hf : ∀ i, IgnoresByteOrder (f i)) : IgnoresByteOrder (fun s => withDecoded v (fun i => f i s)) := by
  intro s o
  cases hv : decode v with
  | ok i => simpa only [withDecoded_ok hv] using hf i s o
  | error e =>
    simp only [withDecoded_error hv]
    rfl

theorem runAction_ignoresByteOrder {op : Meaning} (hop : ∀ i, IgnoresByteOrder (op i)) (a : HostAction) :
    IgnoresByteOrder (runAction op a) := by
  cases a with
  | invoke v => exact withDecoded_ignoresByteOrder v hop
  | elaborate c => exact elaborateUnit_ignoresByteOrder c
  | drive k pins v => exact withDecoded_ignoresByteOrder v (driveUnit_ignoresByteOrder hop k pins)

end Sys2Proof.Machine

/-! ### The obligation -/

namespace Sys2Proof.Machine.MemoryFamily

open Sys2Proof Sys2Proof.Machine

/-- Settles O8: with an empty queue nothing changes, else the oldest action ignores BYTE_ORDER. -/
theorem byteOrderIsNotObserved : Obligations.ByteOrderIsNotObserved := by
  intro s o
  cases hprog : s.program with
  | nil =>
    rw [step_of_empty hprog, step_of_empty (s := s.withByteOrder o) hprog]
    rfl
  | cons a rest =>
    rw [step_of_program hprog, step_of_program (s := s.withByteOrder o) hprog]
    exact runAction_ignoresByteOrder exec_ignoresByteOrder a s.dropAction o

end Sys2Proof.Machine.MemoryFamily
end

section
/-! SUPPORT. The statements about the encoding (spec/30_encoding.md): the selector map read row by row, the classes of a
word, and the order of finite words by their encodings. -/

namespace Sys2Proof

/-! ### The rows of the selector map -/

/-- A row of the selector map read backwards (R104): some operand values have its shape, and whatever it reads encodes to
the row's selector with the operand values it was read from. -/
structure ReadsRow (op : BitVec 8) (read : List Arg → Option Instr) : Prop where
  reads : ∃ args i, read args = some i
  encode_eq : ∀ {args i}, read args = some i → encode i = ⟨op, args⟩

section Readers

/-! One lemma per reader, for every operation `k` whose encoding has the reader's shape. -/

variable {op : BitVec 8}

theorem readsRow_readFmt {k} (hk : ∀ F, encode (k F) = ⟨op, [.fmt F]⟩ := by intros; rfl) :
    ReadsRow op (readFmt k) where
  reads := ⟨[.fmt fp32], _, rfl⟩
  encode_eq h := by
    unfold readFmt at h
    split at h <;> cases h
    exact hk _

theorem readsRow_readFmtWord {k} (hk : ∀ F w, encode (k F w) = ⟨op, [.fmt F, .word w]⟩ := by intros; rfl) :
    ReadsRow op (readFmtWord k) where
  reads := ⟨[.fmt fp32, .word zeroWord], _, rfl⟩
  encode_eq h := by
    unfold readFmtWord at h
    split at h <;> cases h
    exact hk _ _

theorem readsRow_readTwoValues {k}
    (hk : ∀ Fa a Fb b, encode (k Fa a Fb b) = ⟨op, [.fmt Fa, .word a, .fmt Fb, .word b]⟩ := by intros; rfl) :
    ReadsRow op (readTwoValues k) where
  reads := ⟨[.fmt fp32, .word zeroWord, .fmt fp32, .word zeroWord], _, rfl⟩
  encode_eq h := by
    unfold readTwoValues at h
    split at h <;> cases h
    exact hk _ _ _ _

theorem readsRow_readFields {k}
    (hk : ∀ F s e m, encode (k F s e m) = ⟨op, [.fmt F, .word s, .word e, .word m]⟩ := by intros; rfl) :
    ReadsRow op (readFields k) where
  reads := ⟨[.fmt fp32, zeroField 1, zeroField 8, zeroField 23], _, rfl⟩
  encode_eq h := by
    unfold readFields at h
    split at h <;> cases h
    exact hk _ _ _ _

theorem readsRow_readDouble {k}
    (hk : ∀ x F rm, encode (k x F rm) = ⟨op, [.double x, .fmt F, .rm (some rm)]⟩ := by intros; rfl) :
    ReadsRow op (readDouble k) where
  reads := ⟨[.double 0, .fmt fp32, .rm (some 0)], _, rfl⟩
  encode_eq h := by
    unfold readDouble at h
    split at h <;> cases h
    exact hk _ _ _

theorem readsRow_readInts {k}
    (hk : ∀ F s e m, encode (k F s e m) = ⟨op, [.fmt F, .sized s, .sized e, .sized m]⟩ := by intros; rfl) :
    ReadsRow op (readInts k) where
  reads := ⟨[.fmt fp32, .sized ⟨1, 0⟩, .sized ⟨8, 0⟩, .sized ⟨23, 0⟩], _, rfl⟩
  encode_eq h := by
    unfold readInts at h
    split at h <;> cases h
    exact hk _ _ _ _

theorem readsRow_readStrings {k}
    (hk : ∀ F S X T, encode (k F S X T) = ⟨op, [.fmt F, .str S, .str X, .str T]⟩ := by intros; rfl) :
    ReadsRow op (readStrings k) where
  reads := ⟨[.fmt fp32, .str [], .str [], .str []], _, rfl⟩
  encode_eq h := by
    unfold readStrings at h
    split at h <;> cases h
    exact hk _ _ _ _

theorem readsRow_readString {k} (hk : ∀ F t, encode (k F t) = ⟨op, [.fmt F, .str t]⟩ := by intros; rfl) :
    ReadsRow op (readString k) where
  reads := ⟨[.fmt fp32, .str []], _, rfl⟩
  encode_eq h := by
    unfold readString at h
    split at h <;> cases h
    exact hk _ _

theorem readsRow_readRadix {k} (hk : ∀ F t r, encode (k F t r) = ⟨op, [.fmt F, .str t, .nat r]⟩ := by intros; rfl) :
    ReadsRow op (readRadix k) where
  reads := ⟨[.fmt fp32, .str [], .nat 16], _, rfl⟩
  encode_eq h := by
    unfold readRadix at h
    split at h <;> cases h
    exact hk _ _ _

theorem readsRow_readRound {k}
    (hk : ∀ bits lsb, encode (k bits lsb) = ⟨op, [.word bits, .int lsb]⟩ := by intros; rfl) :
    ReadsRow op (readRound k) where
  reads := ⟨[.word zeroWord, .int 0], _, rfl⟩
  encode_eq h := by
    unfold readRound at h
    split at h <;> cases h
    exact hk _ _

theorem readsRow_readAdder {k}
    (hk : ∀ F outF p rm a b, encode (k F outF p rm a b) =
      ⟨op, [.fmt F, .fmt outF, .path p, .rm rm, .word a, .word b]⟩ := by intros; rfl) :
    ReadsRow op (readAdder k) where
  reads := ⟨[.fmt fp32, .fmt fp32, .path .dual, .rm none, .word zeroWord, .word zeroWord], _, rfl⟩
  encode_eq h := by
    unfold readAdder at h
    split at h <;> cases h
    exact hk _ _ _ _ _ _

theorem readsRow_readMul {k}
    (hk : ∀ F outF a b, encode (k F outF a b) = ⟨op, [.fmt F, .fmt outF, .word a, .word b]⟩ := by intros; rfl) :
    ReadsRow op (readMul k) where
  reads := ⟨[.fmt fp32, .fmt fp32, .word zeroWord, .word zeroWord], _, rfl⟩
  encode_eq h := by
    unfold readMul at h
    split at h <;> cases h
    exact hk _ _ _ _

theorem readsRow_readConv {k}
    (hk : ∀ Fs Fd a, encode (k Fs Fd a) = ⟨op, [.fmt Fs, .fmt Fd, .word a]⟩ := by intros; rfl) :
    ReadsRow op (readConv k) where
  reads := ⟨[.fmt fp32, .fmt fp32, .word zeroWord], _, rfl⟩
  encode_eq h := by
    unfold readConv at h
    split at h <;> cases h
    exact hk _ _ _

theorem readsRow_readSqrt {k}
    (hk : ∀ F x a, encode (k ⟨F, x⟩ a) = ⟨op, [.fmt F, .sqrtSub x, .word a]⟩ := by intros; rfl) :
    ReadsRow op (readSqrt k) where
  reads := ⟨[.fmt fp32, .sqrtSub .rounded, .word zeroWord], _, rfl⟩
  encode_eq h := by
    unfold readSqrt at h
    split at h <;> cases h
    exact hk _ _ _

end Readers

/-- Every row of R104 reads back, in the map's order. -/
theorem readsRow_of_selectorRow {n : Nat} {read : List Arg → Option Instr} (h : selectorRow n = some read) :
    ReadsRow (BitVec.ofNat 8 n) read := by
  unfold selectorRow at h
  split at h <;> cases h
  exacts [readsRow_readFields, readsRow_readFmtWord, readsRow_readFmtWord, readsRow_readFmtWord, readsRow_readFmtWord,
    readsRow_readFmtWord, readsRow_readFmtWord, readsRow_readTwoValues,
    readsRow_readFmt, readsRow_readFmt, readsRow_readFmt, readsRow_readFmt, readsRow_readFmt, readsRow_readFmt,
    readsRow_readFmt, readsRow_readFmt, readsRow_readFmt,
    readsRow_readDouble, readsRow_readFmtWord, readsRow_readInts, readsRow_readStrings, readsRow_readString,
    readsRow_readRadix, readsRow_readFmtWord, readsRow_readFmtWord,
    readsRow_readTwoValues, readsRow_readTwoValues, readsRow_readTwoValues, readsRow_readTwoValues, readsRow_readRound,
    readsRow_readAdder, readsRow_readAdder, readsRow_readMul, readsRow_readConv, readsRow_readSqrt]

/-- The selectors without a row are those R105 lists. -/
theorem selectorRow_eq_none_iff {n : Nat} (hn : n < 256) : selectorRow n = none ↔ Machine.reservedSelector n := by
  unfold Machine.reservedSelector
  fun_cases selectorRow n
  case case36 =>
    simp only [imp_false, true_iff] at *
    omega
  all_goals simp

theorem decode_eq_ok {v : Invocation} {i : Instr} (h : decode v = .ok i) :
    ∃ read, selectorRow v.op.toNat = some read ∧ read v.args = some i := by
  unfold decode at h
  split at h
  · cases h
  next read hr =>
    split at h
    next j hj =>
      cases h
      exact ⟨read, hr, hj⟩
    · cases h

theorem decode_of_selectorRow {op : BitVec 8} {args : List Arg} {read : List Arg → Option Instr} {i : Instr}
    (hr : selectorRow op.toNat = some read) (hi : read args = some i) : decode ⟨op, args⟩ = .ok i := by
  simp only [decode, hr, hi]

theorem decode_of_reserved {op : BitVec 8} (args : List Arg) (h : Machine.reservedSelector op.toNat) :
    decode ⟨op, args⟩ = .error (.reservedSelector op) := by
  simp only [decode, (selectorRow_eq_none_iff op.isLt).mpr h]

theorem encode_of_decode {v : Invocation} {i : Instr} (h : decode v = .ok i) : encode i = v := by
  obtain ⟨read, hr, hi⟩ := decode_eq_ok h
  simpa using (readsRow_of_selectorRow hr).encode_eq hi

theorem exists_decode_of_not_reserved {op : BitVec 8} (h : ¬ Machine.reservedSelector op.toNat) :
    ∃ args i, decode ⟨op, args⟩ = .ok i := by
  have hrow : selectorRow op.toNat ≠ none := mt (selectorRow_eq_none_iff op.isLt).mp h
  obtain ⟨read, hr⟩ := Option.ne_none_iff_exists'.mp hrow
  obtain ⟨args, i, hi⟩ := (readsRow_of_selectorRow hr).reads
  exact ⟨args, i, decode_of_selectorRow hr hi⟩

end Sys2Proof

namespace Sys2Proof.Machine

open Sys2Proof

/-! ### The fields of a word -/

theorem fields_e_lt (F : Fmt) (w : Word) : (fields F w).e < 2 ^ F.E := Nat.mod_lt _ (Nat.two_pow_pos _)

theorem fields_m_lt (F : Fmt) (w : Word) : (fields F w).m < 2 ^ F.M := Nat.mod_lt _ (Nat.two_pow_pos _)

/-- A word of the format's width is its three fields side by side (R80). -/
theorem toNat_eq_fields {F : Fmt} {w : Word} (hw : w.width = F.W) :
    w.toNat = (signOf F w).toNat * 2 ^ (F.E + F.M) + (fields F w).e * 2 ^ F.M + (fields F w).m := by
  have hlt : w.toNat < 2 ^ (F.E + F.M) * 2 := by
    rw [← pow_succ, show F.E + F.M + 1 = w.width by rw [hw, Fmt.W]; omega]
    exact w.bits.isLt
  have hsign : (signOf F w).toNat = w.toNat / 2 ^ (F.E + F.M) := by
    have hbit : signOf F w = w.toNat.testBit (F.W - 1) := rfl
    rw [hbit, show F.W - 1 = F.E + F.M by rw [Fmt.W]; omega, Nat.toNat_testBit,
      Nat.mod_eq_of_lt (Nat.div_lt_of_lt_mul hlt)]
  have hupper : w.toNat / 2 ^ F.M = 2 ^ F.E * (w.toNat / 2 ^ (F.E + F.M)) + (fields F w).e := by
    rw [Nat.add_comm F.E, pow_add, ← Nat.div_div_eq_div_mul]
    exact (Nat.div_add_mod _ _).symm
  calc w.toNat = 2 ^ F.M * (w.toNat / 2 ^ F.M) + (fields F w).m := (Nat.div_add_mod _ _).symm
    _ = _ := by rw [hupper, hsign]; ring

theorem toNat_eq_fields_of_sign_false {F : Fmt} {w : Word} (hw : w.width = F.W) (hs : signOf F w = false) :
    w.toNat = (fields F w).e * 2 ^ F.M + (fields F w).m := by
  simpa [hs] using toNat_eq_fields hw

theorem eall_lt (F : Fmt) : F.eall < 2 ^ F.E := Nat.sub_lt (Nat.two_pow_pos _) Nat.one_pos

theorem eall_pos {F : Fmt} (hF : F.codecOk = true) : 0 < F.eall := by
  have hE : 1 ≤ F.E := ((codecOk_iff F).mp hF).1
  exact Nat.sub_pos_of_lt (Nat.one_lt_two_pow (by omega))

theorem infWordOf_false_toNat (F : Fmt) : (infWordOf F false).toNat = F.eall * 2 ^ F.M := by
  simp [infWordOf, pack_toNat (eall_lt F) (Nat.two_pow_pos _)]

/-! ### The classes of a word -/

/-- R82 and R83, by the exponent field: zero, all ones or neither. -/
theorem exactly_one_class {F : Fmt} (hF : F.codecOk = true) (w : Word) :
    (isZero F w).toNat + (isNormal F w).toNat + (isSubnormal F w).toNat + (isInf F w).toNat + (isNaN F w).toNat = 1 := by
  have hne : 0 ≠ F.eall := (eall_pos hF).ne
  cases hv : F.variant with
  | ieee =>
    simp only [isZero, isNormal, isSubnormal, isInf, isNaN, hv, bne, beq_eq_decide]
    by_cases h0 : (fields F w).e = 0
    · by_cases hm : (fields F w).m = 0 <;> simp [h0, hm, hne]
    · by_cases h1 : (fields F w).e = F.eall
      · by_cases hm : (fields F w).m = 0 <;> simp [h1, hm, hne.symm]
      · simp [h0, h1]
  | e4m3 =>
    simp only [isZero, isNormal, isSubnormal, isInf, isNaN, hv, bne, beq_eq_decide, ← Bool.decide_and]
    by_cases h0 : (fields F w).e = 0
    · by_cases hm : (fields F w).m = 0 <;> simp [h0, hm]
    · by_cases hnan : (fields F w).e = 15 ∧ (fields F w).m = 7
      · simp [hnan]
      · simp [h0, hnan]

theorem isInf_of_e4m3 {F : Fmt} (hv : F.variant = .e4m3) (w : Word) : isInf F w = false := by
  simp [isInf, hv]

theorem e_lt_eall_of_isFinite {F : Fmt} {w : Word} (hv : F.variant = .ieee) (h : isFinite F w = true) :
    (fields F w).e < F.eall := by
  refine Nat.lt_of_le_of_ne (Nat.le_sub_one_of_lt (fields_e_lt F w)) fun he => ?_
  by_cases hm : (fields F w).m = 0 <;> simp [isFinite, isNaN, isInf, hv, he, hm] at h

/-! ### The value of a word of sign 0 in units of the smallest subnormal -/

/-- For the bits `n` below the sign, of which `M` are the mantissa's: the significand scaled by the effective exponent
less one, so that it counts the format's smallest subnormals (R86, R87). -/
def minSubs (M n : Nat) : Nat := ((if n / 2 ^ M ≠ 0 then 2 ^ M else 0) + n % 2 ^ M) * 2 ^ (n / 2 ^ M - 1)

theorem minSubs_of_fields {M e m : Nat} (hm : m < 2 ^ M) :
    minSubs M (e * 2 ^ M + m) = ((if e ≠ 0 then 2 ^ M else 0) + m) * 2 ^ (e - 1) := by
  have hfields : m + 2 ^ M * e = e * 2 ^ M + m := by ring
  obtain ⟨hdiv, hmod⟩ := (Nat.div_mod_unique (Nat.two_pow_pos M)).mpr ⟨hfields, hm⟩
  rw [minSubs, hdiv, hmod]

/-- The next encoding is one unit in the last place higher, also where the mantissa carries into the exponent. -/
theorem minSubs_succ {M e m : Nat} (hm : m < 2 ^ M) :
    minSubs M (e * 2 ^ M + m + 1) = minSubs M (e * 2 ^ M + m) + 2 ^ (e - 1) := by
  rw [minSubs_of_fields hm]
  by_cases hcarry : m + 1 = 2 ^ M
  · have hnext : e * 2 ^ M + m + 1 = (e + 1) * 2 ^ M + 0 := by rw [Nat.add_assoc, hcarry]; ring
    rw [hnext, minSubs_of_fields (Nat.two_pow_pos M), ← hcarry]
    cases e with
    | zero => simp
    | succ e => simp [pow_succ]; ring
  · rw [Nat.add_assoc, minSubs_of_fields (by omega)]
    ring

theorem minSubs_strictMono (M : Nat) : StrictMono (minSubs M) := by
  refine strictMono_nat_of_lt_succ fun n => ?_
  have h := minSubs_succ (e := n / 2 ^ M) (Nat.mod_lt n (Nat.two_pow_pos M))
  rw [Nat.div_add_mod'] at h
  rw [h]
  exact Nat.lt_add_of_pos_right (Nat.two_pow_pos _)

theorem realValue_eq_minSubs {F : Fmt} {w : Word} (hw : w.width = F.W) (hs : signOf F w = false) :
    realValue F w = minSubs F.M w.toNat * (2 : ℝ) ^ (F.emin - F.M) := by
  have hunit : (2 : ℝ) ^ (F.emin - F.M) = 2 ^ F.emin / 2 ^ F.M := by rw [zpow_sub₀ two_ne_zero, zpow_natCast]
  rw [toNat_eq_fields_of_sign_false hw hs, minSubs_of_fields (fields_m_lt F w), hunit]
  simp only [realValue, hs]
  cases he : (fields F w).e with
  | zero => simp; ring
  | succ e =>
    have hexp : ((e + 1 : Nat) : ℤ) - F.bias = e + F.emin := by rw [Fmt.emin]; push_cast; ring
    rw [hexp, zpow_add₀ two_ne_zero]
    simp
    field_simp

/-- R88, on the words whose bit patterns are magnitudes. -/
theorem realValue_lt_iff {F : Fmt} {u v : Word} (hu : u.width = F.W) (hv : v.width = F.W) (hsu : signOf F u = false)
    (hsv : signOf F v = false) : realValue F u < realValue F v ↔ u.toNat < v.toNat := by
  rw [realValue_eq_minSubs hu hsu, realValue_eq_minSubs hv hsv, mul_lt_mul_iff_left₀ (by positivity), Nat.cast_lt]
  exact (minSubs_strictMono F.M).lt_iff_lt

theorem toNat_lt_inf {F : Fmt} {w : Word} (hv : F.variant = .ieee) (hw : w.width = F.W) (hs : signOf F w = false)
    (hfin : isFinite F w = true) : w.toNat < (infWordOf F false).toNat := by
  have he : (fields F w).e + 1 ≤ F.eall := e_lt_eall_of_isFinite hv hfin
  calc w.toNat = (fields F w).e * 2 ^ F.M + (fields F w).m := toNat_eq_fields_of_sign_false hw hs
    _ < ((fields F w).e + 1) * 2 ^ F.M := by rw [Nat.succ_mul]; exact Nat.add_lt_add_left (fields_m_lt F w) _
    _ ≤ F.eall * 2 ^ F.M := Nat.mul_le_mul_right _ he
    _ = (infWordOf F false).toNat := (infWordOf_false_toNat F).symm

end Sys2Proof.Machine

/-! ### The obligations -/

namespace Sys2Proof.Machine.EncodingFamily

open Sys2Proof Sys2Proof.Machine

/-- Settles O1: whatever a row of the selector map reads encodes to that row again. -/
theorem decodeAndEncodeAgree : Obligations.DecodeAndEncodeAgree :=
  ⟨decode_encode, fun _ _ => encode_of_decode⟩

/-- Settles O2: the selectors without a row are R105's, and every row reads some operands. -/
theorem reservedSelectorsAreRefused : Obligations.ReservedSelectorsAreRefused := by
  refine ⟨fun s op args rest hprog h => ?_, fun op h => exists_decode_of_not_reserved h⟩
  exact (step_of_program hprog).trans (withDecoded_error (decode_of_reserved args h) _)

/-- Settles O14: the five predicates answer their model functions, of which exactly one is true. -/
theorem exactlyOneClassHolds : Obligations.ExactlyOneClassHolds := by
  intro F w s hF hw
  have answers (b : Bool) : withCodecWord F w (emit (.bit b) s) = .next (s.put (.bit b)) := withCodecWord_of_ok hF hw
  exact ⟨isZero F w, isNormal F w, isSubnormal F w, isInf F w, isNaN F w, answers _, answers _, answers _, answers _,
    answers _, exactly_one_class hF w, fun hv => isInf_of_e4m3 hv w⟩

/-- Settles O19: both the value and the encoding of a word of sign 0 order it by its count of smallest subnormals. -/
theorem encodingOrderIsMagnitudeOrder : Obligations.EncodingOrderIsMagnitudeOrder := by
  intro F u v _ hu hv hsu hfu
  exact ⟨fun hsv _ => realValue_lt_iff hu hv hsu hsv, fun hieee => toNat_lt_inf hieee hu hsu hfu⟩

/-- Settles O4: each invocation is the encoding of the instruction it decodes to. -/
theorem selectorBytesDecodeToTheirOperations : Obligations.SelectorBytesDecodeToTheirOperations :=
  fun F G a b x lsb sub =>
    ⟨decode_encode (.fpIsZero F a), decode_encode (.fpCmp F a G b), decode_encode (.constOne F),
      decode_encode (.fpFromDouble x F 1), decode_encode (.fpToStr F a), decode_encode (.refDiv F a F b),
      decode_encode (.rndRne a lsb), decode_encode (.fadd F F .dual none a b),
      decode_encode (.fsub F F .single (some 0) a b), decode_encode (.fmul F F a b), decode_encode (.fcvt F G a),
      decode_encode (.fsqrt ⟨F, sub⟩ a)⟩

end Sys2Proof.Machine.EncodingFamily
end

section
/-! SUPPORT. The statements about the common numerics (spec/40_numerics.md): the machine's integer rounding is the rule's
on real numbers, what the rule gives at its corners, and the canonical NaN. -/

namespace Sys2Proof.Machine

open Sys2Proof

/-! ### Rounding to the nearest integer, ties to even -/

open Classical in
/-- The integer of R127's middle lines: the nearest to `x`, a tie going to the even one. -/
noncomputable def tiesToEven (x : ℝ) : ℤ :=
  if x - ⌊x⌋ > 1 / 2 ∨ (x - ⌊x⌋ = 1 / 2 ∧ Odd ⌊x⌋) then ⌊x⌋ + 1 else ⌊x⌋

theorem tiesToEven_intCast (n : ℤ) : tiesToEven n = n := by
  simp [tiesToEven]

/-- At most half a unit away, and less than that when odd. -/
theorem tiesToEven_near (x : ℝ) : (tiesToEven x : ℝ) - 1 / 2 ≤ x ∧ x ≤ tiesToEven x + 1 / 2 ∧
    (Odd (tiesToEven x) → (tiesToEven x : ℝ) - 1 / 2 < x ∧ x < tiesToEven x + 1 / 2) := by
  have hlo := Int.floor_le x
  have hhi := Int.lt_floor_add_one x
  unfold tiesToEven
  split
  case isTrue h =>
    push_cast
    refine ⟨by rcases h with h | h <;> linarith, by linarith, fun hodd => ?_⟩
    have hnot : ¬ Odd ⌊x⌋ := fun h => Int.not_even_iff_odd.mpr hodd h.add_one
    have habove : x - ⌊x⌋ > 1 / 2 := h.resolve_right fun h => hnot h.2
    constructor <;> linarith
  case isFalse h =>
    obtain ⟨hle, htie⟩ := not_or.mp h
    refine ⟨by linarith, by linarith, fun hodd => ⟨by linarith, ?_⟩⟩
    have hbelow : x - ⌊x⌋ < 1 / 2 := (not_lt.mp hle).lt_of_ne fun h => htie ⟨h, hodd⟩
    linarith

theorem le_tiesToEven_iff_of_even {n : ℤ} (hn : Even n) (x : ℝ) : n ≤ tiesToEven x ↔ (n : ℝ) - 1 / 2 ≤ x := by
  obtain ⟨hlo, hhi, hodd⟩ := tiesToEven_near x
  constructor
  · intro h
    have h : (n : ℝ) ≤ tiesToEven x := Int.cast_le.mpr h
    linarith
  · intro h
    by_contra hlt
    rcases eq_or_ne (tiesToEven x) (n - 1) with heq | hne
    · have hstrict := (hodd (heq ▸ hn.sub_odd odd_one)).2
      rw [heq] at hstrict
      push_cast at hstrict
      linarith
    · have h2 : tiesToEven x ≤ n - 2 := by omega
      have h2 : (tiesToEven x : ℝ) ≤ n - 2 := by exact_mod_cast h2
      linarith

theorem le_tiesToEven_iff_of_odd {n : ℤ} (hn : Odd n) (x : ℝ) : n ≤ tiesToEven x ↔ (n : ℝ) - 1 / 2 < x := by
  obtain ⟨hlo, hhi, hodd⟩ := tiesToEven_near x
  constructor
  · intro h
    rcases eq_or_ne (tiesToEven x) n with heq | hne
    · exact heq ▸ (hodd (heq ▸ hn)).1
    · have h1 : n + 1 ≤ tiesToEven x := by omega
      have h1 : (n : ℝ) + 1 ≤ tiesToEven x := by exact_mod_cast h1
      linarith
  · intro h
    by_contra hlt
    have h1 : tiesToEven x ≤ n - 1 := by omega
    have h1 : (tiesToEven x : ℝ) ≤ n - 1 := by exact_mod_cast h1
    linarith

theorem floor_natCast_div (p d : Nat) : ⌊(p : ℝ) / d⌋ = ((p / d : Nat) : ℤ) := by
  rw [← Int.natCast_floor_eq_floor (by positivity), Nat.floor_div_eq_div]

theorem natCast_div_sub_floor {d : Nat} (hd : 0 < d) (p : Nat) :
    (p : ℝ) / d - ((p / d : Nat) : ℝ) = ((p % d : Nat) : ℝ) / d := by
  have hsplit : (p : ℝ) = d * ((p / d : Nat) : ℝ) + ((p % d : Nat) : ℝ) := by exact_mod_cast (Nat.div_add_mod p d).symm
  have hd : (d : ℝ) ≠ 0 := by positivity
  field_simp
  linarith

/-- The machine's rounding of a fraction of naturals is that of the real quotient. -/
theorem tiesToEven_natCast_div {d : Nat} (hd : 0 < d) (p : Nat) : tiesToEven ((p : ℝ) / d) = nearestEven p d := by
  have hd' : (0 : ℝ) < d := by exact_mod_cast hd
  have habove : ((p % d : Nat) : ℝ) / d > 1 / 2 ↔ 2 * (p % d) > d := by
    rw [gt_iff_lt, div_lt_div_iff₀ two_pos hd', one_mul, mul_comm]
    norm_cast
  have htie : ((p % d : Nat) : ℝ) / d = 1 / 2 ↔ 2 * (p % d) = d := by
    rw [div_eq_div_iff hd'.ne' two_ne_zero, one_mul, mul_comm]
    norm_cast
  simp only [tiesToEven, nearestEven, floor_natCast_div, Int.cast_natCast, natCast_div_sub_floor hd, habove, htie,
    Int.odd_coe_nat, Nat.odd_iff, Nat.cast_ite, Nat.cast_add, Nat.cast_one]

theorem le_tiesToEven_of_le {n : ℤ} {x : ℝ} (h : (n : ℝ) ≤ x) : n ≤ tiesToEven x := by
  have hlt : (n : ℝ) < tiesToEven x + 1 := by linarith [(tiesToEven_near x).2.1]
  exact Int.lt_add_one_iff.mp (by exact_mod_cast hlt)

theorem tiesToEven_le_of_le {n : ℤ} {x : ℝ} (h : x ≤ n) : tiesToEven x ≤ n := by
  have hlt : (tiesToEven x : ℝ) < n + 1 := by linarith [(tiesToEven_near x).1]
  exact Int.lt_add_one_iff.mp (by exact_mod_cast hlt)

theorem tiesToEven_eq_zero {x : ℝ} (h0 : 0 ≤ x) (h : x ≤ 1 / 2) : tiesToEven x = 0 := by
  have hlo : 0 ≤ tiesToEven x := le_tiesToEven_of_le (by simpa using h0)
  have hhi : ¬ 1 ≤ tiesToEven x := by
    rw [le_tiesToEven_iff_of_odd odd_one]
    norm_num
    linarith
  omega

theorem tiesToEven_eq_one {x : ℝ} (h1 : 1 / 2 < x) (h2 : x < 3 / 2) : tiesToEven x = 1 := by
  have hlo : 1 ≤ tiesToEven x := by
    rw [le_tiesToEven_iff_of_odd odd_one]
    norm_num
    linarith
  have hhi : ¬ 2 ≤ tiesToEven x := by
    rw [le_tiesToEven_iff_of_even even_two]
    norm_num
    linarith
  omega

theorem tiesToEven_three_halves : tiesToEven (3 / 2) = 2 := by
  refine (tiesToEven_le_of_le ?_).antisymm ((le_tiesToEven_iff_of_even even_two _).mpr ?_) <;> norm_num

theorem roundReal_zero (F : Fmt) (s : Bool) : roundReal F s 0 = zeroWordOf F s := if_pos rfl

theorem roundReal_of_ne_zero (F : Fmt) (s : Bool) {a : ℝ} (ha : a ≠ 0) :
    roundReal F s a = realPack F s (realBinade F a) (tiesToEven (realUlps F a)) (infWordOf F s) :=
  if_neg ha

/-! ### The machine's magnitudes as real numbers -/

theorem toReal_eq_zero_iff {a : Mag} (hd : 0 < a.den) : a.toReal = 0 ↔ a.num = 0 := by
  have hd : (a.den : ℝ) ≠ 0 := by positivity
  simp [Mag.toReal, hd, zpow_ne_zero]

theorem inUlps_den_pos (F : Fmt) {a : Mag} (hd : 0 < a.den) : 0 < (inUlps F a).2 :=
  Nat.mul_pos hd (Nat.two_pow_pos _)

theorem log_mul_two_zpow {x : ℝ} (hx : 0 < x) (k : ℤ) : Int.log 2 (x * 2 ^ k) = Int.log 2 x + k := by
  have hpos : 0 < x * (2 : ℝ) ^ k := by positivity
  refine eq_of_forall_le_iff fun c => ?_
  rw [← Int.zpow_le_iff_le_log one_lt_two hpos, ← sub_le_iff_le_add, ← Int.zpow_le_iff_le_log one_lt_two hx,
    zpow_sub₀ (by norm_num), div_le_iff₀ (by positivity)]
  norm_cast

/-- R126's binade exponent. -/
theorem binade_eq (F : Fmt) {a : Mag} (hn : a.num ≠ 0) (hd : 0 < a.den) : binade F a = realBinade F a.toReal := by
  have hn : 0 < a.num := Nat.pos_of_ne_zero hn
  rw [binade, realBinade, Mag.floorLog2, floorLog2Ratio_eq _ _ hn hd, Mag.toReal, log_mul_two_zpow (by positivity)]

/-- R126's magnitude in units of the last place. -/
theorem inUlps_eq (F : Fmt) {a : Mag} (hn : a.num ≠ 0) (hd : 0 < a.den) :
    ((inUlps F a).1 : ℝ) / (inUlps F a).2 = realUlps F a.toReal := by
  rw [inUlps, scale_toReal, realUlps, binade_eq F hn hd, div_eq_mul_inv, ← zpow_neg, neg_sub]

/-- R127's last lines: carry, overflow, normal, subnormal. -/
theorem packRounded_eq (F : Fmt) (s : Bool) (q : Int) (N : Nat) (ovf : Word) :
    packRounded F s q N ovf = realPack F s q N ovf := by
  have hcarry : (N : ℤ) = 2 ^ (F.M + 1) ↔ N = 2 ^ (F.M + 1) := by norm_cast
  unfold packRounded realPack
  by_cases hN : N = 2 ^ (F.M + 1)
  · simp [hN]
  · have hnormal : (N : ℤ) ≥ 2 ^ F.M ↔ N ≥ 2 ^ F.M := by norm_cast
    have hmant : ((N : ℤ) - 2 ^ F.M).toNat = N - 2 ^ F.M := by
      rw [← Nat.cast_two, ← Nat.cast_pow, Int.toNat_sub]
    simp only [hcarry, hN, if_false, hnormal, hmant, Int.toNat_natCast]

theorem rne_eq_roundReal (F : Fmt) (s : Bool) {a : Mag} (hd : 0 < a.den) : rne F s a = roundReal F s a.toReal := by
  by_cases hn : a.num = 0
  · rw [rne, roundReal, if_pos hn, if_pos ((toReal_eq_zero_iff hd).mpr hn)]
  · rw [rne, if_neg hn, roundReal_of_ne_zero F s (mt (toReal_eq_zero_iff hd).mp hn), packRounded_eq, binade_eq F hn hd,
      ← tiesToEven_natCast_div (inUlps_den_pos F hd), inUlps_eq F hn hd]

theorem rtz_eq_truncReal (p : Params) (F : Fmt) (s : Bool) {a : Mag} (hd : 0 < a.den) :
    rtz p F s a = truncReal p F s a.toReal := by
  by_cases hn : a.num = 0
  · rw [rtz, truncReal, if_pos hn, if_pos ((toReal_eq_zero_iff hd).mpr hn)]
  · rw [rtz, truncReal, if_neg hn, if_neg (mt (toReal_eq_zero_iff hd).mp hn), packRounded_eq, binade_eq F hn hd,
      ← floor_natCast_div, inUlps_eq F hn hd]

/-! ### The constants of a format -/

theorem eall_eq {F : Fmt} (hE : 1 ≤ F.E) : F.eall = 2 * F.bias + 1 := by
  have hhalf : 2 ^ F.E = 2 * 2 ^ (F.E - 1) := by rw [← pow_succ', Nat.sub_add_cancel hE]
  have hpos := Nat.two_pow_pos (F.E - 1)
  rw [Fmt.eall, Fmt.bias]
  omega

theorem bias_pos {F : Fmt} (hE : 2 ≤ F.E) : 0 < F.bias :=
  Nat.sub_pos_of_lt (Nat.one_lt_two_pow (by omega))

theorem emax_eq {F : Fmt} (hv : F.variant = .ieee) : F.emax = F.bias := by
  simp [Fmt.emax, hv]

/-- A unit format has a binade of normal numbers below and above one. -/
theorem emin_lt_emax {F : Fmt} (hF : F.unitOk = true) : F.emin < F.emax := by
  obtain ⟨hv, hE, -⟩ := (unitOk_iff F).mp hF
  have hbias := bias_pos hE
  rw [emax_eq hv, Fmt.emin]
  omega

/-! ### The binade of a positive real -/

theorem emin_le_realBinade (F : Fmt) (a : ℝ) : F.emin ≤ realBinade F a := le_max_right _ _

theorem lt_two_zpow_realBinade (F : Fmt) (a : ℝ) : a < 2 ^ (realBinade F a + 1) := by
  have hlog : a < 2 ^ (Int.log 2 a + 1) := by exact_mod_cast Int.lt_zpow_succ_log_self one_lt_two a
  have hle : Int.log 2 a ≤ realBinade F a := le_max_left _ _
  exact hlog.trans_le (zpow_le_zpow_right₀ one_le_two (by omega))

theorem realBinade_cases (F : Fmt) {a : ℝ} (ha : 0 < a) : realBinade F a = F.emin ∨ 2 ^ realBinade F a ≤ a := by
  rcases max_choice (Int.log 2 a) F.emin with h | h
  · right
    rw [realBinade, h]
    exact_mod_cast Int.zpow_log_le_self one_lt_two ha
  · exact .inl h

theorem realBinade_eq {F : Fmt} {a : ℝ} {q : ℤ} (ha : 0 < a) (hmin : F.emin ≤ q) (hlt : a < 2 ^ (q + 1))
    (hge : q = F.emin ∨ 2 ^ q ≤ a) : realBinade F a = q := by
  have hhi : Int.log 2 a < q + 1 := (Int.lt_zpow_iff_log_lt one_lt_two ha).mp (by exact_mod_cast hlt)
  rcases hge with rfl | hge
  · exact max_eq_right (by omega)
  · have hlo : q ≤ Int.log 2 a := (Int.zpow_le_iff_le_log one_lt_two ha).mp (by exact_mod_cast hge)
    rw [realBinade, max_eq_left (by omega)]
    omega

theorem two_pow_mul_ulp (M : Nat) (q : ℤ) : (2 : ℝ) ^ M * 2 ^ (q - M) = 2 ^ q := by
  rw [← zpow_natCast, ← zpow_add₀ two_ne_zero, add_sub_cancel]

theorem two_pow_succ_mul_ulp (M : Nat) (q : ℤ) : (2 : ℝ) ^ (M + 1) * 2 ^ (q - M) = 2 ^ (q + 1) := by
  rw [pow_succ, mul_right_comm, two_pow_mul_ulp, zpow_add_one₀ two_ne_zero]

/-! ### What a rounding packs -/

/-- `N` units in the last place of binade `q`, as rounding a positive real leaves them: subnormal only in the lowest
binade, and at most the next binade's lowest value. -/
structure InBinade (F : Fmt) (q N : ℤ) : Prop where
  emin_le : F.emin ≤ q
  nonneg : 0 ≤ N
  le_carry : N ≤ 2 ^ (F.M + 1)
  normal : q = F.emin ∨ 2 ^ F.M ≤ N

theorem inBinade_tiesToEven (F : Fmt) {a : ℝ} (ha : 0 < a) :
    InBinade F (realBinade F a) (tiesToEven (realUlps F a)) where
  emin_le := emin_le_realBinade F a
  nonneg := le_tiesToEven_of_le (by rw [realUlps, Int.cast_zero]; positivity)
  le_carry := by
    refine tiesToEven_le_of_le ?_
    rw [realUlps, div_le_iff₀ (by positivity)]
    calc a ≤ 2 ^ (realBinade F a + 1) := (lt_two_zpow_realBinade F a).le
      _ = ((2 ^ (F.M + 1) : ℤ) : ℝ) * 2 ^ (realBinade F a - F.M) := by
        push_cast
        exact (two_pow_succ_mul_ulp F.M _).symm
  normal := by
    refine (realBinade_cases F ha).imp_right fun hge => le_tiesToEven_of_le ?_
    rw [realUlps, le_div_iff₀ (by positivity)]
    push_cast
    rwa [two_pow_mul_ulp]

/-- The mantissa carries into the exponent. -/
theorem pack_carry (F : Fmt) (s : Bool) (e m : Nat) : pack F s e (2 ^ F.M + m) = pack F s (e + 1) m := by
  unfold pack
  congr 1
  ring

/-- Without an overflow the units are packed above the binade's exponent less one, the explicit leading bit carrying. -/
theorem realPack_eq_pack {F : Fmt} {q N : ℤ} (h : InBinade F q N) (hq : q ≤ F.emax)
    (hcarry : N = 2 ^ (F.M + 1) → q < F.emax) (s : Bool) (ovf : Word) :
    realPack F s q N ovf = pack F s (q - F.emin).toNat N.toNat := by
  obtain ⟨hmin, h0, hle, hnormal⟩ := h
  obtain ⟨e, rfl⟩ : ∃ e : Nat, q = e + F.emin := ⟨(q - F.emin).toNat, by omega⟩
  obtain ⟨N, rfl⟩ := Int.eq_ofNat_of_zero_le h0
  have hfield : (e + F.emin + F.bias).toNat = e + 1 := by rw [Fmt.emin]; omega
  have hfield' : (e + F.emin + 1 + F.bias).toNat = e + 2 := by rw [Fmt.emin]; omega
  rw [← packRounded_eq, packRounded, add_sub_cancel_right, Int.toNat_natCast, Int.toNat_natCast]
  by_cases hN : N = 2 ^ (F.M + 1)
  · have hq' : ¬ e + F.emin + 1 > F.emax := by
      have := hcarry (by exact_mod_cast hN)
      omega
    have htwice : 2 ^ (F.M + 1) = 2 ^ F.M + (2 ^ F.M + 0) := by ring
    simp only [hN, if_true, if_neg hq', ge_iff_le, le_refl, hfield', Nat.sub_self]
    rw [htwice, pack_carry, pack_carry]
  · simp only [hN, if_false, if_neg (not_lt.mpr hq), hfield]
    split
    case isTrue hge => rw [← pack_carry, Nat.add_sub_cancel' hge]
    case isFalse hlt =>
      have he : e = 0 := by
        have hlt : (N : ℤ) < 2 ^ F.M := by exact_mod_cast not_le.mp hlt
        omega
      rw [he]

theorem pack_ne_infWordOf {F : Fmt} {e m : Nat} (h : e * 2 ^ F.M + m < F.eall * 2 ^ F.M) (s : Bool) :
    pack F s e m ≠ infWordOf F s := by
  have hsplit : pack F s e m = pack F s (e + m / 2 ^ F.M) (m % 2 ^ F.M) := by
    unfold pack
    congr 1
    have := Nat.div_add_mod m (2 ^ F.M)
    rw [add_mul, mul_comm (m / _)]
    omega
  have he : e + m / 2 ^ F.M < F.eall := by
    rw [add_comm, ← Nat.add_mul_div_right _ _ (Nat.two_pow_pos _)]
    exact Nat.div_lt_of_lt_mul (by rwa [add_comm, mul_comm (2 ^ F.M)])
  intro heq
  have hfields := congrArg (fun w => (fields F w).e) (hsplit.symm.trans heq)
  rw [infWordOf] at hfields
  simp only [fields_pack (he.trans (eall_lt F)) (Nat.mod_lt m (Nat.two_pow_pos _)),
    fields_pack (eall_lt F) (Nat.two_pow_pos F.M)] at hfields
  omega

/-- Without an overflow the exponent field stays below all ones. -/
theorem InBinade.pack_ne_inf {F : Fmt} (hF : F.unitOk = true) {q N : ℤ} (h : InBinade F q N) (hq : q ≤ F.emax)
    (hcarry : N = 2 ^ (F.M + 1) → q < F.emax) (s : Bool) :
    pack F s (q - F.emin).toNat N.toNat ≠ infWordOf F s := by
  obtain ⟨hv, hE, -⟩ := (unitOk_iff F).mp hF
  obtain ⟨hmin, h0, hle, -⟩ := h
  obtain ⟨e, rfl⟩ : ∃ e : Nat, q = e + F.emin := ⟨(q - F.emin).toNat, by omega⟩
  obtain ⟨N, rfl⟩ := Int.eq_ofNat_of_zero_le h0
  have hle : N ≤ 2 * 2 ^ F.M := by
    rw [← pow_succ']
    exact_mod_cast hle
  have hcarry : N = 2 * 2 ^ F.M → e + F.emin < F.emax := fun h => hcarry (by rw [pow_succ']; exact_mod_cast h)
  rw [emax_eq hv, Fmt.emin] at hq hcarry
  refine pack_ne_infWordOf ?_ s
  rw [add_sub_cancel_right, Int.toNat_natCast, Int.toNat_natCast, eall_eq (by omega)]
  rcases hle.eq_or_lt with hN | hN
  · have hexp : e + 2 < 2 * F.bias + 1 := by
      have := hcarry hN
      omega
    calc e * 2 ^ F.M + N = (e + 2) * 2 ^ F.M := by rw [hN, add_mul]
      _ < (2 * F.bias + 1) * 2 ^ F.M := Nat.mul_lt_mul_of_pos_right hexp (Nat.two_pow_pos _)
  · have hexp : e + 2 ≤ 2 * F.bias + 1 := by omega
    calc e * 2 ^ F.M + N < (e + 2) * 2 ^ F.M := by rw [add_mul]; omega
      _ ≤ (2 * F.bias + 1) * 2 ^ F.M := Nat.mul_le_mul_right _ hexp

theorem realPack_eq_inf_iff {F : Fmt} (hF : F.unitOk = true) {q N : ℤ} (h : InBinade F q N) (s : Bool) :
    realPack F s q N (infWordOf F s) = infWordOf F s ↔ F.emax < q ∨ q = F.emax ∧ N = 2 ^ (F.M + 1) := by
  by_cases hover : F.emax < q ∨ q = F.emax ∧ N = 2 ^ (F.M + 1)
  · have hexp : (if N = 2 ^ (F.M + 1) then q + 1 else q) > F.emax := by split <;> omega
    simp [hover, realPack, hexp]
  · obtain ⟨hle, hcarry⟩ : q ≤ F.emax ∧ (N = 2 ^ (F.M + 1) → q < F.emax) := by omega
    rw [realPack_eq_pack h hle hcarry]
    exact iff_of_false (h.pack_ne_inf hF hle hcarry s) hover

/-! ### R128's consequences -/

/-- R128's threshold is the midpoint of the largest normal and the next power of two, in units of the highest binade. -/
theorem overflowMidpoint_eq (F : Fmt) :
    (2 : ℝ) ^ F.emax * (2 - (2 : ℝ) ^ (-(F.M : ℤ) - 1)) = (2 ^ (F.M + 1) - 1 / 2) * 2 ^ (F.emax - F.M) := by
  rw [zpow_sub₀ two_ne_zero, zpow_sub₀ two_ne_zero, zpow_neg, zpow_natCast, zpow_one, pow_succ]
  field_simp

theorem roundReal_eq_inf_iff {F : Fmt} (hF : F.unitOk = true) (s : Bool) {a : ℝ} (ha : 0 ≤ a) :
    roundReal F s a = infWordOf F s ↔ (2 : ℝ) ^ F.emax * (2 - (2 : ℝ) ^ (-(F.M : ℤ) - 1)) ≤ a := by
  have hsmall : (2 : ℝ) ^ (-(F.M : ℤ) - 1) ≤ 1 := zpow_le_one_of_nonpos₀ one_le_two (by omega)
  have hpos : (0 : ℝ) < 2 ^ (-(F.M : ℤ) - 1) := by positivity
  have hmax : (0 : ℝ) < 2 ^ F.emax := by positivity
  rcases ha.eq_or_lt with rfl | ha
  · have hfield : 0 * 2 ^ F.M + 0 < F.eall * 2 ^ F.M := by
      simpa using eall_pos (codecOk_of_unitOk hF)
    rw [roundReal_zero]
    exact iff_of_false (pack_ne_infWordOf hfield s) (not_le.mpr (mul_pos hmax (by linarith)))
  have hin := inBinade_tiesToEven F ha
  rw [roundReal_of_ne_zero F s ha.ne', realPack_eq_inf_iff hF hin]
  rcases lt_trichotomy (realBinade F a) F.emax with hlt | heq | hgt
  · refine iff_of_false (by omega) (not_le.mpr ?_)
    calc a < 2 ^ (realBinade F a + 1) := lt_two_zpow_realBinade F a
      _ ≤ 2 ^ F.emax := zpow_le_zpow_right₀ one_le_two hlt
      _ ≤ _ := le_mul_of_one_le_right hmax.le (by linarith)
  · have heven : Even ((2 : ℤ) ^ (F.M + 1)) := (even_two).pow_of_ne_zero (Nat.succ_ne_zero _)
    have hround := le_tiesToEven_iff_of_even heven (realUlps F a)
    have hcarry : tiesToEven (realUlps F a) = 2 ^ (F.M + 1) ↔ 2 ^ (F.M + 1) ≤ tiesToEven (realUlps F a) :=
      ⟨ge_of_eq, hin.le_carry.antisymm⟩
    rw [overflowMidpoint_eq, ← le_div_iff₀ (by positivity), ← heq, ← realUlps]
    simp only [heq, lt_irrefl, false_or, true_and, hcarry, hround]
    push_cast
    rfl
  · refine iff_of_true (.inl hgt) ?_
    have hnormal : (2 : ℝ) ^ realBinade F a ≤ a :=
      (realBinade_cases F ha).resolve_left fun h => by have := emin_lt_emax hF; omega
    calc _ ≤ (2 : ℝ) ^ F.emax * 2 := mul_le_mul_of_nonneg_left (by linarith) hmax.le
      _ = 2 ^ (F.emax + 1) := (zpow_add_one₀ two_ne_zero _).symm
      _ ≤ 2 ^ realBinade F a := zpow_le_zpow_right₀ one_le_two hgt
      _ ≤ a := hnormal

/-- Below the normal numbers the word counts smallest subnormals, up to the smallest normal number. -/
theorem roundReal_of_lt_normal {F : Fmt} (hF : F.unitOk = true) (s : Bool) {a : ℝ} (ha : 0 < a) (hlt : a < 2 ^ F.emin) :
    roundReal F s a = pack F s 0 (tiesToEven (a / 2 ^ (F.emin - F.M))).toNat := by
  have hq : realBinade F a = F.emin := realBinade_eq ha le_rfl
    (hlt.trans (zpow_lt_zpow_right₀ one_lt_two (by omega))) (.inl rfl)
  have hmax := emin_lt_emax hF
  rw [roundReal_of_ne_zero F s ha.ne', realPack_eq_pack (inBinade_tiesToEven F ha) (by omega) (by omega), hq, sub_self,
    Int.toNat_zero, realUlps, hq]

/-- A word of the format's width is the packing of its fields (R80). -/
theorem eq_pack_fields {F : Fmt} {w : Word} (hw : w.width = F.W) :
    w = pack F (signOf F w) (fields F w).e (fields F w).m := by
  have h := toNat_eq_fields hw
  obtain ⟨n, bits⟩ := w
  subst hw
  unfold pack
  rw [← h]
  simp [Word.ofNat, Word.toNat]

/-- R86 and R87: a magnitude is the significand in units of the last place of the effective exponent. -/
theorem abs_realValue (F : Fmt) (w : Word) :
    |realValue F w| = significand F w * 2 ^ ((effExp F w : ℤ) - F.bias - F.M) := by
  have hsign : |(if signOf F w then -1 else 1 : ℝ)| = 1 := by split <;> simp
  have hscale : (2 : ℝ) ^ ((effExp F w : ℤ) - F.bias - F.M) = 2 ^ ((effExp F w : ℤ) - F.bias) / 2 ^ F.M := by
    rw [zpow_sub₀ two_ne_zero, zpow_natCast]
  rw [realValue, abs_mul, hsign, one_mul, hscale, significand, effExp]
  by_cases he : (fields F w).e = 0
  · rw [if_neg (not_not.mpr he), abs_of_nonneg (by positivity), he, if_neg (by simp), zero_add]
    exact mul_div_left_comm _ _ _
  · rw [if_pos he, abs_of_nonneg (by positivity), max_eq_left (Nat.pos_of_ne_zero he), if_pos (by simpa using he)]
    push_cast
    field_simp

theorem significand_lt (F : Fmt) (w : Word) : significand F w < 2 ^ (F.M + 1) := by
  have hm := fields_m_lt F w
  rw [significand, pow_succ]
  split <;> omega

/-- A significand without the leading bit belongs to the lowest binade (R87). -/
theorem effExp_eq_one_or_le_significand (F : Fmt) (w : Word) : effExp F w = 1 ∨ 2 ^ F.M ≤ significand F w := by
  by_cases he : (fields F w).e = 0
  · exact .inl (by rw [effExp, he]; rfl)
  · exact .inr (by simp [significand, he])

theorem pack_significand (F : Fmt) (s : Bool) (w : Word) :
    pack F s (effExp F w - 1) (significand F w) = pack F s (fields F w).e (fields F w).m := by
  rw [significand, effExp]
  by_cases he : (fields F w).e = 0
  · simp [he]
  · have hpos := Nat.pos_of_ne_zero he
    rw [if_pos (by simpa using he), pack_carry, max_eq_left hpos, Nat.sub_add_cancel hpos]

theorem realBinade_abs_realValue {F : Fmt} {w : Word} (h : 0 < |realValue F w|) :
    realBinade F |realValue F w| = effExp F w - F.bias := by
  have hee : 1 ≤ effExp F w := le_max_right _ _
  have hsig : (significand F w : ℝ) < 2 ^ (F.M + 1) := by exact_mod_cast significand_lt F w
  refine realBinade_eq h (by rw [Fmt.emin]; omega) ?_ ?_
  · calc |realValue F w| < 2 ^ (F.M + 1) * 2 ^ ((effExp F w : ℤ) - F.bias - F.M) := by
          rw [abs_realValue]
          exact mul_lt_mul_of_pos_right hsig (by positivity)
      _ = 2 ^ ((effExp F w : ℤ) - F.bias + 1) := two_pow_succ_mul_ulp F.M _
  · refine (effExp_eq_one_or_le_significand F w).imp (fun h => by rw [h]; rfl) fun hge => ?_
    have hge : (2 : ℝ) ^ F.M ≤ significand F w := by exact_mod_cast hge
    calc (2 : ℝ) ^ ((effExp F w : ℤ) - F.bias) = 2 ^ F.M * 2 ^ ((effExp F w : ℤ) - F.bias - F.M) :=
          (two_pow_mul_ulp F.M _).symm
      _ ≤ |realValue F w| := by
          rw [abs_realValue]
          exact mul_le_mul_of_nonneg_right hge (by positivity)

/-- R128's exactness: no bit of a representable magnitude is rounded away. -/
theorem roundReal_abs_realValue {F : Fmt} (hF : F.unitOk = true) {v : Word} (hw : v.width = F.W)
    (hfin : isFinite F v = true) : roundReal F (signOf F v) |realValue F v| = v := by
  obtain ⟨hv, hE, -⟩ := (unitOk_iff F).mp hF
  have hpack : pack F (signOf F v) (effExp F v - 1) (significand F v) = v :=
    (pack_significand F _ v).trans (eq_pack_fields hw).symm
  rcases (abs_nonneg (realValue F v)).eq_or_lt with h0 | hpos
  · have hsig : significand F v = 0 := by simpa [abs_realValue, zpow_ne_zero] using h0.symm
    have hee : effExp F v = 1 := (effExp_eq_one_or_le_significand F v).resolve_right
      (by rw [hsig]; exact (Nat.two_pow_pos _).not_ge)
    rw [hsig, hee] at hpack
    rw [← h0, roundReal_zero]
    exact hpack
  · have hq := realBinade_abs_realValue hpos
    have hulps : realUlps F |realValue F v| = ((significand F v : ℤ) : ℝ) := by
      rw [realUlps, hq, abs_realValue, mul_div_cancel_right₀ _ (by positivity), Int.cast_natCast]
    have hround : tiesToEven (realUlps F |realValue F v|) = significand F v := by rw [hulps, tiesToEven_intCast]
    have hin := inBinade_tiesToEven F hpos
    have he := e_lt_eall_of_isFinite hv hfin
    rw [eall_eq (by omega)] at he
    have hbias := bias_pos hE
    have hle : realBinade F |realValue F v| ≤ F.emax := by
      rw [hq, emax_eq hv, effExp]
      omega
    have hcarry : tiesToEven (realUlps F |realValue F v|) ≠ 2 ^ (F.M + 1) := by
      rw [hround]
      exact_mod_cast (significand_lt F v).ne
    have hexp : ((effExp F v : ℤ) - F.bias - F.emin).toNat = effExp F v - 1 := by rw [Fmt.emin]; omega
    rw [roundReal_of_ne_zero F _ hpos.ne', realPack_eq_pack hin hle (absurd · hcarry), hround, hq, hexp,
      Int.toNat_natCast, hpack]

/-- Two units of the smallest subnormal are a normal number where the mantissa has one bit. -/
theorem abs_realValue_pack_two {F : Fmt} (hF : F.unitOk = true) (s : Bool) :
    |realValue F (pack F s 0 2)| = 2 * 2 ^ (F.emin - F.M) := by
  obtain ⟨-, hE, hM⟩ := (unitOk_iff F).mp hF
  have hpow : 1 < 2 ^ F.E := Nat.one_lt_two_pow (by omega)
  suffices h : effExp F (pack F s 0 2) = 1 ∧ significand F (pack F s 0 2) = 2 by
    rw [abs_realValue, h.1, h.2]
    rfl
  rcases hM.eq_or_lt with hM | hM
  · have hcarry : pack F s 0 2 = pack F s 1 0 := by
      have h := pack_carry F s 0 0
      rwa [← hM] at h
    rw [effExp, significand, hcarry, fields_pack hpow (Nat.two_pow_pos _), ← hM]
    exact ⟨rfl, rfl⟩
  · have hmant : 2 < 2 ^ F.M := lt_self_pow₀ one_lt_two hM
    rw [effExp, significand, fields_pack (Nat.two_pow_pos _) hmant]
    exact ⟨rfl, rfl⟩

/-! ### The canonical NaN -/

theorem eq_fp8e4m3_of_variant {F : Fmt} (h : F.variant = .e4m3) : F = .named .fp8e4m3 := by
  cases F with
  | generic E M => cases h
  | named n =>
    cases n
    case fp8e4m3 => rfl
    all_goals cases h

/-- R124's default is a NaN of its format. -/
theorem isNaN_defaultNaN {F : Fmt} (hF : F.codecOk = true) : isNaN F (defaultNaN F) = true := by
  obtain ⟨-, hM⟩ := (codecOk_iff F).mp hF
  cases hv : F.variant with
  | ieee =>
    have hmant : 2 ^ (F.M - 1) < 2 ^ F.M := Nat.pow_lt_pow_right one_lt_two (by omega)
    simp [isNaN, defaultNaN, hv, fields_pack (eall_lt F) hmant]
  | e4m3 =>
    obtain rfl := eq_fp8e4m3_of_variant hv
    decide

/-- The default, or a chosen word that is a NaN. -/
theorem canonNaN_cases (p : Params) (F : Fmt) : canonNaN p F = defaultNaN F ∨
    ∃ s m, canonNaN p F = pack F s F.eall m ∧ isNaN F (pack F s F.eall m) = true := by
  unfold canonNaN
  split
  case h_1 => exact .inl rfl
  case h_2 c _ =>
    by_cases h : isNaN F (pack F c.sign F.eall (c.mantissa % 2 ^ F.M)) = true
    · exact .inr ⟨_, _, if_pos h, h⟩
    · exact .inl (if_neg h)

theorem isNaN_canonNaN (p : Params) {F : Fmt} (hF : F.codecOk = true) : isNaN F (canonNaN p F) = true := by
  rcases canonNaN_cases p F with h | ⟨s, m, h, hnan⟩
  · rw [h, isNaN_defaultNaN hF]
  · rw [h, hnan]

@[simp] theorem canonNaN_width (p : Params) (F : Fmt) : (canonNaN p F).width = F.W := by
  rcases canonNaN_cases p F with h | ⟨s, m, h, -⟩
  · rw [h, defaultNaN_width]
  · rw [h, pack_width]

theorem pack_eq_of_same {F G : Fmt} (h : F.same G = true) : pack G = pack F := by
  obtain ⟨hE, hM, -⟩ := (same_iff F G).mp h
  funext s e m
  simp only [pack, Fmt.W, hE, hM]

theorem isNaN_eq_of_same {F G : Fmt} (h : F.same G = true) : isNaN G = isNaN F := by
  obtain ⟨hE, hM, hv⟩ := (same_iff F G).mp h
  funext w
  simp only [isNaN, fields, Fmt.W, Fmt.eall, hE, hM, hv]

/-- The canonical NaN reads the format's triple alone. -/
theorem canonNaN_eq_of_same (p : Params) {F G : Fmt} (h : F.same G = true) : canonNaN p G = canonNaN p F := by
  obtain ⟨hE, hM, hv⟩ := (same_iff F G).mp h
  simp only [canonNaN, defaultNaN, pack_eq_of_same h, isNaN_eq_of_same h, Fmt.eall, hE, hM, hv]

theorem canonNaN_of_no_choice {p : Params} (h : p.canonNaN = []) (F : Fmt) : canonNaN p F = defaultNaN F := by
  simp [canonNaN, h]

theorem isPacked_pack {F : Fmt} (s : Bool) {e m : Nat} (he : e < 2 ^ F.E) (hm : m < 2 ^ F.M) :
    IsPacked F (pack F s e m) s.toNat e m :=
  ⟨rfl, pack_toNat he hm, s.toNat_lt, he, hm⟩

end Sys2Proof.Machine

/-! ### The obligations -/

namespace Sys2Proof.Machine.NumericsFamily

open Sys2Proof Sys2Proof.Machine

/-- Settles O31: the machine's binade, units and integer rounding are the real ones, step by step. -/
theorem roundingFollowsTheExactRule : Obligations.RoundingFollowsTheExactRule :=
  ⟨fun F s _ hd => rne_eq_roundReal F s hd, fun p F s _ hd => rtz_eq_truncReal p F s hd⟩

/-- Settles O32: below the normal numbers the word is the integer rounding itself, and the bounds are its ties. -/
theorem roundingConsequences : Obligations.RoundingConsequences := by
  intro F s hF
  obtain ⟨-, -, hM⟩ := (unitOk_iff F).mp hF
  have hunit : (0 : ℝ) < 2 ^ (F.emin - F.M) := by positivity
  have hhalf : (2 : ℝ) ^ (F.emin - F.M - 1) = 1 / 2 * 2 ^ (F.emin - F.M) := by
    rw [zpow_sub_one₀ two_ne_zero]
    ring
  have hnormal : 1.5 * (2 : ℝ) ^ (F.emin - F.M) < 2 ^ F.emin := by
    calc 1.5 * (2 : ℝ) ^ (F.emin - F.M) < 2 ^ (F.emin - F.M) * 2 := by linarith
      _ = 2 ^ (F.emin - F.M + 1) := (zpow_add_one₀ two_ne_zero _).symm
      _ ≤ 2 ^ F.emin := zpow_le_zpow_right₀ one_le_two (by omega)
  refine ⟨fun a => roundReal_eq_inf_iff hF s, fun a ha hle => ?_, fun a hgt hlt => ?_, ?_, roundReal_zero F s, _, ?_,
    abs_realValue_pack_two hF s⟩
  · rw [hhalf] at hle
    rw [roundReal_of_lt_normal hF s ha (by linarith),
      tiesToEven_eq_zero (by positivity) ((div_le_iff₀ hunit).mpr hle)]
    rfl
  · rw [hhalf] at hgt
    rw [roundReal_of_lt_normal hF s (by linarith) (hlt.trans hnormal),
      tiesToEven_eq_one ((lt_div_iff₀ hunit).mpr hgt) ((div_lt_iff₀ hunit).mpr (by linarith))]
    rfl
  · rintro v hw hfin rfl
    exact roundReal_abs_realValue hF hw hfin
  · have htie : 1.5 * (2 : ℝ) ^ (F.emin - F.M) / 2 ^ (F.emin - F.M) = 3 / 2 := by
      rw [mul_div_cancel_right₀ _ hunit.ne']
      norm_num
    rw [roundReal_of_lt_normal hF s (by positivity) hnormal, htie, tiesToEven_three_halves]
    rfl

/-- Settles O33: a chosen word that is no NaN is not used, and the default is one. -/
theorem canonicalNaNIsOneNaNPerFormat : Obligations.CanonicalNaNIsOneNaNPerFormat := by
  intro p F hF
  refine ⟨isNaN_canonNaN p hF, canonNaN_width p F, fun G => canonNaN_eq_of_same p, fun hp hv => ?_, fun hp hv => ?_⟩
  · obtain ⟨-, hM⟩ := (codecOk_iff F).mp hF
    rw [canonNaN_of_no_choice hp, defaultNaN, hv]
    exact isPacked_pack false (eall_lt F) (Nat.pow_lt_pow_right one_lt_two (by omega))
  · rw [canonNaN_of_no_choice hp, eq_fp8e4m3_of_variant hv]
    rfl

end Sys2Proof.Machine.NumericsFamily
end

section
/-! SUPPORT. The statements about the value codec (spec/41_value_codec.md), its fields, order and constants: what
construction does with its fields, the fields as digits of the packed word, and the constants' values. -/

namespace Sys2Proof

/-! ### Words -/

theorem Word.ext_toNat {a b : Word} (hw : a.width = b.width) (h : a.toNat = b.toNat) : a = b := by
  obtain ⟨n, x⟩ := a
  obtain ⟨n', y⟩ := b
  obtain rfl : n = n' := hw
  exact congrArg _ (BitVec.eq_of_toNat_eq h)

theorem Word.toNat_ofNat {n v : Nat} (h : v < 2 ^ n) : (Word.ofNat n v).toNat = v := by
  simp [Word.ofNat, Word.toNat, Nat.mod_eq_of_lt h]

theorem Word.toNat_lt (w : Word) : w.toNat < 2 ^ w.width := w.bits.isLt

theorem Word.ofNat_toNat (w : Word) : Word.ofNat w.width w.toNat = w :=
  Word.ext_toNat rfl (Word.toNat_ofNat w.toNat_lt)

/-- A word of one bit is that bit. -/
theorem Word.toNat_bit_zero {w : Word} (hw : w.width = 1) : (w.bit 0).toNat = w.toNat := by
  have hlt := w.toNat_lt
  rw [hw, pow_one] at hlt
  rw [Word.bit, Nat.toNat_testBit, pow_zero, Nat.div_one, Nat.mod_eq_of_lt hlt]

end Sys2Proof

namespace Sys2Proof.Machine

open Sys2Proof

theorem doubleWord_ofNat {w : Word} (hw : w.width = 64) : doubleWord (BitVec.ofNat 64 w.toNat) = w := by
  have h : doubleWord (BitVec.ofNat 64 w.toNat) = Word.ofNat 64 w.toNat := rfl
  rw [h, ← hw, Word.ofNat_toNat]

/-! ### Construction -/

theorem construct_of_emptyGeneric {F : Fmt} {e m : Word} (hg : F.isGeneric = true) (h : e.width = 0 ∨ m.width = 0)
    (sg : Word) (s : State) : construct F sg e m s = .refused .emptyGenericField :=
  if_pos ⟨hg, h⟩

theorem construct_of_signWidth {F : Fmt} {sg e m : Word} (hne : ¬ (F.isGeneric = true ∧ (e.width = 0 ∨ m.width = 0)))
    (h : sg.width ≠ 1) (s : State) : construct F sg e m s = .next (s.fail .widthError .signWidth) := by
  rw [construct, if_neg hne, if_pos h, raise_eq]

theorem construct_of_namedWidths {F : Fmt} {sg e m : Word} (hg : F.isGeneric = false) (hs : sg.width = 1)
    (h : e.width ≠ F.E ∨ m.width ≠ F.M) (s : State) :
    construct F sg e m s = .next (s.fail .widthError .fieldWidthOfNamedFormat) := by
  rw [construct, if_neg (by simp [hg]), if_neg (not_not.mpr hs), if_pos ⟨by simp [hg], h⟩, raise_eq]

/-- R160's last case: fields that fit are packed at their own widths. -/
theorem construct_of_fits {F : Fmt} {sg e m : Word} (hs : sg.width = 1)
    (hn : F.isGeneric = false → e.width = F.E ∧ m.width = F.M) (hg : F.isGeneric = true → e.width ≠ 0 ∧ m.width ≠ 0)
    (s : State) :
    construct F sg e m s = .next (s.put (.word (pack (.generic e.width m.width) (sg.bit 0) e.toNat m.toNat))) := by
  have hwidths : ¬ (¬ F.isGeneric = true ∧ (e.width ≠ F.E ∨ m.width ≠ F.M)) := fun ⟨hF, h⟩ => by
    obtain ⟨he, hm⟩ := hn (by simpa using hF)
    exact h.elim (· he) (· hm)
  have hempty : ¬ (F.isGeneric = true ∧ (e.width = 0 ∨ m.width = 0)) := fun ⟨hF, h⟩ =>
    h.elim (hg hF).1 (hg hF).2
  rw [construct, if_neg hempty, if_neg (not_not.mpr hs), if_neg hwidths, emit_eq]

/-- R160 with fields of the format's own widths. -/
theorem construct_of_widths {F : Fmt} (hF : F.codecOk = true) {sg e m : Word} (hs : sg.width = 1) (he : e.width = F.E)
    (hm : m.width = F.M) (s : State) :
    construct F sg e m s = .next (s.put (.word (pack F (sg.bit 0) e.toNat m.toNat))) := by
  obtain ⟨hE, hM⟩ := (codecOk_iff F).mp hF
  rw [construct_of_fits hs (fun _ => ⟨he, hm⟩) (fun _ => by omega), he, hm]
  rfl

theorem isPacked_of_widths {F : Fmt} {sg e m : Word} (hs : sg.width = 1) (he : e.width = F.E) (hm : m.width = F.M) :
    IsPacked F (pack F (sg.bit 0) e.toNat m.toNat) sg.toNat e.toNat m.toNat :=
  Word.toNat_bit_zero hs ▸ isPacked_pack (sg.bit 0) (he ▸ e.toNat_lt) (hm ▸ m.toNat_lt)

theorem fields_pack_of_widths {F : Fmt} {e m : Word} (s : Bool) (he : e.width = F.E) (hm : m.width = F.M) :
    fields F (pack F s e.toNat m.toNat) = ⟨s, e.toNat, m.toNat⟩ :=
  fields_pack (he ▸ e.toNat_lt) (hm ▸ m.toNat_lt)

/-! ### Construction from integers -/

theorem execFpFromInts_of_large {F : Fmt} {sg e m : SizedNat} (hg : F.isGeneric = true → e.width ≠ 0 ∧ m.width ≠ 0)
    (h : 2 ^ sg.width ≤ sg.val ∨ 2 ^ e.width ≤ e.val ∨ 2 ^ m.width ≤ m.val) (s : State) :
    execFpFromInts F sg e m s = .next (s.fail .widthError .integerExceedsItsWidth) := by
  have hempty : ¬ (F.isGeneric = true ∧ (e.width = 0 ∨ m.width = 0)) := fun ⟨hF, h⟩ =>
    h.elim (hg hF).1 (hg hF).2
  rw [execFpFromInts, if_neg hempty, if_pos h, raise_eq]

/-- R187 past its check: FP.PACK of the integers, which refuses an empty generic field itself. -/
theorem execFpFromInts_of_fits (F : Fmt) {sg e m : SizedNat} (hs : sg.val < 2 ^ sg.width) (he : e.val < 2 ^ e.width)
    (hm : m.val < 2 ^ m.width) (s : State) :
    execFpFromInts F sg e m s =
      construct F (Word.ofNat sg.width sg.val) (Word.ofNat e.width e.val) (Word.ofNat m.width m.val) s := by
  unfold execFpFromInts
  split
  next h => exact (construct_of_emptyGeneric h.1 h.2 _ s).symm
  next => rw [if_neg (by omega)]

/-! ### Fields -/

theorem execFpFields_of_ok {F : Fmt} {w : Word} (hF : F.codecOk = true) (hw : w.width = F.W) (s : State) :
    execFpFields F w s = .next (s.put (.fields (Word.ofBool (fields F w).s) (Word.ofNat F.E (fields F w).e)
      (Word.ofNat F.M (fields F w).m))) :=
  withCodecWord_of_ok hF hw

theorem Word.toNat_ofBool (b : Bool) : (Word.ofBool b).toNat = b.toNat := Word.toNat_ofNat b.toNat_lt

theorem Word.ofBool_bit_zero {w : Word} (hw : w.width = 1) : Word.ofBool (w.bit 0) = w :=
  Word.ext_toNat hw.symm (by rw [Word.toNat_ofBool, Word.toNat_bit_zero hw])

/-- R80: a word of the format's width is the packing of its fields. -/
theorem isPacked_fields {F : Fmt} {w : Word} (hw : w.width = F.W) :
    IsPacked F w (signOf F w).toNat (fields F w).e (fields F w).m :=
  ⟨hw, toNat_eq_fields hw, (signOf F w).toNat_lt, fields_e_lt F w, fields_m_lt F w⟩

theorem expField_eq (F : Fmt) (w : Word) : expField F w = (fields F w).e := by
  simp [expField, fields, Word.toNat, Nat.shiftRight_eq_div_pow]

theorem mantField_eq (F : Fmt) (w : Word) : mantField F w = (fields F w).m := by
  simp [mantField, fields, Word.toNat]

/-! ### Comparison -/

/-- Numbers of two digits are ordered by the upper digit, then by the lower one. -/
theorem orderOf_lex {B x x' y y' : Nat} (hy : y < B) (hy' : y' < B) :
    orderOf (x * B + y) (x' * B + y') = if x ≠ x' then orderOf x x' else orderOf y y' := by
  have below {a b c d : Nat} (hc : c < B) (h : a < b) : a * B + c < b * B + d := by
    have := Nat.mul_le_mul_right B (Nat.succ_le_of_lt h)
    rw [Nat.succ_mul] at this
    omega
  rcases lt_trichotomy x x' with h | rfl | h
  · simp [orderOf, h, h.ne, below hy h]
  · simp [orderOf]
  · simp [orderOf, h, h.ne', h.not_gt, below hy' h, (below (d := y) hy' h).not_gt]

theorem toNat_eq_nested {F : Fmt} {w : Word} (hw : w.width = F.W) :
    w.toNat = ((fields F w).s.toNat * 2 ^ F.E + (fields F w).e) * 2 ^ F.M + (fields F w).m := by
  rw [toNat_eq_fields hw, pow_add, signOf]
  ring

/-- R167: the lexicographic order of the fields is that of the packed words. -/
theorem compareFields_eq_orderOf {F G : Fmt} (hE : F.E = G.E) (hM : F.M = G.M) {a b : Word} (ha : a.width = F.W)
    (hb : b.width = G.W) : compareFields (fields F a) (fields G b) = orderOf a.toNat b.toNat := by
  rw [toNat_eq_nested ha, toNat_eq_nested hb, ← hE, ← hM, orderOf_lex (fields_m_lt F a) (hM ▸ fields_m_lt G b),
    orderOf_lex (fields_e_lt F a) (hE ▸ fields_e_lt G b), compareFields]
  have he := fields_e_lt F a
  have he' : (fields G b).e < 2 ^ F.E := hE ▸ fields_e_lt G b
  cases (fields F a).s <;> cases (fields G b).s
  case false.false | true.true => simp
  all_goals
    simp
    intro h
    omega

theorem orderOf_spec (x y : Nat) : (orderOf x y = -1 ∨ orderOf x y = 0 ∨ orderOf x y = 1) ∧
    (orderOf x y = -1 ↔ x < y) ∧ (orderOf x y = 0 ↔ x = y) ∧ (orderOf x y = 1 ↔ y < x) := by
  rcases lt_trichotomy x y with h | rfl | h
  · simp [orderOf, h, h.ne, h.not_gt]
  · simp [orderOf]
  · simp [orderOf, h, h.ne', h.not_gt]

/-! ### Constants -/

theorem constant_of_ok {F : Fmt} (hF : F.codecOk = true) (w : Word) (s : State) :
    constant F w s = .next (s.put (.word w)) :=
  withCodecFormat_of_ok hF

theorem normalConstant_of_ok {F : Fmt} (hF : F.codecOk = true) (hE : 2 ≤ F.E) (w : Word) (s : State) :
    normalConstant F w s = .next (s.put (.word w)) := by
  rw [normalConstant, withCodecFormat_of_ok hF, if_neg (by omega), emit_eq]

theorem execConstInf_of_ieee {F : Fmt} (hF : F.codecOk = true) (hv : F.variant = .ieee) (s : State) :
    execConstInf F s = .next (s.put (.word (infWordOf F false))) := by
  rw [execConstInf, if_neg (by simp [hv]), constant_of_ok hF]

/-- R86 of a packed subnormal or zero of sign 0. -/
theorem realValue_pack_subnormal {F : Fmt} {m : Nat} (hm : m < 2 ^ F.M) :
    realValue F (pack F false 0 m) = 2 ^ F.emin * ((m : ℝ) / 2 ^ F.M) := by
  simp [realValue, signOf, fields_pack (Nat.two_pow_pos F.E) hm]

/-- R86 of a packed normal number of sign 0. -/
theorem realValue_pack_normal {F : Fmt} {e m : Nat} (h0 : e ≠ 0) (he : e < 2 ^ F.E) (hm : m < 2 ^ F.M) :
    realValue F (pack F false e m) = 2 ^ ((e : ℤ) - F.bias) * (1 + (m : ℝ) / 2 ^ F.M) := by
  simp [realValue, signOf, fields_pack he hm, h0]

theorem mall_lt (F : Fmt) : F.mall < 2 ^ F.M := Nat.sub_lt (Nat.two_pow_pos _) Nat.one_pos

theorem natCast_mall_div (F : Fmt) : (F.mall : ℝ) / 2 ^ F.M = 1 - 1 / 2 ^ F.M := by
  rw [Fmt.mall, Nat.cast_sub Nat.one_le_two_pow, sub_div]
  push_cast
  rw [div_self (by positivity)]

theorem bias_lt {F : Fmt} (hE : 1 ≤ F.E) : F.bias < 2 ^ F.E := by
  have h := eall_eq hE
  have := eall_lt F
  omega

end Sys2Proof.Machine

namespace Sys2Proof.Machine.CodecFamily

open Sys2Proof Sys2Proof.Machine

/-- Settles O12, one branch of construction after the other. -/
theorem packFollowsItsRule : Obligations.PackFollowsItsRule := by
  intro F sg e m s
  refine ⟨fun hg h => construct_of_emptyGeneric hg h sg s, fun hne h => construct_of_signWidth hne h s,
    fun hg hs h => construct_of_namedWidths hg hs h s, fun hs hn hg => ⟨_, construct_of_fits hs hn hg s, rfl, ?_⟩⟩
  obtain ⟨-, h, -⟩ := isPacked_of_widths (F := .generic e.width m.width) hs (e := e) rfl (m := m) rfl
  exact h

/-- Settles O13: a word is the packing of the fields cut from it, and cutting undoes packing. -/
theorem fieldsOfAPackedValue : Obligations.FieldsOfAPackedValue := by
  intro F s hF
  refine ⟨fun w hw => ⟨_, _, _, execFpFields_of_ok hF hw s, rfl, rfl, rfl, ?_⟩, fun w hw => ?_,
    fun sg e m hs he hm => ⟨_, construct_of_widths hF hs he hm s, fun s' => ?_⟩⟩
  · rw [Word.toNat_ofBool, Word.toNat_ofNat (fields_e_lt F w), Word.toNat_ofNat (fields_m_lt F w)]
    exact isPacked_fields hw
  · simp [Refuses, exec, execFpFields, withCodecWord, hF, hw]
  · have h := execFpFields_of_ok hF (pack_width F (sg.bit 0) e.toNat m.toNat) s'
    rwa [fields_pack_of_widths _ he hm, Word.ofBool_bit_zero hs, ← he, ← hm, Word.ofNat_toNat, Word.ofNat_toNat] at h

/-- Settles O15: the fields cut from the bits are those the predicates read. -/
theorem classifierPatterns : Obligations.ClassifierPatterns := by
  intro F w s hF hw
  have answers {b b' : Bool} (h : b = b') : withCodecWord F w (emit (.bit b) s) = .next (s.put (.bit b')) :=
    h ▸ withCodecWord_of_ok hF hw
  simp only [expField_eq, mantField_eq]
  refine ⟨answers ?_, answers ?_, fun hv => ⟨answers ?_, answers ?_, answers ?_⟩,
    fun hv => ⟨answers ?_, answers ?_, answers ?_⟩⟩
  all_goals simp [isZero, isSubnormal, isNormal, isInf, isNaN, Fmt.eall, bne, beq_eq_decide, *]

/-- Settles O16: the fields are the digits of the packed word, the uppermost first. -/
theorem compareIsTheRawOrder : Obligations.CompareIsTheRawOrder := by
  intro Fa Fb a b s hFa hFb ha hb
  have hexec : exec (.fpCmp Fa a Fb b) s = (if Fa.E ≠ Fb.E ∨ Fa.M ≠ Fb.M then raise .widthError .compareWidthMismatch s
      else emit (.order (compareFields (fields Fa a) (fields Fb b))) s) := by
    rw [exec, execFpCmp, withCodecWord_of_ok hFa ha, withCodecWord_of_ok hFb hb]
  refine ⟨fun h => by rw [Raises, hexec, if_pos h, raise_eq], fun hE hM => ⟨orderOf a.toNat b.toNat, ?_,
    orderOf_spec _ _⟩⟩
  rw [Answers, hexec, if_neg (by simp [hE, hM]), emit_eq, compareFields_eq_orderOf hE hM ha hb]

/-- Settles O26: integers that fit their widths are field words for FP.PACK. -/
theorem fromIntsChecksThenPacks : Obligations.FromIntsChecksThenPacks := by
  intro F sg e m s
  refine ⟨fun hg h => execFpFromInts_of_large hg h s, fun hs he hm => execFpFromInts_of_fits F hs he hm s,
    fun hF hs he hm hsv hev hmv => ?_⟩
  rw [← pow_one 2, ← hs] at hsv
  rw [← he] at hev
  rw [← hm] at hmv
  have hpack := isPacked_of_widths (sg := Word.ofNat sg.width sg.val) hs (e := Word.ofNat e.width e.val) he
    (m := Word.ofNat m.width m.val) hm
  rw [Word.toNat_ofNat hsv, Word.toNat_ofNat hev, Word.toNat_ofNat hmv] at hpack
  refine ⟨_, (execFpFromInts_of_fits F hsv hev hmv s).trans (construct_of_widths hF hs he hm s), ?_⟩
  rwa [Word.toNat_ofNat hev, Word.toNat_ofNat hmv]

/-- Settles O17: each constant is packed from the fields stated, and its value read from them. -/
theorem zeroSubnormalAndInfinityConstants : Obligations.ZeroSubnormalAndInfinityConstants := by
  intro F s hF
  obtain ⟨-, hM⟩ := (codecOk_iff F).mp hF
  have hE0 := Nat.two_pow_pos F.E
  have hM0 := Nat.two_pow_pos F.M
  have hM1 : 1 < 2 ^ F.M := Nat.one_lt_two_pow (by omega)
  refine ⟨⟨_, constant_of_ok hF _ s, isPacked_pack true hE0 hM0⟩,
    ⟨_, constant_of_ok hF _ s, isPacked_pack false hE0 hM0⟩,
    ⟨_, constant_of_ok hF _ s, isPacked_pack false hE0 hM1, ?_⟩,
      ⟨_, constant_of_ok hF _ s, isPacked_pack false hE0 (mall_lt F), ?_⟩,
    fun hv => ⟨_, execConstInf_of_ieee hF hv s, isPacked_pack false (eall_lt F) hM0⟩, fun hv => if_pos hv⟩
  · rw [realValue_pack_subnormal hM1, zpow_sub₀ two_ne_zero, zpow_natCast, Nat.cast_one, mul_one_div]
  · rw [realValue_pack_subnormal (mall_lt F), natCast_mall_div]

/-- Settles O18: each constant is packed from the fields stated, and its value read from them. -/
theorem normalConstants : Obligations.NormalConstants := by
  intro F s hF hE
  obtain ⟨-, hM⟩ := (codecOk_iff F).mp hF
  have answers (w : Word) : normalConstant F w s = .next (s.put (.word w)) := normalConstant_of_ok hF hE w s
  have hM0 := Nat.two_pow_pos F.M
  have hM1 : 1 < 2 ^ F.M := Nat.one_lt_two_pow (by omega)
  have hE1 : 1 < 2 ^ F.E := Nat.one_lt_two_pow (by omega)
  have hbias : F.bias < 2 ^ F.E := bias_lt (by omega)
  have hbias0 : F.bias ≠ 0 := (bias_pos hE).ne'
  refine ⟨⟨_, answers _, isPacked_pack false hE1 hM0, ?_, fun h2 => ?_⟩,
    ⟨_, answers _, isPacked_pack false hbias hM0, ?_⟩,
    ⟨_, answers _, isPacked_pack false hbias hM1, ?_⟩, ⟨_, answers _, fun hv => ?_, fun hv => ?_⟩⟩
  · simp [realValue_pack_normal one_ne_zero hE1 hM0, Fmt.emin]
  · have hone : F.bias = 1 := by rw [Fmt.bias, h2]; rfl
    rw [Answers, exec, execConstOne, hone, answers]
  · simp [realValue_pack_normal hbias0 hbias hM0]
  · simp [realValue_pack_normal hbias0 hbias hM1]
  · have heall := eall_eq (F := F) (by omega)
    have he : F.eall - 1 < 2 ^ F.E := (Nat.sub_le _ _).trans_lt (eall_lt F)
    have hexp : ((F.eall - 1 : Nat) : ℤ) - F.bias = F.emax := by rw [heall, emax_eq hv]; push_cast; ring
    simp only [maxFinite, hv]
    refine ⟨isPacked_pack false he (mall_lt F), ?_⟩
    rw [realValue_pack_normal (by omega) he (mall_lt F), hexp, natCast_mall_div]
    ring
  · obtain rfl := eq_fp8e4m3_of_variant hv
    refine ⟨isPacked_pack (F := .named .fp8e4m3) (e := 15) (m := 6) false (by decide) (by decide), rfl, ?_⟩
    rw [maxFinite, hv]
    simp only
    rw [realValue_pack_normal (by decide) (by decide) (by decide)]
    norm_num [Fmt.bias, Fmt.E, Fmt.M]

end Sys2Proof.Machine.CodecFamily
end

section
/-! SUPPORT. The string forms of the value codec (spec/41_value_codec.md R188 to R192): binary strings and their
numbers, the three parts between spaces, and numerals of a radix. -/

namespace Sys2Proof.Machine

open Sys2Proof

/-! ### Binary strings -/

/-- The leading character of a binary string counts `2^n`, with `n` characters after it (R100). -/
theorem binaryValue_cons (c : Char) (t : Str) :
    binaryValue (c :: t) = (c == '1').toNat * 2 ^ t.length + binaryValue t := by
  have hfold (n : Nat) :
    t.foldl (fun n c => 2 * n + (if c == '1' then 1 else 0)) n = n * 2 ^ t.length + binaryValue t := by
    unfold binaryValue
    induction t generalizing n with
    | nil => simp
    | cons c t ih =>
      rw [List.foldl_cons, List.foldl_cons, ih, ih (2 * 0 + _), List.length_cons, pow_succ]
      ring
  have h := hfold (2 * 0 + if c == '1' then 1 else 0)
  rw [binaryValue, List.foldl_cons, h]
  cases c == '1' <;> rfl

theorem binaryValue_lt (t : Str) : binaryValue t < 2 ^ t.length := by
  induction t with
  | nil => exact Nat.one_pos
  | cons c t ih =>
    rw [binaryValue_cons, List.length_cons, pow_succ]
    cases c == '1' <;> simp <;> omega

@[simp] theorem binaryWord_width (t : Str) : (binaryWord t).width = t.length := rfl

@[simp] theorem binaryWord_toNat (t : Str) : (binaryWord t).toNat = binaryValue t := Word.toNat_ofNat (binaryValue_lt t)

@[simp] theorem binaryString_length (n v : Nat) : (binaryString n v).length = n := by
  induction n with
  | zero => rfl
  | succ n ih => rw [binaryString, List.length_cons, ih]

theorem isBinary_of_mem_binaryString {n v : Nat} {c : Char} (h : c ∈ binaryString n v) : c = '0' ∨ c = '1' := by
  induction n with
  | zero => cases h
  | succ n ih =>
    rcases List.mem_cons.mp h with rfl | h
    · cases v.testBit n <;> simp
    · exact ih h

theorem mod_two_pow_succ (v n : Nat) : v % 2 ^ (n + 1) = v % 2 ^ n + 2 ^ n * (v.testBit n).toNat := by
  rw [Nat.mod_pow_succ, Nat.toNat_testBit]

/-- A binary string keeps the low bits of its number. -/
theorem binaryValue_binaryString (n v : Nat) : binaryValue (binaryString n v) = v % 2 ^ n := by
  induction n with
  | zero => simp [binaryString, binaryValue, Nat.mod_one]
  | succ n ih =>
    rw [binaryString, binaryValue_cons, ih, binaryString_length, mod_two_pow_succ, Nat.add_comm, Nat.mul_comm]
    cases v.testBit n <;> rfl

theorem binaryString_mod {n k : Nat} (h : n ≤ k) (v : Nat) : binaryString n (v % 2 ^ k) = binaryString n v := by
  induction n with
  | zero => rfl
  | succ n ih =>
    have hbit : (v % 2 ^ k).testBit n = v.testBit n := by
      rw [Nat.testBit_mod_two_pow, decide_eq_true (by omega), Bool.true_and]
    rw [binaryString, binaryString, ih (by omega), hbit]

/-- A binary string is written back from its number. -/
theorem binaryString_binaryValue {t : Str} (h : ∀ c ∈ t, c = '0' ∨ c = '1') :
    binaryString t.length (binaryValue t) = t := by
  induction t with
  | nil => rfl
  | cons c t ih =>
    have hlow : binaryValue (c :: t) % 2 ^ t.length = binaryValue t := by
      rw [binaryValue_cons, Nat.mul_add_mod', Nat.mod_eq_of_lt (binaryValue_lt t)]
    have hbit : (binaryValue (c :: t)).testBit t.length = (c == '1') := by
      rw [Nat.testBit_eq_decide_div_mod_eq, binaryValue_cons, Nat.mul_comm, Nat.mul_add_div (Nat.two_pow_pos _),
        Nat.div_eq_of_lt (binaryValue_lt t)]
      cases c == '1' <;> rfl
    rw [List.length_cons, binaryString, hbit, ← binaryString_mod le_rfl, hlow,
      ih fun c hc => h c (List.mem_cons_of_mem _ hc)]
    rcases h c List.mem_cons_self with rfl | rfl <;> rfl

/-! ### Reading three binary strings -/

theorem isBinaryDigit_iff (c : Char) : isBinaryDigit c = true ↔ c = '0' ∨ c = '1' := by
  simp [isBinaryDigit]

theorem all_isBinaryDigit_iff (S X T : Str) :
    (S.all isBinaryDigit = true ∧ X.all isBinaryDigit = true ∧ T.all isBinaryDigit = true) ↔
      ∀ c ∈ S ++ X ++ T, c = '0' ∨ c = '1' := by
  simp only [List.all_eq_true, isBinaryDigit_iff, List.mem_append, or_imp, forall_and, and_assoc]

theorem fromBinaryStrings_of_emptyGeneric {F : Fmt} {X T : Str} (hg : F.isGeneric = true) (h : X = [] ∨ T = [])
    (S : Str)
    (s : State) : fromBinaryStrings F S X T s = .refused .emptyGenericField :=
  if_pos ⟨hg, h⟩

theorem fromBinaryStrings_of_notBinary {F : Fmt} {S X T : Str} (hne : ¬ (F.isGeneric = true ∧ (X = [] ∨ T = [])))
    (h : ∃ c ∈ S ++ X ++ T, c ≠ '0' ∧ c ≠ '1') (s : State) :
    fromBinaryStrings F S X T s = .next (s.fail .malformedInput .notABinaryDigit) := by
  have hbad : ¬ ∀ c ∈ S ++ X ++ T, c = '0' ∨ c = '1' := by push Not; exact h
  rw [fromBinaryStrings, if_neg hne, if_pos (mt (all_isBinaryDigit_iff S X T).mp hbad), raise_eq]

theorem fromBinaryStrings_of_empty {F : Fmt} {S X T : Str} (hne : ¬ (F.isGeneric = true ∧ (X = [] ∨ T = [])))
    (hbin : ∀ c ∈ S ++ X ++ T, c = '0' ∨ c = '1') (h : S = [] ∨ X = [] ∨ T = []) (s : State) :
    fromBinaryStrings F S X T s = .next (s.fail .malformedInput .emptyString) := by
  rw [fromBinaryStrings, if_neg hne, if_neg (not_not.mpr ((all_isBinaryDigit_iff S X T).mpr hbin)), if_pos h, raise_eq]

theorem fromBinaryStrings_of_binary (F : Fmt) {S X T : Str} (hbin : ∀ c ∈ S ++ X ++ T, c = '0' ∨ c = '1') (hS : S ≠ [])
    (hX : X ≠ []) (hT : T ≠ []) (s : State) :
    fromBinaryStrings F S X T s = construct F (binaryWord S) (binaryWord X) (binaryWord T) s := by
  rw [fromBinaryStrings, if_neg (by simp [hX, hT]), if_neg (not_not.mpr ((all_isBinaryDigit_iff S X T).mpr hbin)),
    if_neg (by simp [hS, hX, hT])]

/-- R188 with strings of the format's own widths. -/
theorem fromBinaryStrings_of_widths {F : Fmt} (hF : F.codecOk = true) {S X T : Str}
    (hbin : ∀ c ∈ S ++ X ++ T, c = '0' ∨ c = '1') (hS : S.length = 1) (hX : X.length = F.E) (hT : T.length = F.M)
    (s : State) :
    fromBinaryStrings F S X T s =
      .next (s.put (.word (pack F ((binaryWord S).bit 0) (binaryWord X).toNat (binaryWord T).toNat))) := by
  obtain ⟨hE, hM⟩ := (codecOk_iff F).mp hF
  rw [fromBinaryStrings_of_binary F hbin (List.ne_nil_of_length_pos (by omega)) (List.ne_nil_of_length_pos (by omega))
    (List.ne_nil_of_length_pos (by omega)), construct_of_widths hF hS hX hT]

/-! ### Splitting at spaces -/

theorem splitAtSpaces_ne_nil (t : Str) : splitAtSpaces t ≠ [] := by
  cases t with
  | nil => simp [splitAtSpaces]
  | cons c t =>
    rw [splitAtSpaces]
    split
    · simp
    · split <;> simp

theorem splitAtSpaces_space (t : Str) : splitAtSpaces (' ' :: t) = [] :: splitAtSpaces t := by
  obtain ⟨part, parts, h⟩ := List.exists_cons_of_ne_nil (splitAtSpaces_ne_nil t)
  simp [splitAtSpaces, h]

theorem splitAtSpaces_cons {c : Char} (hc : c ≠ ' ') {t part : Str} {parts : List Str}
    (h : splitAtSpaces t = part :: parts) : splitAtSpaces (c :: t) = (c :: part) :: parts := by
  simp [splitAtSpaces, h, hc]

theorem splitAtSpaces_length (t : Str) : (splitAtSpaces t).length = t.count ' ' + 1 := by
  induction t with
  | nil => rfl
  | cons c t ih =>
    by_cases hc : c = ' '
    · rw [hc, splitAtSpaces_space, List.length_cons, ih, List.count_cons_self]
    · obtain ⟨part, parts, h⟩ := List.exists_cons_of_ne_nil (splitAtSpaces_ne_nil t)
      rw [splitAtSpaces_cons hc h, List.count_cons_of_ne hc, ← ih, h, List.length_cons, List.length_cons]

theorem splitAtSpaces_of_not_mem {S : Str} (h : ' ' ∉ S) : splitAtSpaces S = [S] := by
  induction S with
  | nil => rfl
  | cons c S ih =>
    obtain ⟨hc, hS⟩ := List.ne_and_not_mem_of_not_mem_cons h
    exact splitAtSpaces_cons hc.symm (ih hS)

theorem splitAtSpaces_append {S : Str} (h : ' ' ∉ S) (t : Str) :
    splitAtSpaces (S ++ ' ' :: t) = S :: splitAtSpaces t := by
  induction S with
  | nil => exact splitAtSpaces_space t
  | cons c S ih =>
    obtain ⟨hc, hS⟩ := List.ne_and_not_mem_of_not_mem_cons h
    exact splitAtSpaces_cons hc.symm (ih hS)

theorem execFpFromStr_of_parts {S X T : Str} (hS : ' ' ∉ S) (hX : ' ' ∉ X) (hT : ' ' ∉ T) (F : Fmt) (s : State) :
    execFpFromStr F (S ++ ' ' :: (X ++ ' ' :: T)) s = fromBinaryStrings F S X T s := by
  rw [execFpFromStr, splitAtSpaces_append hS, splitAtSpaces_append hX, splitAtSpaces_of_not_mem hT]

theorem execFpFromStr_of_count {t : Str} (h : t.count ' ' ≠ 2) (F : Fmt) (s : State) :
    execFpFromStr F t s = .next (s.fail .malformedInput .notThreeParts) := by
  have hlen := splitAtSpaces_length t
  unfold execFpFromStr
  split
  next hparts =>
    rw [hparts] at hlen
    exact absurd (by simpa using hlen.symm) h
  next => rfl

theorem space_not_mem {t : Str} (h : ∀ c ∈ t, c = '0' ∨ c = '1') : ' ' ∉ t := fun hmem => by
  have := h _ hmem
  revert this
  decide

/-! ### Numerals -/

/-- R102 on a string of digits of the radix: the positional value. -/
theorem numeralFrom_of_digits {r : Nat} {t : Str} (h : ∀ c ∈ t, ∃ d, digitValue c = some d ∧ d < r) (n : Nat) :
    numeralFrom r n t = some (t.foldl (fun n c => n * r + (digitValue c).getD 0) n) := by
  induction t generalizing n with
  | nil => rfl
  | cons c t ih =>
    obtain ⟨d, hd, hlt⟩ := h c List.mem_cons_self
    simp [numeralFrom, hd, hlt, ih fun c hc => h c (List.mem_cons_of_mem _ hc)]

/-- R102 on a string with a character that is no digit of the radix. -/
theorem numeralFrom_of_not_digit {r : Nat} {t : Str} (h : ∃ c ∈ t, ∀ d, digitValue c = some d → r ≤ d) (n : Nat) :
    numeralFrom r n t = none := by
  induction t generalizing n with
  | nil => simp at h
  | cons c t ih =>
    unfold numeralFrom
    split
    next d hd =>
      split
      next hlt =>
        refine ih ?_ _
        obtain ⟨c', hc', hbad⟩ := h
        rcases List.mem_cons.mp hc' with rfl | hc'
        · exact absurd (hbad d hd) (by omega)
        · exact ⟨c', hc', hbad⟩
      next => rfl
    next => rfl

theorem numeralFrom_append {r n k : Nat} {t : Str} (h : numeralFrom r n t = some k) (u : Str) :
    numeralFrom r n (t ++ u) = numeralFrom r k u := by
  induction t generalizing n with
  | nil => rw [List.nil_append, ← Option.some.inj h]
  | cons c t ih =>
    rw [List.cons_append, numeralFrom]
    rw [numeralFrom] at h
    split at h
    next d hd =>
      split at h
      next hlt => simp only [hlt, if_true, ih h]
      next => cases h
    next => cases h

theorem digitValue_digitChar {d : Nat} (h : d < 16) : digitValue d.digitChar = some d := by
  revert d
  decide

theorem numeralFrom_digitChar {r d : Nat} (hd : d < r) (hr : r ≤ 16) (n : Nat) :
    numeralFrom r n [d.digitChar] = some (n * r + d) := by
  simp [numeralFrom, digitValue_digitChar (hd.trans_le hr), hd]

/-- R102 reads a standard numeral as its number, one digit after the other from the last. -/
theorem numeralFrom_toDigits {r : Nat} (h2 : 2 ≤ r) (hr : r ≤ 16) (n : Nat) :
    numeralFrom r 0 (Nat.toDigits r n) = some n := by
  induction n using Nat.strong_induction_on with
  | _ n ih =>
    rcases lt_or_ge n r with hlt | hge
    · rw [Nat.toDigits_of_lt_base hlt, numeralFrom_digitChar hlt hr, Nat.zero_mul, Nat.zero_add]
    · rw [Nat.toDigits_of_base_le h2 hge, numeralFrom_append (ih _ (Nat.div_lt_self (by omega) h2)),
        numeralFrom_digitChar (Nat.mod_lt _ (by omega)) hr, Nat.div_add_mod']

theorem execFpFromRadix_of_none {F : Fmt} (hF : F.codecOk = true) {t : Str} {r : Nat} {s : State}
    (hr : r ∈ s.params.radices) (h : numeralValue r t = none) :
    execFpFromRadix F t r s = .next (s.fail .malformedInput .notANumeral) := by
  simp [execFpFromRadix, hF, hr, h]

theorem execFpFromRadix_of_some {F : Fmt} (hF : F.codecOk = true) {t : Str} {r n : Nat} {s : State}
    (hr : r ∈ s.params.radices) (h : numeralValue r t = some n) :
    execFpFromRadix F t r s =
      if 2 ^ F.W ≤ n then .next (s.fail .widthError .numeralTooWide) else .next (s.put (.word (Word.ofNat F.W n))) := by
  simp [execFpFromRadix, hF, hr, h]

/-! ### The strings of a word -/

theorem isBinary_fieldStrings {F : Fmt} {w : Word} :
    ∀ c ∈ signString F w ++ exponentString F w ++ mantissaString F w, c = '0' ∨ c = '1' := by
  intro c hc
  simp only [List.mem_append] at hc
  rcases hc with (hc | hc) | hc <;> exact isBinary_of_mem_binaryString hc

/-- R191's strings denote the fields. -/
theorem binaryValue_fieldStrings (F : Fmt) (w : Word) : binaryValue (signString F w) = (signOf F w).toNat ∧
    binaryValue (exponentString F w) = (fields F w).e ∧ binaryValue (mantissaString F w) = (fields F w).m := by
  simp only [signString, exponentString, mantissaString, binaryValue_binaryString]
  exact ⟨Nat.mod_eq_of_lt (signOf F w).toNat_lt, Nat.mod_eq_of_lt (fields_e_lt F w), Nat.mod_eq_of_lt (fields_m_lt F w)⟩

/-- Reading a word's strings back gives the word. -/
theorem fromBinaryStrings_fieldStrings {F : Fmt} (hF : F.codecOk = true) {w : Word} (hw : w.width = F.W) (s : State) :
    fromBinaryStrings F (signString F w) (exponentString F w) (mantissaString F w) s = .next (s.put (.word w)) := by
  obtain ⟨hs, he, hm⟩ := binaryValue_fieldStrings F w
  have hsign : (binaryWord (signString F w)).bit 0 = signOf F w := by
    have hwidth : (binaryWord (signString F w)).width = 1 := binaryString_length 1 _
    have h := Word.toNat_bit_zero hwidth
    rw [binaryWord_toNat, hs] at h
    revert h
    cases Word.bit _ 0 <;> cases signOf F w <;> simp
  rw [fromBinaryStrings_of_widths hF isBinary_fieldStrings (binaryString_length _ _) (binaryString_length _ _)
    (binaryString_length _ _), binaryWord_toNat, binaryWord_toNat, he, hm, hsign, ← eq_pack_fields hw]

theorem put_ne_fail (s : State) (v : Value) (e : ErrorCode) (info : ErrorInfo) : s.fail e info ≠ s.put v := fun h => by
  have := congrArg State.out h
  simp at this

/-- R188 answers only for binary strings, the sign one of one character. -/
theorem binary_of_fromBinaryStrings {F : Fmt} {S X T : Str} {s : State} {v : Value}
    (h : fromBinaryStrings F S X T s = .next (s.put v)) : (∀ c ∈ S ++ X ++ T, c = '0' ∨ c = '1') ∧ S.length = 1 := by
  by_cases hgen : F.isGeneric = true ∧ (X = [] ∨ T = [])
  · rw [fromBinaryStrings_of_emptyGeneric hgen.1 hgen.2] at h
    cases h
  by_cases hbin : ∀ c ∈ S ++ X ++ T, c = '0' ∨ c = '1'
  · refine ⟨hbin, ?_⟩
    by_cases hempty : S = [] ∨ X = [] ∨ T = []
    · rw [fromBinaryStrings_of_empty hgen hbin hempty] at h
      injection h with h
      exact absurd h (put_ne_fail s v _ _)
    · obtain ⟨hS, hX, hT⟩ : S ≠ [] ∧ X ≠ [] ∧ T ≠ [] := by simpa using hempty
      by_contra hlen
      have hne : ¬ (F.isGeneric = true ∧ ((binaryWord X).width = 0 ∨ (binaryWord T).width = 0)) := by simp [hX, hT]
      rw [fromBinaryStrings_of_binary F hbin hS hX hT, construct_of_signWidth hne hlen] at h
      injection h with h
      exact put_ne_fail s v _ _ h
  · rw [fromBinaryStrings_of_notBinary hgen (by push Not at hbin; exact hbin)] at h
    injection h with h
    exact absurd h (put_ne_fail s v _ _)

/-- The word that three strings of the format's widths denote is written back as those strings. -/
theorem spacedString_pack {F : Fmt} {S X T : Str} (hbin : ∀ c ∈ S ++ X ++ T, c = '0' ∨ c = '1') (hS : S.length = 1)
    (hX : X.length = F.E) (hT : T.length = F.M) :
    spacedString F (pack F ((binaryWord S).bit 0) (binaryWord X).toNat (binaryWord T).toNat) =
      S ++ ' ' :: (X ++ ' ' :: T) := by
  simp only [List.mem_append, or_imp, forall_and] at hbin
  obtain ⟨⟨hbS, hbX⟩, hbT⟩ := hbin
  have hsign : binaryString 1 ((binaryWord S).bit 0).toNat = S := by
    rw [Word.toNat_bit_zero hS, binaryWord_toNat, ← hS, binaryString_binaryValue hbS]
  rw [spacedString, signString, exponentString, mantissaString,
    fields_pack_of_widths (e := binaryWord X) (m := binaryWord T) _ hX hT, hsign, binaryWord_toNat, binaryWord_toNat,
      ← hX,
    ← hT, binaryString_binaryValue hbX, binaryString_binaryValue hbT]

end Sys2Proof.Machine

namespace Sys2Proof.Machine.CodecFamily

open Sys2Proof Sys2Proof.Machine

/-- Settles O27: after the checks a string form is construction from the strings' numbers. -/
theorem fromStringForms : Obligations.FromStringForms := by
  intro F s
  refine ⟨fun S X T hg h => fromBinaryStrings_of_emptyGeneric hg h S s,
    fun S X T hne h => fromBinaryStrings_of_notBinary hne h s,
    fun S X T hne hbin h => fromBinaryStrings_of_empty hne hbin h s,
    fun S X T hbin hS hX hT => fromBinaryStrings_of_binary F hbin hS hX hT s, fun S X T hF hbin hS hX hT => ?_,
    fun S X T hS hX hT => execFpFromStr_of_parts hS hX hT F s, fun t h => execFpFromStr_of_count h F s⟩
  have hpack := fromBinaryStrings_of_widths hF hbin hS hX hT s
  simp only [List.mem_append, or_imp, forall_and] at hbin
  obtain ⟨⟨hbS, hbX⟩, hbT⟩ := hbin
  exact ⟨_, hpack,
    (execFpFromStr_of_parts (space_not_mem hbS) (space_not_mem hbX) (space_not_mem hbT) F s).trans hpack,
    isPacked_of_widths (sg := binaryWord S) hS (e := binaryWord X) hX (m := binaryWord T) hT⟩

/-- Settles O28: a string of digits has its positional value, and a standard numeral reads back as its number. -/
theorem fromRadixReadsTheNumeral : Obligations.FromRadixReadsTheNumeral := by
  intro F t r s hF
  have value (h : t ≠ []) : numeralValue r t = numeralFrom r 0 t := if_neg h
  refine ⟨fun hr => by simp [Refuses, exec, execFpFromRadix, hF, hr], fun hr h => ?_, fun hr hne hd => ?_,
    fun n hr h2 h16 hn ht => ?_⟩
  · refine execFpFromRadix_of_none hF hr ?_
    by_cases ht : t = []
    · exact if_pos ht
    · rw [value ht, numeralFrom_of_not_digit (h.resolve_left ht)]
  · have hexec := execFpFromRadix_of_some hF hr ((value hne).trans (numeralFrom_of_digits hd 0))
    exact ⟨fun hn => hexec.trans (if_neg (not_le.mpr hn)), fun hn => hexec.trans (if_pos hn)⟩
  · have hne : t ≠ [] := ht ▸ Nat.toDigits_ne_nil
    have hexec := execFpFromRadix_of_some hF hr ((value hne).trans (ht ▸ numeralFrom_toDigits h2 h16 n))
    exact hexec.trans (if_neg (not_le.mpr hn))

/-- Settles O29: the strings are the fields' numbers, which pack to the word. -/
theorem binaryStringsRoundTrip : Obligations.BinaryStringsRoundTrip := by
  intro F w s hF hw
  obtain ⟨hs, he, hm⟩ := binaryValue_fieldStrings F w
  refine ⟨_, _, _, withCodecWord_of_ok hF hw, binaryString_length _ _, binaryString_length _ _, binaryString_length _ _,
    isBinary_fieldStrings, ?_, fromBinaryStrings_fieldStrings hF hw⟩
  rw [binaryWord_toNat, binaryWord_toNat, binaryWord_toNat, hs, he, hm]
  exact isPacked_fields hw

/-- Settles O30: both ways the strings are R101's three parts, binary and of the format's widths. -/
theorem spacedStringsRoundTrip : Obligations.SpacedStringsRoundTrip := by
  intro F s hF
  have joined (S X T : Str) : S ++ [' '] ++ X ++ [' '] ++ T = S ++ ' ' :: (X ++ ' ' :: T) := by simp
  simp only [joined]
  refine ⟨fun w hw => ⟨_, _, _, withCodecWord_of_ok hF hw, withCodecWord_of_ok hF hw, ?_⟩,
    fun S X T w hS hX hT hXlen hTlen h s' => ?_⟩
  · have hbin := isBinary_fieldStrings (F := F) (w := w)
    simp only [List.mem_append, or_imp, forall_and] at hbin
    obtain ⟨⟨hbS, hbX⟩, hbT⟩ := hbin
    exact (execFpFromStr_of_parts (space_not_mem hbS) (space_not_mem hbX) (space_not_mem hbT) F s).trans
      (fromBinaryStrings_fieldStrings hF hw s)
  · have h : fromBinaryStrings F S X T s = .next (s.put (.word w)) := (execFpFromStr_of_parts hS hX hT F s).symm.trans h
    obtain ⟨hbin, hSlen⟩ := binary_of_fromBinaryStrings h
    rw [fromBinaryStrings_of_widths hF hbin hSlen hXlen hTlen] at h
    injection h with h
    injection congrArg State.out h with h
    injection h with h
    subst h
    rw [← spacedString_pack hbin hSlen hXlen hTlen]
    exact withCodecWord_of_ok hF (pack_width F _ _ _)

end Sys2Proof.Machine.CodecFamily
end

section
/-! SUPPORT. Rounding to a format's precision (spec/40_numerics.md R126 to R128): the value a rounding keeps before an
overflow is looked for, which is monotone, exact on the format's own values, and the value of the word packed. -/

namespace Sys2Proof.Machine

open Sys2Proof

/-! ### The value that rounding keeps -/

/-- The real number that R127 packs where nothing overflows: the nearest count of units in the last place. -/
noncomputable def roundedValue (F : Fmt) (a : ℝ) : ℝ := tiesToEven (realUlps F a) * 2 ^ (realBinade F a - F.M)

/-- At most `M + 1` significant bits, the lowest not below the smallest subnormal; of any size. -/
def Representable (F : Fmt) (a : ℝ) :
    Prop := ∃ (N : Nat) (q : ℤ), N < 2 ^ (F.M + 1) ∧ F.emin ≤ q ∧ a = N * 2 ^ (q - F.M)

theorem roundedValue_zero (F : Fmt) : roundedValue F 0 = 0 := by
  have h := tiesToEven_intCast 0
  rw [Int.cast_zero] at h
  rw [roundedValue, realUlps, zero_div, h, Int.cast_zero, zero_mul]

theorem tiesToEven_mono {x y : ℝ} (h : x ≤ y) : tiesToEven x ≤ tiesToEven y := by
  obtain ⟨hlo, -, hodd⟩ := tiesToEven_near x
  rcases Int.even_or_odd (tiesToEven x) with heven | h'
  · exact (le_tiesToEven_iff_of_even heven y).mpr (hlo.trans h)
  · exact (le_tiesToEven_iff_of_odd h' y).mpr ((hodd h').1.trans_le h)

theorem realBinade_mono (F : Fmt) {a b : ℝ} (ha : 0 < a) (h : a ≤ b) : realBinade F a ≤ realBinade F b :=
  max_le_max_right _ (Int.log_mono_right ha h)

theorem roundedValue_le_two_zpow (F : Fmt) {a : ℝ} (ha : 0 < a) : roundedValue F a ≤ 2 ^ (realBinade F a + 1) := by
  have hN : (tiesToEven (realUlps F a) : ℝ) ≤ 2 ^ (F.M + 1) := by exact_mod_cast (inBinade_tiesToEven F ha).le_carry
  rw [roundedValue, ← two_pow_succ_mul_ulp F.M]
  exact mul_le_mul_of_nonneg_right hN (by positivity)

theorem two_zpow_le_roundedValue {F : Fmt} {a : ℝ} (ha : 0 < a) (h : F.emin < realBinade F a) :
    2 ^ realBinade F a ≤ roundedValue F a := by
  have hN : (2 ^ F.M : ℝ) ≤ tiesToEven (realUlps F a) := by
    exact_mod_cast (inBinade_tiesToEven F ha).normal.resolve_left h.ne'
  rw [roundedValue, ← two_pow_mul_ulp F.M]
  exact mul_le_mul_of_nonneg_right hN (by positivity)

theorem roundedValue_mono (F : Fmt) {a b : ℝ} (ha : 0 < a) (h : a ≤ b) : roundedValue F a ≤ roundedValue F b := by
  rcases (realBinade_mono F ha h).eq_or_lt with hq | hq
  · have hN : (tiesToEven (realUlps F a) : ℝ) ≤ tiesToEven (realUlps F b) := by
      refine Int.cast_le.mpr (tiesToEven_mono ?_)
      rw [realUlps, realUlps, hq]
      exact div_le_div_of_nonneg_right h (by positivity)
    rw [roundedValue, roundedValue, hq]
    exact mul_le_mul_of_nonneg_right hN (by positivity)
  · calc roundedValue F a ≤ 2 ^ (realBinade F a + 1) := roundedValue_le_two_zpow F ha
      _ ≤ 2 ^ realBinade F b := zpow_le_zpow_right₀ one_le_two hq
      _ ≤ roundedValue F b := two_zpow_le_roundedValue (ha.trans_le h) ((emin_le_realBinade F a).trans_lt hq)

/-- R128's exactness: no bit of a value of the format is rounded away. -/
theorem roundedValue_of_representable {F : Fmt} {a : ℝ} (ha : 0 < a) (h : Representable F a) :
    roundedValue F a = a := by
  obtain ⟨N, q, hN, hq, rfl⟩ := h
  have hN : (N : ℝ) < 2 ^ (F.M + 1) := by exact_mod_cast hN
  have hle : realBinade F (N * 2 ^ (q - F.M)) ≤ q := by
    refine max_le (Int.lt_add_one_iff.mp ((Int.lt_zpow_iff_log_lt one_lt_two ha).mp ?_)) hq
    calc (N : ℝ) * 2 ^ (q - F.M) < 2 ^ (F.M + 1) * 2 ^ (q - F.M) := mul_lt_mul_of_pos_right hN (by positivity)
      _ = _ := two_pow_succ_mul_ulp F.M q
  obtain ⟨d, hd⟩ := Int.le.dest hle
  have hulps : realUlps F (N * 2 ^ (q - F.M)) = ((N * 2 ^ d : ℤ) : ℝ) := by
    have hsplit : q - F.M = (realBinade F (N * 2 ^ (q - F.M)) - F.M) + d := by omega
    rw [realUlps]
    nth_rw 1 [hsplit]
    rw [zpow_add₀ two_ne_zero, zpow_natCast]
    push_cast
    field_simp
  rw [roundedValue, hulps, tiesToEven_intCast, ← hulps, realUlps, div_mul_cancel₀ _ (by positivity)]

/-- A value of the format that bounds a number bounds what it rounds to. -/
theorem roundedValue_le {F : Fmt} {a b : ℝ} (ha : 0 < a) (hb : Representable F b) (h : a ≤ b) : roundedValue F a ≤ b :=
  (roundedValue_mono F ha h).trans_eq (roundedValue_of_representable (ha.trans_le h) hb)

theorem le_roundedValue {F : Fmt} {a b : ℝ} (ha : 0 < a) (ha' : Representable F a) (h : a ≤ b) : a ≤ roundedValue F b :=
  (roundedValue_of_representable ha ha').symm.trans_le (roundedValue_mono F ha h)

/-! ### The word that rounding packs -/

theorem realPack_width {F : Fmt} (s : Bool) (q N : ℤ) {ovf : Word} (h : ovf.width = F.W) :
    (realPack F s q N ovf).width = F.W := by
  simp only [realPack, apply_ite Word.width, h, pack_width, ite_self]

@[simp] theorem roundReal_width (F : Fmt) (s : Bool) (a : ℝ) : (roundReal F s a).width = F.W := by
  unfold roundReal
  split
  · rfl
  · exact realPack_width s _ _ rfl

/-- R86 and R87 of units in the last place packed above the binade's exponent less one. -/
theorem abs_realValue_pack {F : Fmt} (s : Bool) {e N : Nat} (hN : N < 2 ^ (F.M + 1)) (h : e = 0 ∨ 2 ^ F.M ≤ N)
    (he : e + 1 < 2 ^ F.E) : |realValue F (pack F s e N)| = N * 2 ^ ((e : ℤ) + F.emin - F.M) := by
  rcases lt_or_ge N (2 ^ F.M) with hsub | hnorm
  · obtain rfl : e = 0 := h.resolve_right (not_le.mpr hsub)
    rw [abs_realValue, effExp, significand, fields_pack (Nat.two_pow_pos _) hsub, Fmt.emin]
    simp
  · obtain ⟨m, rfl⟩ := Nat.exists_eq_add_of_le hnorm
    have hm : m < 2 ^ F.M := by rw [pow_succ] at hN; omega
    have hexp : ((e + 1 : Nat) : ℤ) - F.bias - F.M = e + F.emin - F.M := by rw [Fmt.emin]; push_cast; ring
    rw [pack_carry, abs_realValue, effExp, significand, fields_pack he hm, max_eq_left (Nat.le_add_left 1 e), hexp]
    simp

/-- The exponent field of the highest finite binade is admitted. -/
theorem emax_add_bias_lt {F : Fmt} (hE : 2 ≤ F.E) : F.emax + F.bias < 2 ^ F.E := by
  have heall := eall_eq (F := F) (by omega)
  cases hv : F.variant with
  | ieee =>
    have := eall_lt F
    rw [emax_eq hv]
    exact_mod_cast (by omega : F.bias + F.bias < 2 ^ F.E)
  | e4m3 =>
    obtain rfl := eq_fp8e4m3_of_variant hv
    decide

theorem emin_le_emax {F : Fmt} (hE : 2 ≤ F.E) : F.emin ≤ F.emax := by
  have hbias := bias_pos hE
  rw [Fmt.emin, Fmt.emax]
  split <;> omega

/-- R127's overflow, by the value kept. -/
theorem overflows_iff {F : Fmt} (hE : 2 ≤ F.E) {a : ℝ} (ha : 0 < a) :
    (F.emax < realBinade F a ∨ realBinade F a = F.emax ∧ tiesToEven (realUlps F a) = 2 ^ (F.M + 1)) ↔
      2 ^ (F.emax + 1) ≤ roundedValue F a := by
  have hmin := emin_le_emax hE
  rcases lt_trichotomy (realBinade F a) F.emax with hlt | heq | hgt
  · refine iff_of_false (by omega) (not_le.mpr ?_)
    calc roundedValue F a ≤ 2 ^ (realBinade F a + 1) := roundedValue_le_two_zpow F ha
      _ ≤ 2 ^ F.emax := zpow_le_zpow_right₀ one_le_two hlt
      _ < 2 ^ (F.emax + 1) := zpow_lt_zpow_right₀ one_lt_two (lt_add_one _)
  · have hcarry : tiesToEven (realUlps F a) = 2 ^ (F.M + 1) ↔ (2 : ℝ) ^ (F.M + 1) ≤ tiesToEven (realUlps F a) := by
      have hle := (inBinade_tiesToEven F ha).le_carry
      exact ⟨fun h => by rw [h]; push_cast; rfl, fun h => hle.antisymm (by exact_mod_cast h)⟩
    rw [roundedValue, ← two_pow_succ_mul_ulp F.M, heq, mul_le_mul_iff_left₀ (by positivity), hcarry]
    simp
  · refine iff_of_true (.inl hgt) ?_
    calc (2 : ℝ) ^ (F.emax + 1) ≤ 2 ^ realBinade F a := zpow_le_zpow_right₀ one_le_two hgt
      _ ≤ roundedValue F a := two_zpow_le_roundedValue ha (hmin.trans_lt hgt)

theorem roundReal_of_overflow {F : Fmt} (hE : 2 ≤ F.E) (s : Bool) {a : ℝ} (ha : 0 < a)
    (h : 2 ^ (F.emax + 1) ≤ roundedValue F a) : roundReal F s a = infWordOf F s := by
  have hexp : (if tiesToEven (realUlps F a) = 2 ^ (F.M + 1) then realBinade F a + 1 else realBinade F a) > F.emax := by
    have := (overflows_iff hE ha).mpr h
    split <;> omega
  rw [roundReal_of_ne_zero F s ha.ne', realPack]
  simp [hexp]

/-- Without an overflow rounding packs the value kept, the carry into the next binade resolved. -/
theorem exists_roundReal_eq_pack {F : Fmt} (hE : 2 ≤ F.E) (s : Bool) {a : ℝ} (ha : 0 ≤ a)
    (h : roundedValue F a < 2 ^ (F.emax + 1)) : ∃ e N : Nat, N < 2 ^ (F.M + 1) ∧ (e = 0 ∨ 2 ^ F.M ≤ N) ∧
      (e : ℤ) + F.emin ≤ F.emax ∧ roundReal F s a = pack F s e N ∧
        roundedValue F a = N * 2 ^ ((e : ℤ) + F.emin - F.M) := by
  rcases ha.eq_or_lt with rfl | ha
  · exact ⟨0, 0, Nat.two_pow_pos _, .inl rfl, by simpa using emin_le_emax hE, roundReal_zero F s,
    by simp [roundedValue_zero]⟩
  have hin := inBinade_tiesToEven F ha
  have hover := (overflows_iff hE ha).not.mpr (not_le.mpr h)
  have hpack := roundReal_of_ne_zero F s ha.ne'
  rw [realPack_eq_pack hin (by omega) (by omega)] at hpack
  obtain ⟨hmin, h0, hle, hnormal⟩ := hin
  unfold roundedValue
  generalize realBinade F a = q at *
  generalize tiesToEven (realUlps F a) = N at *
  obtain ⟨e, rfl⟩ : ∃ e : Nat, q = e + F.emin := ⟨(q - F.emin).toNat, by omega⟩
  obtain ⟨N, rfl⟩ := Int.eq_ofNat_of_zero_le h0
  rw [add_sub_cancel_right, Int.toNat_natCast, Int.toNat_natCast] at hpack
  norm_cast at hle hnormal hover
  rcases hle.eq_or_lt with hcarry | hlt
  · refine ⟨e + 1, 2 ^ F.M, Nat.pow_lt_pow_right one_lt_two (by omega), .inr le_rfl, by push_cast; omega, ?_, ?_⟩
    · rw [hpack, hcarry, ← pack_carry, pow_succ, mul_two]
    · have hexp : (((e + 1 : Nat) : ℤ) + F.emin - F.M) = e + F.emin + 1 - F.M := by push_cast; ring
      rw [hcarry, hexp]
      push_cast
      rw [two_pow_succ_mul_ulp, two_pow_mul_ulp]
  · exact ⟨e, N, hlt, hnormal.imp_left (by omega), by omega, hpack, rfl⟩

theorem fields_pack_units {F : Fmt} (s : Bool) {e N : Nat} (hN : N < 2 ^ (F.M + 1)) (h : e = 0 ∨ 2 ^ F.M ≤ N)
    (he : e + 1 < 2 ^ F.E) : signOf F (pack F s e N) = s ∧ (fields F (pack F s e N)).e ≤ e + 1 := by
  rcases lt_or_ge N (2 ^ F.M) with hsub | hnorm
  · obtain rfl : e = 0 := h.resolve_right (not_le.mpr hsub)
    rw [signOf, fields_pack (Nat.two_pow_pos _) hsub]
    exact ⟨rfl, Nat.zero_le _⟩
  · obtain ⟨m, rfl⟩ := Nat.exists_eq_add_of_le hnorm
    have hm : m < 2 ^ F.M := by rw [pow_succ] at hN; omega
    rw [signOf, pack_carry, fields_pack he hm]
    exact ⟨rfl, le_rfl⟩

/-- Without an overflow the word has the sign given and the value kept, and its exponent is that of a finite binade. -/
theorem roundReal_value {F : Fmt} (hE : 2 ≤ F.E) (s : Bool) {a : ℝ} (ha : 0 ≤ a)
    (h : roundedValue F a < 2 ^ (F.emax + 1)) : signOf F (roundReal F s a) = s ∧
      ((fields F (roundReal F s a)).e : ℤ) ≤ F.emax + F.bias ∧ |realValue F (roundReal F s a)| = roundedValue F a := by
  obtain ⟨e, N, hN, hnormal, he, hpack, hvalue⟩ := exists_roundReal_eq_pack hE s ha h
  have hfield : (e : ℤ) + 1 ≤ F.emax + F.bias := by rw [Fmt.emin] at he; omega
  have hfield' : e + 1 < 2 ^ F.E := by exact_mod_cast hfield.trans_lt (emax_add_bias_lt hE)
  obtain ⟨hs, hexp⟩ := fields_pack_units s hN hnormal hfield'
  rw [hpack, hvalue]
  exact ⟨hs, by omega, abs_realValue_pack s hN hnormal hfield'⟩

theorem isFinite_of_e_lt {F : Fmt} {w : Word} (hv : F.variant = .ieee) (h : (fields F w).e < F.eall) :
    isFinite F w = true := by
  simp [isFinite, isNaN, isInf, hv, h.ne]

/-- In a unit format the word is finite. -/
theorem isFinite_roundReal {F : Fmt} (hF : F.unitOk = true) (s : Bool) {a : ℝ} (ha : 0 ≤ a)
    (h : roundedValue F a < 2 ^ (F.emax + 1)) : isFinite F (roundReal F s a) = true := by
  obtain ⟨hv, hE, -⟩ := (unitOk_iff F).mp hF
  obtain ⟨-, he, -⟩ := roundReal_value hE s ha h
  rw [emax_eq hv] at he
  exact isFinite_of_e_lt hv (by rw [eall_eq (by omega)]; omega)

end Sys2Proof.Machine
end

section
/-! SUPPORT. The conversions from and to binary64 (spec/41_value_codec.md R180 to R186): the values of finite words and
the formats that hold them, R185's thresholds, and what each conversion gives a NaN, an infinity and a finite value. -/

namespace Sys2Proof.Machine

open Sys2Proof

/-! ### The value of a finite word -/

theorem realValue_eq_sign_mul_abs (F : Fmt) (w : Word) :
    realValue F w = (if signOf F w then -1 else 1) * |realValue F w| := by
  have hmag : 0 ≤ (if (fields F w).e ≠ 0 then
    (2 : ℝ) ^ (((fields F w).e : ℤ) - F.bias) * (1 + ((fields F w).m : ℝ) / 2 ^ F.M)
      else (2 : ℝ) ^ F.emin * (((fields F w).m : ℝ) / 2 ^ F.M)) := by split <;> positivity
  rw [realValue, abs_mul, abs_of_nonneg hmag]
  cases signOf F w <;> simp

theorem realValue_eq_of_sign_of_abs {F G : Fmt} {u v : Word} (hs : signOf F u = signOf G v)
    (h : |realValue F u| = |realValue G v|) : realValue F u = realValue G v := by
  rw [realValue_eq_sign_mul_abs F, realValue_eq_sign_mul_abs G, hs, h]

theorem abs_realValue_eq_minSubs (F : Fmt) (w : Word) :
    |realValue F w| = minSubs F.M ((fields F w).e * 2 ^ F.M + (fields F w).m) * (2 : ℝ) ^ (F.emin - F.M) := by
  have hexp : ((effExp F w : ℤ) - F.bias - F.M) = ((fields F w).e - 1 : Nat) + (F.emin - F.M) := by
    rw [effExp, Fmt.emin]
    omega
  rw [abs_realValue, hexp, zpow_add₀ two_ne_zero, zpow_natCast, minSubs_of_fields (fields_m_lt F w), significand]
  push_cast
  simp only [bne_iff_ne, mul_assoc]

/-- A word is determined by its sign and its magnitude. -/
theorem eq_of_abs_realValue_eq {F : Fmt} {u v : Word} (hu : u.width = F.W) (hv : v.width = F.W)
    (hs : signOf F u = signOf F v) (h : |realValue F u| = |realValue F v|) : u = v := by
  rw [abs_realValue_eq_minSubs, abs_realValue_eq_minSubs, mul_left_inj' (by positivity), Nat.cast_inj] at h
  have hfields := (minSubs_strictMono F.M).injective h
  refine Word.ext_toNat (hu.trans hv.symm) ?_
  rw [toNat_eq_fields hu, toNat_eq_fields hv, hs, add_assoc, hfields, add_assoc]

/-- A word whose bits below the sign count at most `n` has at most the `n`-th magnitude. -/
theorem abs_realValue_le {F : Fmt} {w : Word} {n : Nat} (h : (fields F w).e * 2 ^ F.M + (fields F w).m ≤ n) :
    |realValue F w| ≤ minSubs F.M n * (2 : ℝ) ^ (F.emin - F.M) := by
  rw [abs_realValue_eq_minSubs]
  exact mul_le_mul_of_nonneg_right (Nat.cast_le.mpr ((minSubs_strictMono F.M).monotone h)) (by positivity)

theorem abs_realValue_of_isZero {F : Fmt} {w : Word} (h : isZero F w = true) : |realValue F w| = 0 := by
  obtain ⟨he, hm⟩ : (fields F w).e = 0 ∧ (fields F w).m = 0 := by simpa [isZero] using h
  simp [abs_realValue, significand, he, hm]

theorem abs_realValue_lt (F : Fmt) (w : Word) : |realValue F w| < 2 ^ ((effExp F w : ℤ) - F.bias + 1) := by
  have hsig : (significand F w : ℝ) < 2 ^ (F.M + 1) := by exact_mod_cast significand_lt F w
  rw [abs_realValue, ← two_pow_succ_mul_ulp F.M]
  exact mul_lt_mul_of_pos_right hsig (by positivity)

/-- The binade of a finite word is at most the highest; at `E = 1` it is the only one. -/
theorem effExp_sub_bias_le {F : Fmt} {w : Word} (hF : F.codecOk = true) (h : isFinite F w = true) :
    (effExp F w : ℤ) - F.bias ≤ max F.emax 1 := by
  cases hv : F.variant with
  | ieee =>
    have he := e_lt_eall_of_isFinite hv h
    rw [eall_eq ((codecOk_iff F).mp hF).1] at he
    rw [emax_eq hv, effExp]
    omega
  | e4m3 =>
    obtain rfl := eq_fp8e4m3_of_variant hv
    have he := fields_e_lt (.named .fp8e4m3) w
    simp only [Fmt.E, effExp, Fmt.bias, Fmt.emax, Fmt.variant] at he ⊢
    omega

theorem abs_realValue_lt_of_isFinite {F : Fmt} {w : Word} (hF : F.codecOk = true) (hE : 2 ≤ F.E)
    (h : isFinite F w = true) : |realValue F w| < 2 ^ (F.emax + 1) := by
  have hexp := effExp_sub_bias_le hF h
  have hmax : 1 ≤ F.emax := by
    have := bias_pos hE
    rw [Fmt.emax]
    split <;> omega
  exact (abs_realValue_lt F w).trans_le (zpow_le_zpow_right₀ one_le_two (by omega))

/-- A value of a format is one of every format as wide. -/
theorem representable_abs_realValue {F G : Fmt} (hbias : F.bias ≤ G.bias) (hM : F.M ≤ G.M) (w : Word) :
    Representable G |realValue F w| := by
  have hee : 1 ≤ effExp F w := le_max_right _ _
  refine ⟨significand F w, (effExp F w : ℤ) - F.bias - F.M + G.M, ?_, by rw [Fmt.emin]; omega, ?_⟩
  · exact (significand_lt F w).trans_le (Nat.pow_le_pow_right two_pos (by omega))
  · rw [add_sub_cancel_right, abs_realValue]

theorem roundedValue_eq_self {F : Fmt} {a : ℝ} (ha : 0 ≤ a) (h : Representable F a) : roundedValue F a = a := by
  rcases ha.eq_or_lt with rfl | ha
  · exact roundedValue_zero F
  · exact roundedValue_of_representable ha h

/-- R128's exactness for every format with normal numbers. -/
theorem roundReal_of_isFinite {F : Fmt} (hF : F.codecOk = true) (hE : 2 ≤ F.E) {w : Word} (hw : w.width = F.W)
    (h : isFinite F w = true) : roundReal F (signOf F w) |realValue F w| = w := by
  have hkept := roundedValue_eq_self (abs_nonneg _) (representable_abs_realValue (le_refl F.bias) le_rfl w)
  have hlt := hkept.trans_lt (abs_realValue_lt_of_isFinite hF hE h)
  obtain ⟨hs, -, hval⟩ := roundReal_value hE (signOf F w) (abs_nonneg _) hlt
  exact eq_of_abs_realValue_eq (roundReal_width F _ _) hw hs (hval.trans hkept)

/-! ### R185's thresholds -/

theorem toReal_magOf (F : Fmt) (w : Word) : (magOf F w).toReal = |realValue F w| := by
  simp [Mag.toReal, magOf, abs_realValue]

theorem exceeds_iff {a : Mag} (hd : 0 < a.den) (n : Nat) : a.exceeds n = true ↔ (n : ℝ) < a.toReal := by
  have hden : (0 : ℝ) < (a.scale 0).2 := Nat.cast_pos.mpr (Nat.mul_pos hd (Nat.two_pow_pos _))
  have hscale := scale_toReal a 0
  rw [zpow_zero, mul_one] at hscale
  rw [Mag.exceeds, decide_eq_true_iff, ← hscale, lt_div_iff₀ hden]
  norm_cast

theorem magOf_exceeds_iff (F : Fmt) (w : Word) (n : Nat) :
    (magOf F w).exceeds n = true ↔ (n : ℝ) < |realValue F w| := by
  rw [exceeds_iff Nat.one_pos, toReal_magOf]

theorem isFinite_iff (F : Fmt) (w : Word) : isFinite F w = true ↔ isNaN F w = false ∧ isInf F w = false := by
  simp [isFinite]

theorem isInf_eq_false_of_isNaN {F : Fmt} {w : Word} (h : isNaN F w = true) : isInf F w = false := by
  cases hv : F.variant with
  | ieee => simp_all [isNaN, isInf]
  | e4m3 => exact isInf_of_e4m3 hv w

theorem rangeError_of_exceedsE4M3 {F : Fmt} {x : BitVec 64} (h : exceedsE4M3 F (doubleWord x)) :
    rangeError F x = some .exceedsE4M3 := by
  obtain ⟨rfl, hnan, h⟩ := h
  have hmag := magOf_exceeds_iff fp64 (doubleWord x) 448
  simp only [rangeError, if_true, hnan]
  rcases h with h | h
  · simp [h]
  · simp [hmag.mpr (by exact_mod_cast h)]

theorem rangeError_of_exceedsE5M2 {F : Fmt} {x : BitVec 64} (h : exceedsE5M2 F (doubleWord x)) :
    rangeError F x = some .exceedsE5M2 := by
  obtain ⟨rfl, hfin, h⟩ := h
  obtain ⟨hnan, hinf⟩ := (isFinite_iff _ _).mp hfin
  have hmag := (magOf_exceeds_iff fp64 (doubleWord x) 57344).mpr (by exact_mod_cast h)
  simp [rangeError, hnan, hinf, hmag]

theorem rangeError_eq_none {F : Fmt} {x : BitVec 64} (h4 : ¬ exceedsE4M3 F (doubleWord x))
    (h5 : ¬ exceedsE5M2 F (doubleWord x)) : rangeError F x = none := by
  by_cases hF4 : F = .named .fp8e4m3
  · subst hF4
    have hmag := magOf_exceeds_iff fp64 (doubleWord x) 448
    simp only [exceedsE4M3, true_and, not_and, not_or] at h4
    simp only [rangeError, if_true]
    refine if_neg ?_
    simp only [Bool.and_eq_true, Bool.not_eq_true', Bool.or_eq_true, not_and, not_or, hmag]
    exact_mod_cast h4
  · by_cases hF5 : F = .named .fp8e5m2
    · subst hF5
      have hmag := magOf_exceeds_iff fp64 (doubleWord x) 57344
      simp only [exceedsE5M2, true_and, not_and, isFinite_iff] at h5
      simp only [rangeError, if_neg hF4, if_true]
      refine if_neg ?_
      simp only [Bool.and_eq_true, Bool.not_eq_true', not_and, hmag, and_imp]
      exact_mod_cast fun hnan hinf => h5 ⟨hnan, hinf⟩
    · exact rangeError_of_other hF4 hF5 x

/-- R184's two formats are wider than the narrow ones. -/
theorem rangeError_of_wide {F : Fmt} (hE : 8 ≤ F.E) (x : BitVec 64) : rangeError F x = none := by
  refine rangeError_of_other (fun h => ?_) (fun h => ?_) x
  · rw [h] at hE
    exact absurd hE (by decide)
  · rw [h] at hE
    exact absurd hE (by decide)

/-- R185 in the statements' words: a double inside FP8-E4M3's range. -/
theorem not_exceedsE4M3 {F : Fmt} {d : Word}
    (h : F = .named .fp8e4m3 → isNaN fp64 d = true ∨ (isInf fp64 d = false ∧ |realValue fp64 d| ≤ 448)) :
    ¬ exceedsE4M3 F d := by
  rintro ⟨hF, hnan, hover⟩
  rcases h hF with h | ⟨hinf, hle⟩
  · simp [hnan] at h
  · rcases hover with h | h
    · simp [hinf] at h
    · exact absurd hle (not_le.mpr h)

theorem not_exceedsE5M2 {F : Fmt} {d : Word}
    (h : F = .named .fp8e5m2 → isNaN fp64 d = true ∨ isInf fp64 d = true ∨ |realValue fp64 d| ≤ 57344) :
    ¬ exceedsE5M2 F d := by
  rintro ⟨hF, hfin, hover⟩
  obtain ⟨hnan, hinf⟩ := (isFinite_iff _ _).mp hfin
  rcases h hF with h | h | h
  · simp [hnan] at h
  · simp [hinf] at h
  · exact absurd h (not_le.mpr hover)

/-! ### FromDouble -/

theorem fromFiniteOrInf_of_isInf {F : Fmt} {x : BitVec 64} (h : isInf fp64 (doubleWord x) = true)
    (round : Bool → Mag → Word) : fromFiniteOrInf F round x = infWordOf F (signOf fp64 (doubleWord x)) :=
  if_pos h

/-- R181 is the rounding of the value, a zero included. -/
theorem fromFiniteOrInf_rne (F : Fmt) (x : BitVec 64) :
    fromFiniteOrInf F (rne F) x = fromDoubleSpec F (doubleWord x) := by
  simp only [fromFiniteOrInf, fromDoubleSpec]
  refine if_congr Iff.rfl rfl ?_
  split
  next hz => rw [abs_realValue_of_isZero hz, roundReal_zero]
  next => rw [rne_eq_roundReal F _ Nat.one_pos, toReal_magOf]

/-- R182 is the truncation of the value, a zero included. -/
theorem fromFiniteOrInf_rtz (p : Params) (F : Fmt) {x : BitVec 64} (h : isInf fp64 (doubleWord x) = false) :
    fromFiniteOrInf F (rtz p F) x =
      truncReal p F (signOf fp64 (doubleWord x)) |realValue fp64 (doubleWord x)| := by
  simp only [fromFiniteOrInf, h, Bool.false_eq_true, if_false]
  split
  next hz => rw [abs_realValue_of_isZero hz, truncReal, if_pos rfl]
  next => rw [rtz_eq_truncReal p F _ Nat.one_pos, toReal_magOf]

theorem fromDoubleSpec_of_isInf (F : Fmt) {d : Word} (h : isInf fp64 d = true) :
    fromDoubleSpec F d = infWordOf F (signOf fp64 d) :=
  if_pos h

theorem fromDoubleSpec_of_isFinite (F : Fmt) {d : Word} (h : isFinite fp64 d = true) :
    fromDoubleSpec F d = roundReal F (signOf fp64 d) |realValue fp64 d| :=
  if_neg (by simp [((isFinite_iff _ _).mp h).2])

theorem eq_infWordOf_of_isInf {F : Fmt} {w : Word} (hw : w.width = F.W) (h : isInf F w = true) :
    w = infWordOf F (signOf F w) := by
  cases hv : F.variant with
  | ieee =>
    obtain ⟨he, hm⟩ : (fields F w).e = F.eall ∧ (fields F w).m = 0 := by simpa [isInf, hv] using h
    rw [infWordOf, ← he, ← hm]
    exact eq_pack_fields hw
  | e4m3 => simp [isInf_of_e4m3 hv] at h

theorem variant_eq_ieee {F : Fmt} (h : F.E ≠ 4) : F.variant = .ieee := by
  cases hv : F.variant with
  | ieee => rfl
  | e4m3 =>
    obtain rfl := eq_fp8e4m3_of_variant hv
    exact absurd rfl h

theorem same_fp64 {F : Fmt} (hE : F.E = 11) (hM : F.M = 52) : F.same fp64 = true :=
  (same_iff F fp64).mpr ⟨hE, hM, variant_eq_ieee (by omega)⟩

theorem fields_eq_of_same {F G : Fmt} (h : F.same G = true) : fields G = fields F := by
  obtain ⟨hE, hM, -⟩ := (same_iff F G).mp h
  funext w
  simp only [fields, Fmt.W, hE, hM]

theorem signOf_eq_of_same {F G : Fmt} (h : F.same G = true) : signOf G = signOf F := by
  funext w
  simp only [signOf, fields_eq_of_same h]

theorem isInf_eq_of_same {F G : Fmt} (h : F.same G = true) : isInf G = isInf F := by
  obtain ⟨hE, -, hv⟩ := (same_iff F G).mp h
  funext w
  simp only [isInf, fields_eq_of_same h, Fmt.eall, hE, hv]

theorem realValue_eq_of_same {F G : Fmt} (h : F.same G = true) : realValue G = realValue F := by
  obtain ⟨hE, hM, -⟩ := (same_iff F G).mp h
  funext w
  simp only [realValue, signOf_eq_of_same h, fields_eq_of_same h, Fmt.bias, Fmt.emin, hE, hM]

/-- R181 and R184 agree at binary64: the word itself. -/
theorem fromDoubleSpec_of_fp64 {F : Fmt} (hE : F.E = 11) (hM : F.M = 52) {d : Word} (hw : d.width = 64)
    (hnan : isNaN fp64 d = false) : fromDoubleSpec F d = d := by
  have h := same_fp64 hE hM
  have hF : F.codecOk = true := (codecOk_iff F).mpr (by omega)
  have hw : d.width = F.W := by rw [hw, Fmt.W, hE, hM]
  rw [isNaN_eq_of_same h] at hnan
  rw [fromDoubleSpec, isInf_eq_of_same h, signOf_eq_of_same h, realValue_eq_of_same h]
  split
  next hinf => exact (eq_infWordOf_of_isInf hw hinf).symm
  next hinf => exact roundReal_of_isFinite hF (by omega) hw ((isFinite_iff F d).mpr ⟨hnan, by simpa using hinf⟩)

theorem fromDouble_of_fp64 {F : Fmt} (hE : F.E = 11) (hM : F.M = 52) (p : Params) (c : Nat) (rm : RoundingMode)
    (x : BitVec 64) : fromDouble p c F rm x = doubleWord x :=
  if_pos ⟨hE, hM⟩

theorem fromDouble_of_fp32 {F : Fmt} (hE : F.E = 8) (hM : F.M = 23) (p : Params) (c : Nat) (rm : RoundingMode)
    (x : BitVec 64) : fromDouble p c F rm x = fromDoubleNative32 p c F rm x := by
  rw [fromDouble, if_neg (by omega), if_pos ⟨hE, hM⟩]

theorem fromDouble_of_generic {F : Fmt} (h11 : ¬ (F.E = 11 ∧ F.M = 52)) (h8 : ¬ (F.E = 8 ∧ F.M = 23)) (p : Params)
    (c : Nat)
    (rm : RoundingMode) (x : BitVec 64) : fromDouble p c F rm x = fromDoubleGeneric p F rm x := by
  rw [fromDouble, if_neg h11, if_neg h8]

/-- Mode 000 in every format, of a double that is not a NaN (R181, R184). -/
theorem fromDouble_nearestEven (F : Fmt) {x : BitVec 64} (hnan : isNaN fp64 (doubleWord x) = false) (p : Params)
    (c : Nat) :
    fromDouble p c F .nearestEven x = fromDoubleSpec F (doubleWord x) := by
  by_cases h11 : F.E = 11 ∧ F.M = 52
  · rw [fromDouble_of_fp64 h11.1 h11.2, fromDoubleSpec_of_fp64 h11.1 h11.2 rfl hnan]
  · by_cases h8 : F.E = 8 ∧ F.M = 23
    · rw [fromDouble_of_fp32 h8.1 h8.2, fromDoubleNative32, hnan, ← fromFiniteOrInf_rne]
      rfl
    · rw [fromDouble_of_generic h11 h8, fromDoubleGeneric, hnan, ← fromFiniteOrInf_rne]
      rfl

/-- R183: off the native conversion a stubbed mode is the truncate mode. -/
theorem fromDouble_of_stubbed {F : Fmt} (h8 : ¬ (F.E = 8 ∧ F.M = 23)) {rm : RoundingMode} (hrm : rm ≠ .nearestEven)
    (p : Params) (c : Nat) (x : BitVec 64) : fromDouble p c F rm x = fromDouble p c F .truncate x := by
  unfold fromDouble
  rw [if_neg h8, if_neg h8]
  cases rm
  case nearestEven => exact absurd rfl hrm
  all_goals rfl

theorem isNaN_drawNaN {F : Fmt} (hF : F.codecOk = true) (hv : F.variant = .ieee) (c : Nat) :
    isNaN F (drawNaN F c) = true := by
  obtain ⟨-, hM⟩ := (codecOk_iff F).mp hF
  have hone : 1 < 2 ^ F.M := Nat.one_lt_two_pow (by omega)
  have hmod := Nat.mod_lt (Config.freeNat c) (Nat.two_pow_pos F.M)
  unfold drawNaN
  dsimp only
  split
  next => simp [isNaN, hv, fields_pack (eall_lt F) hone]
  next h0 => simp [isNaN, hv, fields_pack (eall_lt F) hmod, h0]

theorem isNaN_eq_false_of_isInf {F : Fmt} {w : Word} (h : isInf F w = true) : isNaN F w = false := by
  by_contra hnan
  rw [isInf_eq_false_of_isNaN (by simpa using hnan)] at h
  cases h

@[simp] theorem truncReal_width (p : Params) (F : Fmt) (s : Bool) (a : ℝ) : (truncReal p F s a).width = F.W := by
  have hmax : (maxFinite F s).width = F.W := by
    unfold maxFinite
    split <;> rfl
  have hover : (truncOverflowWord p F s).width = F.W := by
    unfold truncOverflowWord
    split
    · exact hmax
    · rfl
  unfold truncReal
  split
  · rfl
  · exact realPack_width s _ _ hover

theorem fromDoubleNative32_of_isNaN (p : Params) (c : Nat) (F : Fmt) (rm : RoundingMode) {x : BitVec 64}
    (h : isNaN fp64 (doubleWord x) = true) : fromDoubleNative32 p c F rm x = drawNaN F c :=
  if_pos h

/-- R184's two results of a double that is not a NaN. -/
theorem fromDoubleNative32_cases (p : Params) (c : Nat) (F : Fmt) (rm : RoundingMode) {x : BitVec 64}
    (hnan : isNaN fp64 (doubleWord x) = false) :
    fromDoubleNative32 p c F rm x = fromFiniteOrInf F (rne F) x ∨
      fromDoubleNative32 p c F rm x = fromFiniteOrInf F (rtz p F) x := by
  unfold fromDoubleNative32
  rw [hnan]
  cases rm
  case nearestEven => exact .inl rfl
  all_goals cases Config.freeBit c <;> simp

theorem fromDoubleNative32_of_isInf (p : Params) (c : Nat) (F : Fmt) (rm : RoundingMode) {x : BitVec 64}
    (h : isInf fp64 (doubleWord x) = true) :
    fromDoubleNative32 p c F rm x = infWordOf F (signOf fp64 (doubleWord x)) := by
  rcases fromDoubleNative32_cases p c F rm (isNaN_eq_false_of_isInf h) with hx | hx <;>
    rw [hx, fromFiniteOrInf_of_isInf h]

theorem fromDoubleNative32_of_isFinite (p : Params) (c : Nat) (F : Fmt) (rm : RoundingMode) {x : BitVec 64}
    (h : isFinite fp64 (doubleWord x) = true) :
    fromDoubleNative32 p c F rm x = roundReal F (signOf fp64 (doubleWord x)) |realValue fp64 (doubleWord x)| ∨
      fromDoubleNative32 p c F rm x = truncReal p F (signOf fp64 (doubleWord x)) |realValue fp64 (doubleWord x)| := by
  obtain ⟨hnan, hinf⟩ := (isFinite_iff _ _).mp h
  rw [← fromDoubleSpec_of_isFinite F h, ← fromFiniteOrInf_rne, ← fromFiniteOrInf_rtz p F hinf]
  exact fromDoubleNative32_cases p c F rm hnan

theorem exists_roundingMode {rm : BitVec 3} (h : rm.toNat ≤ 5) : ∃ mode, roundingMode rm = some mode := by
  unfold roundingMode
  interval_cases rm.toNat <;> exact ⟨_, rfl⟩

theorem exists_stubbed_roundingMode {rm : BitVec 3} (h2 : 2 ≤ rm.toNat) (h : rm.toNat ≤ 5) :
    ∃ mode, roundingMode rm = some mode ∧ mode ≠ .nearestEven := by
  unfold roundingMode
  interval_cases rm.toNat <;> exact ⟨_, rfl, by decide⟩

theorem execFpFromDouble_of_mode {F : Fmt} (hF : F.codecOk = true) {rm : BitVec 3} {mode : RoundingMode}
    (hrm : roundingMode rm = some mode) (x : BitVec 64) (s : State) :
    execFpFromDouble x F rm s = finishFromDouble F mode x s := by
  rw [execFpFromDouble, withCodecFormat_of_ok hF, hrm]

theorem finishFromDouble_of_none {F : Fmt} {x : BitVec 64} (h : rangeError F x = none) (mode : RoundingMode)
    (s : State) :
    finishFromDouble F mode x s = .next ((s.drew 1).put (.word (fromDouble s.params s.draws F mode x))) := by
  rw [finishFromDouble, h]
  rfl

theorem finishFromDouble_of_some {F : Fmt} {x : BitVec 64} {info : ErrorInfo} (h : rangeError F x = some info)
    (mode : RoundingMode) (s : State) : finishFromDouble F mode x s = .next (s.fail .rangeError info) := by
  rw [finishFromDouble, h]
  rfl

/-- For e4m3 no value in range rounds to the NaN pattern, which reads as 480. -/
theorem isNaN_roundReal_of_e4m3 {F : Fmt} (hv : F.variant = .e4m3) (s : Bool) {a : ℝ} (ha : 0 ≤ a) (h : a ≤ 448) :
    isNaN F (roundReal F s a) = false := by
  obtain rfl := eq_fp8e4m3_of_variant hv
  have hmax : Representable (.named .fp8e4m3) 448 := ⟨14, 8, by decide, by decide, by norm_num [Fmt.M]⟩
  have hkept : roundedValue (.named .fp8e4m3) a ≤ 448 := by
    rcases ha.eq_or_lt with rfl | ha
    · norm_num [roundedValue_zero]
    · exact roundedValue_le ha hmax h
  have hlt : (448 : ℝ) < 2 ^ ((Fmt.named .fp8e4m3).emax + 1) := by norm_num [Fmt.emax, Fmt.variant, Fmt.bias, Fmt.E]
  obtain ⟨-, -, hval⟩ := roundReal_value (F := .named .fp8e4m3) (by decide) s ha (hkept.trans_lt hlt)
  by_contra hnan
  obtain ⟨he, hm⟩ : (fields (.named .fp8e4m3) (roundReal (.named .fp8e4m3) s a)).e = 15 ∧
      (fields (.named .fp8e4m3) (roundReal (.named .fp8e4m3) s a)).m = 7 := by
    simpa [isNaN, Fmt.variant] using hnan
  rw [abs_realValue, significand, effExp, he, hm] at hval
  norm_num [Fmt.M, Fmt.bias, Fmt.E] at hval
  linarith

/-! ### ToDouble -/

theorem fp64_unitOk : fp64.unitOk = true := rfl

@[simp] theorem fp64_W : fp64.W = 64 := rfl

theorem bias_mono {F G : Fmt} (h : F.E ≤ G.E) : F.bias ≤ G.bias :=
  Nat.sub_le_sub_right (Nat.pow_le_pow_right two_pos (Nat.sub_le_sub_right h 1)) 1

theorem isNaN_toDouble {F : Fmt} {w : Word} (hw : w.width = F.W) (h : isNaN F w = true) (c : Nat) :
    isNaN fp64 (doubleWord (toDouble c F w)) = true := by
  rw [toDouble, if_pos h]
  split
  next hsame =>
    have hW : F.W = 64 := by
      obtain ⟨hE, hM, -⟩ := (same_iff F fp64).mp hsame
      rw [Fmt.W, hE, hM]
      rfl
    rw [doubleWord_ofNat (hw.trans hW), isNaN_eq_of_same hsame, h]
  next => rw [doubleWord_ofNat (drawNaN_width fp64 c), isNaN_drawNaN rfl rfl]

/-- R186 of a word that is not a NaN, on real numbers. -/
theorem doubleWord_toDouble {F : Fmt} {w : Word} (h : isNaN F w = false) (c : Nat) (nan : Word) :
    doubleWord (toDouble c F w) = cvtSpec F fp64 nan w := by
  simp only [toDouble, cvtSpec, h, Bool.false_eq_true, if_false]
  split
  next => rw [doubleWord_ofNat (infWordOf_width _ _)]
  next =>
    split
    next => rw [doubleWord_ofNat (zeroWordOf_width _ _)]
    next => rw [doubleWord_ofNat (rne_width _ _ _), rne_eq_roundReal _ _ Nat.one_pos, toReal_magOf]

theorem cvtSpec_of_isNaN {F : Fmt} {w : Word} (h : isNaN F w = true) (G : Fmt) (nan : Word) : cvtSpec F G nan w = nan :=
  if_pos h

theorem cvtSpec_of_isInf {F : Fmt} {w : Word} (h : isInf F w = true) (G : Fmt) (nan : Word) :
    cvtSpec F G nan w = infWordOf G (signOf F w) := by
  simp [cvtSpec, h, isNaN_eq_false_of_isInf h]

theorem cvtSpec_of_isFinite {F : Fmt} {w : Word} (h : isFinite F w = true) (G : Fmt) (nan : Word) :
    cvtSpec F G nan w = roundReal G (signOf F w) |realValue F w| := by
  obtain ⟨hnan, hinf⟩ := (isFinite_iff F w).mp h
  simp only [cvtSpec, hnan, hinf, Bool.false_eq_true, if_false]
  split
  next hz => rw [abs_realValue_of_isZero hz, roundReal_zero]
  next => rfl

theorem isFinite_of_isZero {F : Fmt} {w : Word} (hF : F.codecOk = true) (h : isZero F w = true) :
    isFinite F w = true := by
  have hone := exactly_one_class hF w
  rw [h] at hone
  rw [isFinite_iff]
  cases hn : isNaN F w <;> cases hi : isInf F w <;> simp_all

/-- Nothing is lost on the way to a unit format that holds the format's values. -/
theorem roundReal_exact {G : Fmt} (hG : G.unitOk = true) (s : Bool) {a : ℝ} (ha : 0 ≤ a) (h : Representable G a)
    (hlt : a < 2 ^ (G.emax + 1)) : isFinite G (roundReal G s a) = true ∧ signOf G (roundReal G s a) = s ∧
      |realValue G (roundReal G s a)| = a := by
  have hkept := roundedValue_eq_self ha h
  obtain ⟨-, hE, -⟩ := (unitOk_iff G).mp hG
  obtain ⟨hs, -, hval⟩ := roundReal_value hE s ha (hkept.trans_lt hlt)
  exact ⟨isFinite_roundReal hG s ha (hkept.trans_lt hlt), hs, hval.trans hkept⟩

/-- R186's exactness, for formats inside binary64. -/
theorem roundReal_fp64_exact {F : Fmt} {w : Word} (hF : F.codecOk = true) (hE : F.E ≤ 11) (hM : F.M ≤ 52)
    (h : isFinite F w = true) : isFinite fp64 (roundReal fp64 (signOf F w) |realValue F w|) = true ∧
      signOf fp64 (roundReal fp64 (signOf F w) |realValue F w|) = signOf F w ∧
      |realValue fp64 (roundReal fp64 (signOf F w) |realValue F w|)| = |realValue F w| := by
  have hbias : F.bias ≤ fp64.bias := bias_mono hE
  have hemax : max F.emax 1 ≤ fp64.emax := by
    have h64 : fp64.emax = fp64.bias := rfl
    have hone : 1 ≤ fp64.bias := by decide
    cases hv : F.variant with
    | ieee =>
      rw [emax_eq hv]
      omega
    | e4m3 =>
      obtain rfl := eq_fp8e4m3_of_variant hv
      decide
  refine roundReal_exact fp64_unitOk _ (abs_nonneg _) (representable_abs_realValue hbias hM w) ?_
  refine (abs_realValue_lt F w).trans_le (zpow_le_zpow_right₀ one_le_two ?_)
  have := effExp_sub_bias_le hF h
  omega

theorem execFpToDouble_of_ok {F : Fmt} {w : Word} (hF : F.codecOk = true) (hw : w.width = F.W) (s : State) :
    execFpToDouble F w s = .next ((s.drew 1).put (.double (toDouble s.draws F w))) :=
  withCodecWord_of_ok hF hw

/-! ### There and back -/

/-- The largest finite magnitudes of the two narrow formats are R185's thresholds. -/
theorem abs_realValue_le_448 {w : Word} (h : isFinite (.named .fp8e4m3) w = true) :
    |realValue (.named .fp8e4m3) w| ≤ 448 := by
  have he := fields_e_lt (.named .fp8e4m3) w
  have hm := fields_m_lt (.named .fp8e4m3) w
  have hnan := ((isFinite_iff _ _).mp h).1
  simp only [isNaN, Fmt.variant, Bool.and_eq_false_iff, beq_eq_false_iff_ne] at hnan
  have hn : (fields (.named .fp8e4m3) w).e * 2 ^ (Fmt.named .fp8e4m3).M + (fields (.named .fp8e4m3) w).m ≤ 126 := by
    simp only [Fmt.E, Fmt.M] at he hm ⊢
    omega
  refine (abs_realValue_le hn).trans_eq ?_
  norm_num [minSubs, Fmt.M, Fmt.emin, Fmt.bias, Fmt.E]

theorem abs_realValue_le_57344 {w : Word} (h : isFinite (.named .fp8e5m2) w = true) :
    |realValue (.named .fp8e5m2) w| ≤ 57344 := by
  have he := e_lt_eall_of_isFinite rfl h
  have hm := fields_m_lt (.named .fp8e5m2) w
  have hn : (fields (.named .fp8e5m2) w).e * 2 ^ (Fmt.named .fp8e5m2).M + (fields (.named .fp8e5m2) w).m ≤ 123 := by
    simp only [Fmt.eall, Fmt.E, Fmt.M] at he hm ⊢
    omega
  refine (abs_realValue_le hn).trans_eq ?_
  norm_num [minSubs, Fmt.M, Fmt.emin, Fmt.bias, Fmt.E]

/-- A word of a named narrow format never leaves its range on the way to binary64. -/
theorem rangeError_toDouble {F : Fmt} {w : Word} (hF : F.codecOk = true) (hE : F.E ≤ 11) (hM : F.M ≤ 52)
    (hnan : isNaN F w = false) (c : Nat) : rangeError F (toDouble c F w) = none := by
  have hd := doubleWord_toDouble hnan c (defaultNaN fp64)
  cases hinf : isInf F w with
  | true =>
    have hv : F ≠ .named .fp8e4m3 := by
      rintro rfl
      cases hinf
    have hinf64 (s : Bool) : isFinite fp64 (infWordOf fp64 s) = false := by cases s <;> decide
    rw [cvtSpec_of_isInf hinf] at hd
    refine rangeError_eq_none (fun h => hv h.1) fun h => ?_
    have hfin := h.2.1
    rw [hd, hinf64] at hfin
    cases hfin
  | false =>
    have hfin := (isFinite_iff F w).mpr ⟨hnan, hinf⟩
    obtain ⟨hfin64, -, habs⟩ := roundReal_fp64_exact hF hE hM hfin
    rw [cvtSpec_of_isFinite hfin] at hd
    rw [← hd] at hfin64 habs
    obtain ⟨-, hinf64⟩ := (isFinite_iff _ _).mp hfin64
    refine rangeError_eq_none ?_ ?_
    · refine not_exceedsE4M3 fun h4 => .inr ⟨hinf64, habs ▸ ?_⟩
      subst h4
      exact abs_realValue_le_448 hfin
    · refine not_exceedsE5M2 fun h5 => .inr (.inr (habs ▸ ?_))
      subst h5
      exact abs_realValue_le_57344 hfin

/-- R186 and then R181 or R184 give back a word that is not a NaN. -/
theorem fromDoubleSpec_toDouble {F : Fmt} {w : Word} (hF : F.codecOk = true) (hE2 : 2 ≤ F.E) (hE : F.E ≤ 11)
    (hM : F.M ≤ 52) (hw : w.width = F.W) (hnan : isNaN F w = false) (c : Nat) :
    fromDoubleSpec F (doubleWord (toDouble c F w)) = w := by
  rw [doubleWord_toDouble hnan c (defaultNaN fp64)]
  cases hinf : isInf F w with
  | true =>
    have hinf64 (s : Bool) : isInf fp64 (infWordOf fp64 s) = true ∧ signOf fp64 (infWordOf fp64 s) = s := by
      cases s <;> decide
    obtain ⟨hi, hs⟩ := hinf64 (signOf F w)
    rw [cvtSpec_of_isInf hinf, fromDoubleSpec_of_isInf F hi, hs, ← eq_infWordOf_of_isInf hw hinf]
  | false =>
    have hfin := (isFinite_iff F w).mpr ⟨hnan, hinf⟩
    obtain ⟨hfin64, hs, habs⟩ := roundReal_fp64_exact hF hE hM hfin
    rw [cvtSpec_of_isFinite hfin, fromDoubleSpec_of_isFinite F hfin64, hs, habs, roundReal_of_isFinite hF hE2 hw hfin]

theorem isNaN_toDouble_eq_false {F : Fmt} {w : Word} (hF : F.codecOk = true) (hE : F.E ≤ 11) (hM : F.M ≤ 52)
    (hnan : isNaN F w = false) (c : Nat) : isNaN fp64 (doubleWord (toDouble c F w)) = false := by
  rw [doubleWord_toDouble hnan c (defaultNaN fp64)]
  cases hinf : isInf F w with
  | true =>
    rw [cvtSpec_of_isInf hinf]
    cases signOf F w <;> decide
  | false =>
    have hfin := (isFinite_iff F w).mpr ⟨hnan, hinf⟩
    obtain ⟨hfin64, -⟩ := roundReal_fp64_exact hF hE hM hfin
    rw [cvtSpec_of_isFinite hfin]
    exact ((isFinite_iff _ _).mp hfin64).1

end Sys2Proof.Machine

namespace Sys2Proof.Machine.CodecFamily

open Sys2Proof Sys2Proof.Machine

/-- Settles O20: off the exact formats both modes round or truncate the exact value of the double. -/
theorem fromDoubleGenericPath : Obligations.FromDoubleGenericPath := by
  intro F x s hF h11 h8 d h4 h5
  have hrange := rangeError_eq_none (x := x) (not_exceedsE4M3 h4) (not_exceedsE5M2 h5)
  have answers {rm : BitVec 3} {mode : RoundingMode} {w : Word} (hrm : roundingMode rm = some mode)
      (h : fromDoubleGeneric s.params F mode x = w) : AnswersDrawing (.fpFromDouble x F rm) s 1 (.word w) := by
    rw [AnswersDrawing, exec, execFpFromDouble_of_mode hF hrm, finishFromDouble_of_none hrange,
      fromDouble_of_generic h11 h8, h]
  refine ⟨fun hnan => ⟨answers rfl (if_pos hnan), answers rfl (if_pos hnan)⟩, fun hinf => ?_, fun hfin => ?_⟩
  · have hnan : ¬ isNaN fp64 d = true := fun h => by simp [isInf_eq_false_of_isNaN h] at hinf
    exact ⟨answers rfl ((if_neg hnan).trans (fromFiniteOrInf_of_isInf hinf _)),
      answers rfl ((if_neg hnan).trans (fromFiniteOrInf_of_isInf hinf _))⟩
  · obtain ⟨hnan, hinf⟩ := (isFinite_iff _ _).mp hfin
    have hnan' : ¬ isNaN fp64 d = true := by simp [hnan]
    refine ⟨answers rfl ((if_neg hnan').trans ((fromFiniteOrInf_rne F x).trans (fromDoubleSpec_of_isFinite F hfin))),
      answers rfl ((if_neg hnan').trans (fromFiniteOrInf_rtz s.params F hinf)), fun hv => ?_⟩
    refine isNaN_roundReal_of_e4m3 hv _ (abs_nonneg _) ?_
    exact ((h4 (eq_fp8e4m3_of_variant hv)).resolve_left hnan').2

/-- Settles O21: a stubbed mode has the range check and the value of the truncate mode. -/
theorem stubbedModesTruncate : Obligations.StubbedModesTruncate := by
  intro F x s rm h2 h5 h8
  obtain ⟨mode, hrm, hmode⟩ := exists_stubbed_roundingMode h2 h5
  have htrunc : roundingMode 1 = some .truncate := rfl
  simp only [exec, execFpFromDouble, hrm, htrunc, finishFromDouble, fromDouble_of_stubbed h8 hmode]

/-- Settles O22: binary64 is the word itself, and binary32 the draw between R181's result and R182's. -/
theorem fromDoubleExactFormats : Obligations.FromDoubleExactFormats := by
  intro F x s rm hrm d
  obtain ⟨mode, hmode⟩ := exists_roundingMode hrm
  have answers (hF : F.codecOk = true) (hE : 8 ≤ F.E) :
      AnswersDrawing (.fpFromDouble x F rm) s 1 (.word (fromDouble s.params s.draws F mode x)) := by
    rw [AnswersDrawing, exec, execFpFromDouble_of_mode hF hmode, finishFromDouble_of_none (rangeError_of_wide hE x)]
  refine ⟨fun hE hM => ?_, fun hE hM => ?_⟩
  · have h := answers ((codecOk_iff F).mpr (by omega)) (by omega)
    rwa [fromDouble_of_fp64 hE hM] at h
  · have hF : F.codecOk = true := (codecOk_iff F).mpr (by omega)
    have hW : F.W = 32 := by rw [Fmt.W, hE, hM]
    have hans := answers hF (by omega)
    rw [fromDouble_of_fp32 hE hM] at hans
    refine ⟨_, hans, ?_, fun hnan => ?_, fun hinf => fromDoubleNative32_of_isInf _ _ F mode hinf, fun hfin h0 => ?_,
      fun hfin => fromDoubleNative32_of_isFinite _ _ F mode hfin⟩
    · cases hnan : isNaN fp64 d with
      | true => rw [fromDoubleNative32_of_isNaN _ _ F mode hnan, drawNaN_width, hW]
      | false =>
        cases hinf : isInf fp64 d with
        | true => rw [fromDoubleNative32_of_isInf _ _ F mode hinf, infWordOf_width, hW]
        | false =>
          rcases fromDoubleNative32_of_isFinite s.params s.draws F mode ((isFinite_iff _ _).mpr ⟨hnan, hinf⟩) with h | h
          · rw [h, roundReal_width, hW]
          · rw [h, truncReal_width, hW]
    · rw [fromDoubleNative32_of_isNaN _ _ F mode hnan, isNaN_drawNaN hF (variant_eq_ieee (by omega))]
    · obtain rfl : mode = .nearestEven := by
        rw [h0] at hmode
        exact (Option.some.inj hmode).symm
      rw [← fromDouble_of_fp32 hE hM, fromDouble_nearestEven F ((isFinite_iff _ _).mp hfin).1,
        fromDoubleSpec_of_isFinite F hfin]

/-- Settles O23: the thresholds compare the exact magnitude before any rounding. -/
theorem rangeErrorThresholds : Obligations.RangeErrorThresholds := by
  intro x s rm hrm d
  obtain ⟨mode, hmode⟩ := exists_roundingMode hrm
  have finishes {F : Fmt} (hF : F.codecOk = true) : exec (.fpFromDouble x F rm) s = finishFromDouble F mode x s :=
    execFpFromDouble_of_mode hF hmode x s
  refine ⟨fun hnan h => ?_, fun hfin h => ?_, fun F hF h4 h5 => ?_⟩
  · exact (finishes rfl).trans (finishFromDouble_of_some (rangeError_of_exceedsE4M3 ⟨rfl, hnan, h⟩) _ _)
  · exact (finishes rfl).trans (finishFromDouble_of_some (rangeError_of_exceedsE5M2 ⟨rfl, hfin, h⟩) _ _)
  · exact ⟨_, (finishes hF).trans
      (finishFromDouble_of_none (rangeError_eq_none (not_exceedsE4M3 h4) (not_exceedsE5M2 h5)) _ _)⟩

/-- Settles O24: the double is R340's conversion, which keeps every value of a format inside binary64. -/
theorem toDoubleIsTheNearestDouble : Obligations.ToDoubleIsTheNearestDouble := by
  intro F w s hF hw
  refine ⟨_, execFpToDouble_of_ok hF hw s, ?_⟩
  intro d
  have hd (hnan : isNaN F w = false) : d = cvtSpec F fp64 (defaultNaN fp64) w := doubleWord_toDouble hnan _ _
  have hfinite (h : isFinite F w = true) : d = roundReal fp64 (signOf F w) |realValue F w| :=
    (hd ((isFinite_iff F w).mp h).1).trans (cvtSpec_of_isFinite h fp64 _)
  refine ⟨fun hnan => ⟨isNaN_toDouble hw hnan _, fun hsame => ?_⟩, fun hinf => ?_, fun hz => ?_,
    fun hfin _ => hfinite hfin,
    fun hfin hE hM => ?_⟩
  · obtain ⟨hE, hM, -⟩ := (same_iff F fp64).mp hsame
    have hlt := w.toNat_lt
    rw [hw, Fmt.W, hE, hM] at hlt
    rw [toDouble, if_pos hnan, if_pos hsame, BitVec.toNat_ofNat]
    exact Nat.mod_eq_of_lt hlt
  · rw [hd (isNaN_eq_false_of_isInf hinf), cvtSpec_of_isInf hinf]
  · rw [hfinite (isFinite_of_isZero hF hz), abs_realValue_of_isZero hz, roundReal_zero]
  · obtain ⟨hfin64, hs, habs⟩ := roundReal_fp64_exact hF hE hM hfin
    rw [hfinite hfin]
    exact ⟨hfin64, realValue_eq_of_sign_of_abs hs habs⟩

/-- Settles O25, by the exactness of both conversions. -/
theorem doubleRoundTrip : Obligations.DoubleRoundTrip := by
  intro F w s hF hE2 hE hM hw hnan
  refine ⟨_, execFpToDouble_of_ok hF hw s, fun s' => ?_⟩
  rw [AnswersDrawing, exec, execFpFromDouble_of_mode hF (mode := .nearestEven) rfl,
    finishFromDouble_of_none (rangeError_toDouble hF hE hM hnan _),
    fromDouble_nearestEven F (isNaN_toDouble_eq_false hF hE hM hnan _), fromDoubleSpec_toDouble hF hE2 hE hM hw hnan]

end Sys2Proof.Machine.CodecFamily
end

section
/-! SUPPORT. The reference operators (spec/41_value_codec.md R194 to R198): the binary64 operations are the contracts on
real numbers, a NaN aside each of them gives one word whatever NaN it is handed, and the way back is FromDouble's. -/

namespace Sys2Proof.Machine

open Sys2Proof

/-! ### The exact operations as real numbers -/

theorem intCast_mul_two_zpow (n : Nat) {e k : ℤ} (h : k ≤ e) :
    ((n * 2 ^ (e - k).toNat : Nat) : ℝ) * 2 ^ k = n * 2 ^ e := by
  obtain ⟨d, rfl⟩ := Int.le.dest h
  rw [add_sub_cancel_left, Int.toNat_natCast, add_comm, zpow_add₀ two_ne_zero, zpow_natCast]
  push_cast
  ring

theorem exactSum_toReal {a b : Mag} (ha : a.den = 1) (hb : b.den = 1) (sa sb : Bool) :
    ((Contract.exactSum sa a sb b).1 : ℝ) * 2 ^ (Contract.exactSum sa a sb b).2 =
      (if sa then -1 else 1) * a.toReal + (if sb then -1 else 1) * b.toReal := by
  have hA := intCast_mul_two_zpow a.num (min_le_left a.exp b.exp)
  have hB := intCast_mul_two_zpow b.num (min_le_right a.exp b.exp)
  simp only [Mag.toReal, ha, hb, Nat.cast_one, div_one, ← hA, ← hB, Contract.exactSum]
  cases sa <;> cases sb <;> simp <;> ring

theorem exactProduct_toReal (a b : Mag) : (Contract.exactProduct a b).toReal = a.toReal * b.toReal := by
  simp only [Mag.toReal, Contract.exactProduct, zpow_add₀ (two_ne_zero' ℝ)]
  push_cast
  rw [mul_div_mul_comm]
  ring

theorem exactQuotient_toReal (a b : Mag) : (Contract.exactQuotient a b).toReal = a.toReal / b.toReal := by
  simp only [Mag.toReal, Contract.exactQuotient, zpow_sub₀ (two_ne_zero' ℝ)]
  push_cast
  rw [mul_div_mul_comm, mul_div_mul_comm (_ / _), div_eq_mul_inv (_ / _) (_ / _), inv_div]

theorem contract_add_eq (F : Fmt) (nan a b : Word) (sub : Bool) :
    Contract.add F nan a b sub = addSpec F nan a b sub := by
  have hx := exactSum_toReal (a := magOf F a) (b := magOf F b) rfl rfl (signOf F a) (signOf F b ^^ sub)
  rw [toReal_magOf, toReal_magOf, ← realValue_eq_sign_mul_abs] at hx
  have hround (n k : ℤ) : rne F (decide (n < 0)) ⟨n.natAbs, 1, k⟩ =
      roundReal F (decide ((n : ℝ) * 2 ^ k < 0)) |(n : ℝ) * 2 ^ k| := by
    have hpos : (0 : ℝ) < 2 ^ k := by positivity
    have hsign : (n : ℝ) * 2 ^ k < 0 ↔ n < 0 := by
      rw [← not_le, ← not_le, mul_nonneg_iff_of_pos_right hpos, Int.cast_nonneg_iff]
    have hmag : (⟨n.natAbs, 1, k⟩ : Mag).toReal = |(n : ℝ) * 2 ^ k| := by
      simp [Mag.toReal, abs_mul, abs_of_pos hpos, Nat.cast_natAbs]
    rw [rne_eq_roundReal F _ Nat.one_pos, hmag]
    congr 1
    simp only [hsign]
  have hzero (n k : ℤ) : (n : ℝ) * 2 ^ k = 0 ↔ n = 0 := by simp [zpow_ne_zero]
  simp only [Contract.add, addSpec, ← hx, hzero, hround, Bool.or_eq_true, Bool.and_eq_true, beq_iff_eq]

theorem contract_mul_eq (F : Fmt) (nan a b : Word) : Contract.mul F nan a b = mulSpec F nan a b := by
  have hden : 0 < (Contract.exactProduct (magOf F a) (magOf F b)).den := Nat.one_pos
  simp only [Contract.mul, mulSpec, rne_eq_roundReal F _ hden, exactProduct_toReal, toReal_magOf, Bool.or_eq_true,
    Bool.and_eq_true]

theorem significand_pos {F : Fmt} {w : Word} (h : isZero F w = false) : 0 < significand F w := by
  have hM := Nat.two_pow_pos F.M
  by_cases he : (fields F w).e = 0
  · have hm : (fields F w).m ≠ 0 := by simpa [isZero, he] using h
    rw [significand]
    omega
  · simp [significand, he]

theorem abs_realValue_pos {F : Fmt} {w : Word} (h : isZero F w = false) : 0 < |realValue F w| := by
  have := significand_pos h
  rw [abs_realValue]
  positivity

theorem contract_div_eq (F : Fmt) (nan a b : Word) : Contract.div F nan a b = divSpec F nan a b := by
  have hround (hb : isZero F b = false) (s : Bool) : rne F s (Contract.exactQuotient (magOf F a) (magOf F b)) =
      roundReal F s (|realValue F a| / |realValue F b|) := by
    have hden : 0 < (Contract.exactQuotient (magOf F a) (magOf F b)).den := Nat.mul_pos Nat.one_pos (significand_pos hb)
    rw [rne_eq_roundReal F s hden, exactQuotient_toReal, toReal_magOf, toReal_magOf]
  simp only [Contract.div, Contract.quotientIsNaN, divSpec, Bool.or_eq_true, Bool.and_eq_true, or_assoc, ← ite_or]
  cases hb : isZero F b with
  | true => simp
  | false => rw [hround hb]

/-! ### The binary64 operations -/

/-- What the way back needs of a binary64 operation: a NaN operand gives the NaN it is handed, and so do some other
operands; the rest give one word, which is not a NaN. -/
structure HandsOnNaN (op : Word → Word → Word → Word) : Prop where
  of_isNaN (nan a b : Word) : isNaN fp64 a = true ∨ isNaN fp64 b = true → op nan a b = nan
  cases (a b : Word) : (∀ nan, op nan a b = nan) ∨
    ∃ d, d.width = 64 ∧ isNaN fp64 d = false ∧ ∀ nan, op nan a b = d

theorem isNaN_zeroWordOf {F : Fmt} (hF : F.codecOk = true) (s : Bool) : isNaN F (zeroWordOf F s) = false := by
  have hz : isZero F (zeroWordOf F s) = true := by
    simp [isZero, zeroWordOf, fields_pack (Nat.two_pow_pos F.E) (Nat.two_pow_pos F.M)]
  exact ((isFinite_iff _ _).mp (isFinite_of_isZero hF hz)).1

theorem isNaN_infWordOf {F : Fmt} (hv : F.variant = .ieee) (s : Bool) : isNaN F (infWordOf F s) = false := by
  simp [isNaN, hv, infWordOf, fields_pack (eall_lt F) (Nat.two_pow_pos F.M)]

theorem isNaN_roundReal {F : Fmt} (hF : F.unitOk = true) (s : Bool) {a : ℝ} (ha : 0 ≤ a) :
    isNaN F (roundReal F s a) = false := by
  obtain ⟨hv, hE, -⟩ := (unitOk_iff F).mp hF
  rcases lt_or_ge (roundedValue F a) (2 ^ (F.emax + 1)) with hlt | hge
  · exact ((isFinite_iff _ _).mp (isFinite_roundReal hF s ha hlt)).1
  · rcases ha.eq_or_lt with rfl | ha
    · rw [roundReal_zero, isNaN_zeroWordOf (codecOk_of_unitOk hF)]
    · rw [roundReal_of_overflow hE s ha hge, isNaN_infWordOf hv]

theorem handsOnNaN_add (sub : Bool) : HandsOnNaN (fun nan a b => addSpec fp64 nan a b sub) where
  of_isNaN _ _ _ h := if_pos h
  cases a b := by
    simp only [addSpec]
    generalize realValue fp64 a + (if (signOf fp64 b ^^ sub) = true then (-1 : ℝ) else 1) * |realValue fp64 b| = x
    split
    · exact .inl fun _ => rfl
    split
    · split
      · exact .inr ⟨_, rfl, isNaN_infWordOf rfl _, fun _ => rfl⟩
      · exact .inl fun _ => rfl
    split
    · exact .inr ⟨_, rfl, isNaN_infWordOf rfl _, fun _ => rfl⟩
    split
    · exact .inr ⟨_, rfl, isNaN_infWordOf rfl _, fun _ => rfl⟩
    split
    · exact .inr ⟨_, rfl, isNaN_zeroWordOf rfl _, fun _ => rfl⟩
    · exact .inr ⟨_, roundReal_width _ _ _, isNaN_roundReal rfl _ (abs_nonneg _), fun _ => rfl⟩

theorem handsOnNaN_mul : HandsOnNaN (mulSpec fp64) where
  of_isNaN _ _ _ h := if_pos h
  cases a b := by
    simp only [mulSpec]
    split
    · exact .inl fun _ => rfl
    split
    · exact .inl fun _ => rfl
    split
    · exact .inr ⟨_, rfl, isNaN_infWordOf rfl _, fun _ => rfl⟩
    split
    · exact .inr ⟨_, rfl, isNaN_zeroWordOf rfl _, fun _ => rfl⟩
    · exact .inr ⟨_, roundReal_width _ _ _, isNaN_roundReal rfl _ (by positivity), fun _ => rfl⟩

theorem handsOnNaN_div : HandsOnNaN (divSpec fp64) where
  of_isNaN _ _ _ h := if_pos h
  cases a b := by
    simp only [divSpec]
    split
    · exact .inl fun _ => rfl
    split
    · exact .inl fun _ => rfl
    split
    · exact .inr ⟨_, rfl, isNaN_infWordOf rfl _, fun _ => rfl⟩
    split
    · exact .inr ⟨_, rfl, isNaN_zeroWordOf rfl _, fun _ => rfl⟩
    · exact .inr ⟨_, roundReal_width _ _ _, isNaN_roundReal rfl _ (by positivity), fun _ => rfl⟩

theorem HandsOnNaN.width {op : Word → Word → Word → Word} (h : HandsOnNaN op) {nan : Word} (hn : nan.width = 64)
    (a b : Word) : (op nan a b).width = 64 := by
  rcases h.cases a b with h | ⟨d, hd, -, h⟩
  · rw [h, hn]
  · rw [h, hd]

/-- A machine operation on doubles that is `spec` on their words. -/
def Implements (op : Params → BitVec 64 → BitVec 64 → BitVec 64) (spec : Word → Word → Word → Word) : Prop :=
  ∀ p x y, doubleWord (op p x y) = spec (canonNaN p fp64) (doubleWord x) (doubleWord y)

theorem implements_double2 {op : Fmt → Word → Word → Word → Word} {spec : Word → Word → Word → Word}
    (hspec : HandsOnNaN spec)
    (h : ∀ nan a b, op fp64 nan a b = spec nan a b) : Implements (double2 op) spec := fun p x y => by
  rw [double2, h, doubleWord_ofNat (hspec.width (canonNaN_width p fp64) _ _)]

theorem implements_add64 : Implements add64 fun nan a b => addSpec fp64 nan a b false :=
  implements_double2 (handsOnNaN_add false) fun _ _ _ => contract_add_eq _ _ _ _ _

theorem implements_sub64 : Implements sub64 fun nan a b => addSpec fp64 nan a b true :=
  implements_double2 (handsOnNaN_add true) fun _ _ _ => contract_add_eq _ _ _ _ _

theorem implements_mul64 : Implements mul64 (mulSpec fp64) :=
  implements_double2 handsOnNaN_mul fun _ _ _ => contract_mul_eq _ _ _ _

theorem implements_div64 : Implements div64 (divSpec fp64) :=
  implements_double2 handsOnNaN_div fun _ _ _ => contract_div_eq _ _ _ _

/-! ### The way back -/

/-- The word that R194 specifies as a reference operator's binary64 result. -/
noncomputable def referenceSpec (spec : Word → Word → Word → Word) (F : Fmt) (a b : Word) : Word :=
  spec (defaultNaN fp64) (cvtSpec F fp64 (defaultNaN fp64) a) (cvtSpec F fp64 (defaultNaN fp64) b)

theorem isNaN_cvtSpec_defaultNaN {F : Fmt} {w : Word} (h : isNaN F w = true) :
    isNaN fp64 (cvtSpec F fp64 (defaultNaN fp64) w) = true := by
  rw [cvtSpec_of_isNaN h, isNaN_defaultNaN rfl]

/-- A NaN on both sides, the machine's the canonical one; or the double is the specification's and no NaN. -/
theorem referenceDouble_cases {op : Params → BitVec 64 → BitVec 64 → BitVec 64} {spec : Word → Word → Word → Word}
    (hspec : HandsOnNaN spec) (hop : Implements op spec) (p : Params) {F : Fmt} {a b : Word} (ha : a.width = F.W)
    (hb : b.width = F.W) (c : Nat) :
    (isNaN fp64 (referenceSpec spec F a b) = true ∧ doubleWord (referenceDouble op p F a b c) = canonNaN p fp64) ∨
    (isNaN fp64 (referenceSpec spec F a b) = false ∧
      doubleWord (referenceDouble op p F a b c) = referenceSpec spec F a b) := by
  have hdouble : doubleWord (referenceDouble op p F a b c) =
    spec (canonNaN p fp64) (doubleWord (toDouble c F a)) (doubleWord (toDouble (c + 1) F b)) := hop p _ _
  have hdefault : isNaN fp64 (defaultNaN fp64) = true := isNaN_defaultNaN rfl
  by_cases hnan : isNaN F a = true ∨ isNaN F b = true
  · rw [hdouble, referenceSpec, hspec.of_isNaN _ _ _ (hnan.imp isNaN_cvtSpec_defaultNaN isNaN_cvtSpec_defaultNaN),
      hspec.of_isNaN _ _ _ (hnan.imp (isNaN_toDouble ha · c) (isNaN_toDouble hb · (c + 1)))]
    exact .inl ⟨hdefault, rfl⟩
  · obtain ⟨hna, hnb⟩ : isNaN F a = false ∧ isNaN F b = false := by simpa using hnan
    rw [hdouble, referenceSpec, doubleWord_toDouble hna c (defaultNaN fp64), doubleWord_toDouble hnb (c + 1)
      (defaultNaN fp64)]
    rcases hspec.cases (cvtSpec F fp64 (defaultNaN fp64) a) (cvtSpec F fp64 (defaultNaN fp64) b) with h | ⟨d, -, hd, h⟩
    · rw [h, h]
      exact .inl ⟨hdefault, rfl⟩
    · rw [h, h]
      exact .inr ⟨hd, rfl⟩

theorem rangeError_of_isNaN {F : Fmt} {x : BitVec 64} (h : isNaN fp64 (doubleWord x) = true) : rangeError F x = none :=
  rangeError_eq_none (fun h4 => by simp [h4.2.1] at h) fun h5 => by simp [((isFinite_iff _ _).mp h5.2.1).1] at h

theorem drawsItsNaN_iff (F : Fmt) : drawsItsNaN F = true ↔ F.E = 8 ∧ F.M = 23 := by
  simp [drawsItsNaN]

/-- R181 and R184 of the canonical NaN in mode 000: canonical again, but for the draw at (8, 23). -/
theorem fromDouble_of_canonNaN {F : Fmt} (hdraws : drawsItsNaN F = false) {p : Params} {x : BitVec 64}
    (hx : doubleWord x = canonNaN p fp64) (c : Nat) : fromDouble p c F .nearestEven x = canonNaN p F := by
  by_cases h11 : F.E = 11 ∧ F.M = 52
  · rw [fromDouble_of_fp64 h11.1 h11.2, hx, canonNaN_eq_of_same p (same_fp64 h11.1 h11.2)]
  · have h8 : ¬ (F.E = 8 ∧ F.M = 23) := by simpa using (drawsItsNaN_iff F).not.mp (by simp [hdraws])
    rw [fromDouble_of_generic h11 h8, fromDoubleGeneric, hx, if_pos (isNaN_canonNaN p rfl)]

theorem reference_of_some {op : Params → BitVec 64 → BitVec 64 → BitVec 64} {F : Fmt} {a b : Word} {s : State}
    {info : ErrorInfo} (h : rangeError F (referenceDouble op s.params F a b s.draws) = some info) :
    reference op F a b s = .next ((s.drew 2).fail .rangeError info) :=
  finishFromDouble_of_some h .nearestEven (s.drew 2)

theorem reference_of_none {op : Params → BitVec 64 → BitVec 64 → BitVec 64} {F : Fmt} {a b : Word} {s : State}
    (h : rangeError F (referenceDouble op s.params F a b s.draws) = none) :
    reference op F a b s = .next ((s.drew 3).put (.word
      (fromDouble s.params (s.draws + 2) F .nearestEven (referenceDouble op s.params F a b s.draws)))) :=
  finishFromDouble_of_none h .nearestEven (s.drew 2)

/-- R194's way back, whatever the binary64 operation. -/
theorem referenceAnswers {op : Params → BitVec 64 → BitVec 64 → BitVec 64} {spec : Word → Word → Word → Word}
    (hspec : HandsOnNaN spec) (hop : Implements op spec) {F : Fmt} (hF : F.codecOk = true) {a b : Word}
    (ha : a.width = F.W)
    (hb : b.width = F.W) {i : Instr} {s : State} (hexec : exec i s = reference op F a b s) :
    ReferenceAnswers i F s (referenceSpec spec F a b) := by
  unfold ReferenceAnswers AnswersDrawing
  rw [hexec]
  rcases referenceDouble_cases hspec hop s.params ha hb s.draws with ⟨hnan, hx⟩ | ⟨hnan, hx⟩
  · have hxnan : isNaN fp64 (doubleWord (referenceDouble op s.params F a b s.draws)) = true := by
      rw [hx, isNaN_canonNaN _ rfl]
    have hrange := reference_of_none (rangeError_of_isNaN hxnan)
    refine ⟨fun h4 => ?_, fun h5 => ?_, fun _ hdraws => ⟨_, hrange, ?_⟩, fun _ hdraws => ?_, fun hnot => ?_⟩
    · simp [h4.2.1] at hnan
    · simp [((isFinite_iff _ _).mp h5.2.1).1] at hnan
    · obtain ⟨hE, hM⟩ := (drawsItsNaN_iff F).mp hdraws
      rw [fromDouble_of_fp32 hE hM, fromDoubleNative32_of_isNaN _ _ _ _ hxnan]
      exact ⟨drawNaN_width _ _, isNaN_drawNaN hF (variant_eq_ieee (by omega)) _⟩
    · rw [hrange, fromDouble_of_canonNaN hdraws hx]
    · simp [hnot] at hnan
  · rw [← hx] at hnan ⊢
    refine ⟨fun h4 => reference_of_some (rangeError_of_exceedsE4M3 h4),
      fun h5 => reference_of_some (rangeError_of_exceedsE5M2 h5), fun h => ?_, fun h => ?_, fun _ h4 h5 => ?_⟩
    · simp [h] at hnan
    · simp [h] at hnan
    · rw [reference_of_none (rangeError_eq_none h4 h5), fromDouble_nearestEven F hnan]

theorem fromDouble_nearestEven_width (F : Fmt) (p : Params) (c : Nat) (x : BitVec 64) :
    (fromDouble p c F .nearestEven x).width = F.W := by
  cases hnan : isNaN fp64 (doubleWord x) with
  | true =>
    by_cases h11 : F.E = 11 ∧ F.M = 52
    · rw [fromDouble_of_fp64 h11.1 h11.2, Fmt.W, h11.1, h11.2]
      rfl
    · by_cases h8 : F.E = 8 ∧ F.M = 23
      · rw [fromDouble_of_fp32 h8.1 h8.2, fromDoubleNative32_of_isNaN _ _ _ _ hnan, drawNaN_width]
      · rw [fromDouble_of_generic h11 h8, fromDoubleGeneric, if_pos hnan, canonNaN_width]
  | false =>
    rw [fromDouble_nearestEven F hnan, fromDoubleSpec]
    split
    · rfl
    · exact roundReal_width _ _ _

/-- R194: a RangeError is possible for a named narrow format alone (R185). -/
theorem reference_completes (op : Params → BitVec 64 → BitVec 64 → BitVec 64) (F : Fmt) (a b : Word) (s : State) :
    (∃ w, reference op F a b s = .next ((s.drew 3).put (.word w)) ∧ w.width = F.W) ∨
    (isNarrowNamed F = true ∧ ∃ info, reference op F a b s = .next ((s.drew 2).fail .rangeError info)) := by
  rcases reference_cases op F a b s with ⟨info, hsome, h⟩ | ⟨-, h⟩
  · refine .inr ⟨?_, info, h⟩
    by_contra hnarrow
    obtain ⟨h4, h5⟩ : F ≠ .named .fp8e4m3 ∧ F ≠ .named .fp8e5m2 := by simpa [isNarrowNamed] using hnarrow
    rw [rangeError_of_other h4 h5] at hsome
    cases hsome
  · exact .inl ⟨_, h, fromDouble_nearestEven_width _ _ _ _⟩

theorem codecOk_of_same {F G : Fmt} (h : F.same G = true) (hF : F.codecOk = true) : G.codecOk = true := by
  obtain ⟨hE, hM, -⟩ := (same_iff F G).mp h
  rwa [codecOk_iff, ← hE, ← hM, ← codecOk_iff]

theorem W_eq_of_same {F G : Fmt} (h : F.same G = true) : F.W = G.W := by
  obtain ⟨hE, hM, -⟩ := (same_iff F G).mp h
  rw [Fmt.W, hE, hM]
  rfl

theorem withSameFormat_of_ok {Fa Fb : Fmt} {a b : Word} (hFa : Fa.codecOk = true) (hFb : Fb.codecOk = true)
    (ha : a.width = Fa.W) (hb : b.width = Fb.W) (s : State) (k : StepOutcome) :
    withSameFormat Fa a Fb b s k = if Fa.same Fb then k else .next (s.fail .widthError .formatsDiffer) := by
  rw [withSameFormat, withCodecWord_of_ok hFa ha, withCodecWord_of_ok hFb hb, raise_eq]

/-- What every reference operator does with its operands (R194 to R198). -/
theorem exec_reference {Fa Fb : Fmt} {a b : Word} {i : Instr}
    (hi : i = .refAdd Fa a Fb b ∨ i = .refSub Fa a Fb b ∨ i = .refMul Fa a Fb b ∨ i = .refDiv Fa a Fb b) (s : State) :
    exec i s = withSameFormat Fa a Fb b s (emit (.word (canonNaN s.params Fa)) (s.drew 3)) ∨
    ∃ op, exec i s = withSameFormat Fa a Fb b s (reference op Fa a b s) := by
  rcases hi with rfl | rfl | rfl | rfl
  · exact .inr ⟨_, rfl⟩
  · exact .inr ⟨_, rfl⟩
  · exact .inr ⟨_, rfl⟩
  · cases h : isZero Fa a && isZero Fa b with
    | true => exact .inl (by rw [exec, execRefDiv, h]; rfl)
    | false => exact .inr ⟨div64, by rw [exec, execRefDiv, h]; rfl⟩

end Sys2Proof.Machine

namespace Sys2Proof.Machine.CodecFamily

open Sys2Proof Sys2Proof.Machine

/-- Settles O36: one format or WidthError, then zero by zero or R194's way through binary64. -/
theorem referenceOperatorsComplete : Obligations.ReferenceOperatorsComplete := by
  intro Fa Fb a b s i hFa hFb ha hb hi
  have hguard := withSameFormat_of_ok hFa hFb ha hb s
  refine ⟨fun hne => ?_, fun hsame hnarrow => ?_, fun hsame hnarrow => ?_⟩
  · rcases exec_reference hi s with h | ⟨op, h⟩ <;> rw [Raises, h, hguard, hne] <;> rfl
  · rcases exec_reference hi s with h | ⟨op, h⟩ <;> rw [hguard, hsame] at h
    · exact ⟨_, h, canonNaN_width _ _⟩
    · rcases reference_completes op Fa a b s with ⟨w, hw, hwidth⟩ | ⟨hn, -⟩
      · exact ⟨w, h.trans hw, hwidth⟩
      · simp [hn] at hnarrow
  · rcases exec_reference hi s with h | ⟨op, h⟩ <;> rw [hguard, hsame] at h
    · exact .inl ⟨_, h, canonNaN_width _ _⟩
    · rcases reference_completes op Fa a b s with ⟨w, hw, hwidth⟩ | ⟨-, info, hinfo⟩
      · exact .inl ⟨w, h.trans hw, hwidth⟩
      · exact .inr ⟨info, h.trans hinfo⟩

/-- Settles O37: both conversions and the binary64 operation are their specifications, a NaN canonical. -/
theorem referenceRoundsThroughBinary64 : Obligations.ReferenceRoundsThroughBinary64 := by
  intro F G a b s hF hsame ha hb nan da db
  have hguard (k : StepOutcome) : withSameFormat F a G b s k = k := by
    rw [withSameFormat_of_ok hF (codecOk_of_same hsame hF) ha (hb.trans (W_eq_of_same hsame)), hsame]
    rfl
  refine ⟨fun w hw hfin hE hM => ?_, referenceAnswers (handsOnNaN_add false) implements_add64 hF ha hb (hguard _),
    referenceAnswers (handsOnNaN_add true) implements_sub64 hF ha hb (hguard _),
    referenceAnswers handsOnNaN_mul implements_mul64 hF ha hb (hguard _), fun hza hzb => ?_, fun hz => ?_⟩
  · obtain ⟨hfin64, hs, habs⟩ := roundReal_fp64_exact hF hE hM hfin
    rw [cvtSpec_of_isFinite hfin]
    exact ⟨hfin64, realValue_eq_of_sign_of_abs hs habs, hs⟩
  · rw [AnswersDrawing, exec, execRefDiv, hguard, hza, hzb]
    rfl
  · refine referenceAnswers handsOnNaN_div implements_div64 hF ha hb ?_
    have hzero : ¬ (isZero F a && isZero F b) = true := by rwa [Bool.and_eq_true]
    rw [exec, execRefDiv, hguard, if_neg hzero]

end Sys2Proof.Machine.CodecFamily
end

section
/-! SUPPORT. Rounding in the datapaths (spec/42_rounding.md R230 to R234, 43_adder.md R264 and R265, 44_multiplier.md
R305 and R306): the round-up bit is R127's decision, a sticky bit stands for what was shifted out, and rounding and
packing a normalised significand is the rounding of the real number it stands for. -/

namespace Sys2Proof.Machine

open Sys2Proof

/-! ### The round-up bit -/

/-- The bits below the guard bit, as the round and sticky bits read them. -/
theorem round_or_sticky (B n : Nat) :
    (decide (2 ≤ n + 1) && B.testBit (n - 1) || decide (3 ≤ n + 1) && decide (B % 2 ^ (n - 1) ≠ 0)) =
      decide (B % 2 ^ n ≠ 0) := by
  cases n with
  | zero => simp [Nat.mod_one]
  | succ k =>
    have hpos := Nat.two_pow_pos k
    have hlow : k = 0 → B % 2 ^ k = 0 := by rintro rfl; exact Nat.mod_one B
    rw [Nat.add_sub_cancel, mod_two_pow_succ]
    cases B.testBit k
    · simp; omega
    · simp

/-- R230 to R232 are R127's decision about `B / 2^lsb`. -/
theorem roundUp_iff (B lsb : Nat) : roundUp B lsb = true ↔
    2 ^ lsb < 2 * (B % 2 ^ lsb) ∨ 2 * (B % 2 ^ lsb) = 2 ^ lsb ∧ B / 2 ^ lsb % 2 = 1 := by
  cases lsb with
  | zero => simp [roundUp, Nat.mod_one]
  | succ n =>
    have hlow := Nat.mod_lt B (Nat.two_pow_pos n)
    have hlast : B.testBit (n + 1) = decide (B / 2 ^ (n + 1) % 2 = 1) := Nat.testBit_eq_decide_div_mod_eq
    have hsticky := round_or_sticky B n
    simp only [roundUp, Nat.add_sub_cancel, Nat.le_add_left, decide_true, Bool.true_and, Bool.or_assoc,
      hlast] at hsticky ⊢
    rw [show n + 1 - 2 = n - 1 by omega, hsticky, mod_two_pow_succ, pow_succ]
    cases B.testBit n
    · simp; omega
    · simp; omega

theorem nearestEven_two_pow (X lsb : Nat) : nearestEven X (2 ^ lsb) = X / 2 ^ lsb + (roundUp X lsb).toNat := by
  have h := roundUp_iff X lsb
  unfold nearestEven
  dsimp only
  split
  next hup => rw [h.mpr hup, Bool.toNat_true]
  next hdown => rw [Bool.eq_false_iff.mpr (mt h.mp hdown), Bool.toNat_false, Nat.add_zero]

/-! ### Rounding and packing -/

/-- R264 and R265 are the last lines of R127, at the binade of the biased exponent. -/
theorem roundAndPack_eq_packRounded {F : Fmt} (hF : F.unitOk = true) (s : Bool) (X lsb re : Nat) :
    roundAndPack F s X lsb re = packRounded F s (re - F.bias) (nearestEven X (2 ^ lsb)) (infWordOf F s) := by
  obtain ⟨hv, hE, -⟩ := (unitOk_iff F).mp hF
  have heall := eall_eq (F := F) (by omega)
  have hover (r : Nat) : (r : ℤ) - F.bias > F.emax ↔ r ≥ F.eall := by
    rw [emax_eq hv]
    omega
  have hfield (r : Nat) : ((r : ℤ) - F.bias + F.bias).toNat = r := by omega
  rw [nearestEven_two_pow]
  simp only [roundAndPack, packUnit, packRounded]
  by_cases hcarry : X / 2 ^ lsb + (roundUp X lsb).toNat = 2 ^ (F.M + 1)
  · have hsucc : (re : ℤ) - F.bias + 1 = ((re + 1 : Nat) : ℤ) - F.bias := by push_cast; ring
    simp only [hcarry, if_true, hsucc, hover, hfield]
  · simp only [hcarry, if_false, hover, hfield]

/-- A normalised significand, rounded as the real number it stands for, is packed as that number is. -/
theorem roundAndPack_eq_roundReal {F : Fmt} (hF : F.unitOk = true) (s : Bool) {X lsb re : Nat} {x : ℝ} (hx : 0 < x)
    (hre : 1 ≤ re) (hlt : x < 2 ^ ((re : ℤ) - F.bias + 1)) (hnormal : re = 1 ∨ 2 ^ ((re : ℤ) - F.bias) ≤ x)
    (hround : tiesToEven ((X : ℝ) / 2 ^ lsb) = tiesToEven (x / 2 ^ ((re : ℤ) - F.bias - F.M))) :
    roundAndPack F s X lsb re = roundReal F s x := by
  have hq : realBinade F x = (re : ℤ) - F.bias :=
    realBinade_eq hx (by rw [Fmt.emin]; omega) hlt (hnormal.imp_left fun h => by rw [h]; rfl)
  have hN := tiesToEven_natCast_div (Nat.two_pow_pos lsb) X
  rw [Nat.cast_pow, Nat.cast_two, hround, ← hq] at hN
  rw [roundAndPack_eq_packRounded hF, packRounded_eq, ← hN, roundReal_of_ne_zero F s hx.ne', realUlps, ← hq]

/-! ### The sticky bit -/

/-- `X` stands for the real `Y`: exactly, or `Y` is strictly between the even numbers around an odd `X`. -/
def IsSticky (X : Nat) (Y : ℝ) : Prop := (X : ℝ) = Y ∨ Odd X ∧ (X : ℝ) - 1 < Y ∧ Y < X + 1

/-- An even number lies on the same side of both. -/
theorem IsSticky.le_iff {X : Nat} {Y : ℝ} (h : IsSticky X Y) {T : ℤ} (hT : Even T) :
    ((T : ℝ) ≤ Y ↔ T ≤ X) ∧ ((T : ℝ) < Y ↔ T < X) := by
  rcases h with rfl | ⟨hodd, hlo, hhi⟩
  · exact ⟨by norm_cast, by norm_cast⟩
  · have hne : T ≠ X := by
      rintro rfl
      exact (Int.not_even_iff_odd.mpr ((Int.odd_coe_nat X).mpr hodd)) hT
    have below (hle : T ≤ X) : (T : ℝ) < Y := by
      have : (T : ℝ) ≤ X - 1 := by exact_mod_cast Int.le_sub_one_of_lt (lt_of_le_of_ne hle hne)
      linarith
    have above (hle : (T : ℝ) ≤ Y) : T ≤ X := by
      have : (T : ℝ) < X + 1 := by linarith
      exact Int.lt_add_one_iff.mp (by exact_mod_cast this)
    exact ⟨⟨above, fun h => (below h).le⟩, fun h => lt_of_le_of_ne (above h.le) hne, fun h => below h.le⟩

/-- With two bits or more below the last one kept, the sticky bit rounds as the number it stands for. -/
theorem IsSticky.tiesToEven {X : Nat} {Y : ℝ} (h : IsSticky X Y) {lsb : Nat} (hlsb : 2 ≤ lsb) :
    Machine.tiesToEven ((X : ℝ) / 2 ^ lsb) = Machine.tiesToEven (Y / 2 ^ lsb) := by
  obtain ⟨k, rfl⟩ := Nat.exists_eq_add_of_le' hlsb
  have hmid (n : ℤ) : ((n : ℝ) - 1 / 2) * 2 ^ (k + 2) = (((2 * n - 1) * 2 ^ (k + 1) : ℤ) : ℝ) := by
    push_cast
    ring
  have hX : (X : ℝ) = (((X : ℤ)) : ℝ) := by norm_cast
  refine eq_of_forall_le_iff fun n => ?_
  have heven : Even ((2 * n - 1) * 2 ^ (k + 1)) := (even_two.pow_of_ne_zero (Nat.succ_ne_zero k)).mul_left _
  obtain ⟨hle, hlt⟩ := h.le_iff heven
  rcases Int.even_or_odd n with hn | hn
  · rw [le_tiesToEven_iff_of_even hn, le_tiesToEven_iff_of_even hn, le_div_iff₀ (by positivity),
    le_div_iff₀ (by positivity),
      hmid, hle, hX, Int.cast_le]
  · rw [le_tiesToEven_iff_of_odd hn, le_tiesToEven_iff_of_odd hn, lt_div_iff₀ (by positivity),
    lt_div_iff₀ (by positivity),
      hmid, hlt, hX, Int.cast_lt]

theorem shiftRightSticky_of_exact {X k : Nat} (h : X % 2 ^ k = 0) : shiftRightSticky X k = X / 2 ^ k := by
  simp [shiftRightSticky, h]

theorem shiftRightSticky_of_inexact {X k : Nat} (h : X % 2 ^ k ≠ 0) :
    shiftRightSticky X k = 2 * (X / 2 ^ k / 2) + 1 := by
  have hodd : (X / 2 ^ k ||| 1) % 2 = 1 := Nat.or_mod_two_eq_one.mpr (.inr rfl)
  have hhalf : (X / 2 ^ k ||| 1) / 2 = X / 2 ^ k / 2 := by rw [Nat.or_div_two, Nat.or_zero]
  rw [shiftRightSticky, if_pos h]
  omega

/-- R305's shift keeps standing for the number shifted. -/
theorem IsSticky.shiftRight {X : Nat} {Y : ℝ} (h : IsSticky X Y) (k : Nat) :
    IsSticky (shiftRightSticky X k) (Y / 2 ^ k) := by
  have hdiv := Nat.div_add_mod X (2 ^ k)
  by_cases hr : X % 2 ^ k = 0
  · rw [shiftRightSticky_of_exact hr]
    rcases h with rfl | h
    · left
      have hX : (X : ℝ) = 2 ^ k * (X / 2 ^ k : Nat) := by exact_mod_cast (by omega : X = 2 ^ k * (X / 2 ^ k))
      rw [eq_div_iff (by positivity)]
      linarith
    · have hk : k = 0 := by
        by_contra hk
        have h2 : 2 ∣ X := (dvd_pow_self 2 hk).trans (Nat.dvd_of_mod_eq_zero hr)
        exact Nat.not_even_iff_odd.mpr h.1 (even_iff_two_dvd.mpr h2)
      subst hk
      right
      simpa using h
  · have hlt := Nat.mod_lt X (Nat.two_pow_pos k)
    obtain ⟨hlo, hhi⟩ : (X : ℝ) - 1 < Y ∧ Y < X + 1 := by
      rcases h with rfl | ⟨-, h⟩
      · constructor <;> linarith
      · exact h
    have hbelow : 2 * (X / 2 ^ k / 2) * 2 ^ k + 1 ≤ X := by
      have := Nat.mul_le_mul_right (2 ^ k) (Nat.mul_div_le (X / 2 ^ k) 2)
      rw [mul_comm (2 ^ k)] at hdiv
      omega
    have habove : X + 1 ≤ (2 * (X / 2 ^ k / 2) + 2) * 2 ^ k := by
      have := Nat.mul_le_mul_right (2 ^ k) (by omega : X / 2 ^ k + 1 ≤ 2 * (X / 2 ^ k / 2) + 2)
      rw [Nat.succ_mul, mul_comm _ (2 ^ k)] at this
      omega
    have hbelow : (2 * (X / 2 ^ k / 2 : Nat) * 2 ^ k + 1 : ℝ) ≤ X := by exact_mod_cast hbelow
    have habove : (X : ℝ) + 1 ≤ (2 * (X / 2 ^ k / 2 : Nat) + 2) * 2 ^ k := by exact_mod_cast habove
    rw [shiftRightSticky_of_inexact hr]
    refine .inr ⟨odd_two_mul_add_one _, ?_, ?_⟩
    · rw [lt_div_iff₀ (by positivity)]
      push_cast
      linarith
    · rw [div_lt_iff₀ (by positivity)]
      push_cast
      linarith

theorem isSticky_shiftRightSticky (X k : Nat) : IsSticky (shiftRightSticky X k) ((X : ℝ) / 2 ^ k) :=
  IsSticky.shiftRight (.inl rfl) k

/-! ### Normalised significands -/

/-- A significand `Z` with `lsb` bits below the last one kept, normalised or in the lowest binade. -/
theorem roundAndPack_of_significand {F : Fmt} (hF : F.unitOk = true) (s : Bool) {X lsb re : Nat} {Z : ℝ} (hre : 1 ≤ re)
    (hpos : 0 < Z) (hlt : Z < 2 ^ (F.M + lsb + 1)) (hnormal : re = 1 ∨ 2 ^ (F.M + lsb) ≤ Z)
    (hround : tiesToEven ((X : ℝ) / 2 ^ lsb) = tiesToEven (Z / 2 ^ lsb)) :
    roundAndPack F s X lsb re = roundReal F s (Z * 2 ^ ((re : ℤ) - F.bias - F.M - lsb)) := by
  have hscale (n : Nat) (c : ℤ) : (2 : ℝ) ^ (F.M + lsb + n) * 2 ^ (c - F.M - lsb) = 2 ^ (c + n) := by
    rw [← zpow_natCast, ← zpow_add₀ two_ne_zero]
    congr 1
    push_cast
    ring
  have hulps : Z * 2 ^ ((re : ℤ) - F.bias - F.M - lsb) / 2 ^ ((re : ℤ) - F.bias - F.M) = Z / 2 ^ lsb := by
    rw [zpow_sub₀ two_ne_zero _ (lsb : ℤ), zpow_natCast]
    field_simp
  refine roundAndPack_eq_roundReal hF s (by positivity) hre ?_ (hnormal.imp_right fun h => ?_) (by rw [hround, hulps])
  · exact (mul_lt_mul_of_pos_right hlt (by positivity)).trans_eq (by exact_mod_cast hscale 1 _)
  · calc (2 : ℝ) ^ ((re : ℤ) - F.bias) = 2 ^ (F.M + lsb) * 2 ^ ((re : ℤ) - F.bias - F.M - lsb) := by
          simpa using (hscale 0 ((re : ℤ) - F.bias)).symm
      _ ≤ _ := mul_le_mul_of_nonneg_right h (by positivity)

/-- A left shift of a normalised sum: where a sticky bit hides something, two bits stay below the last one kept. -/
theorem roundAndPack_shiftLeft {F : Fmt} (hF : F.unitOk = true) (s : Bool) {D sh lsb e : Nat} {Y : ℝ} (h : IsSticky D Y)
    (hexact : (D : ℝ) = Y ∨ sh + 2 ≤ lsb) (hpos : 0 < Y) (hsh : sh < e) (hlt : Y * 2 ^ sh < 2 ^ (F.M + lsb + 1))
    (hnormal : e - sh = 1 ∨ 2 ^ (F.M + lsb) ≤ Y * 2 ^ sh) :
    roundAndPack F s (D * 2 ^ sh) lsb (e - sh) = roundReal F s (Y * 2 ^ ((e : ℤ) - F.bias - F.M - lsb)) := by
  have hvalue : Y * 2 ^ ((e : ℤ) - F.bias - F.M - lsb) =
    Y * 2 ^ sh * 2 ^ (((e - sh : Nat) : ℤ) - F.bias - F.M - lsb) := by
    rw [mul_assoc, ← zpow_natCast, ← zpow_add₀ two_ne_zero]
    congr 2
    omega
  rw [hvalue]
  refine roundAndPack_of_significand hF s (by omega) (by positivity) hlt hnormal ?_
  push_cast
  rcases hexact with rfl | hlsb
  · rfl
  · obtain ⟨k, rfl⟩ := Nat.exists_eq_add_of_le (show sh ≤ lsb by omega)
    have hcancel (z : ℝ) : z * 2 ^ sh / 2 ^ (sh + k) = z / 2 ^ k := by
      rw [pow_add]
      field_simp
    rw [hcancel, hcancel, h.tiesToEven (by omega)]

/-- The right shift of a sum that carried out. -/
theorem roundAndPack_shiftRight {F : Fmt} (hF : F.unitOk = true) (s : Bool) {D lsb e : Nat} {Y : ℝ} (h : IsSticky D Y)
    (hlsb : 2 ≤ lsb) (hlt : Y < 2 ^ (F.M + lsb + 2)) (hnormal : 2 ^ (F.M + lsb + 1) ≤ Y) :
    roundAndPack F s (shiftRightSticky D 1) lsb (e + 1) = roundReal F s (Y * 2 ^ ((e : ℤ) - F.bias - F.M - lsb)) := by
  have hpos : 0 < Y := lt_of_lt_of_le (by positivity) hnormal
  have hvalue : Y * 2 ^ ((e : ℤ) - F.bias - F.M - lsb) =
    Y / 2 ^ 1 * 2 ^ (((e + 1 : Nat) : ℤ) - F.bias - F.M - lsb) := by
    have hexp : ((e + 1 : Nat) : ℤ) - F.bias - F.M - lsb = (e : ℤ) - F.bias - F.M - lsb + 1 := by push_cast; ring
    rw [hexp, zpow_add_one₀ two_ne_zero]
    ring
  rw [hvalue]
  refine roundAndPack_of_significand hF s (by omega) (by positivity) ?_ (.inr ?_) ((h.shiftRight 1).tiesToEven hlsb)
  · rw [pow_one, div_lt_iff₀ two_pos, ← pow_succ]
    exact hlt
  · rw [pow_one, le_div_iff₀ two_pos, ← pow_succ]
    exact hnormal

/-- R305's denormalisation of a normalised significand, and the rounding after it. -/
theorem roundAndPack_denormalise {F : Fmt} (hF : F.unitOk = true) (s : Bool) {X lsb : Nat} {Y : ℝ} (re : ℤ)
    (h : IsSticky X Y) (hlsb : 2 ≤ lsb) (hlt : Y < 2 ^ (F.M + lsb + 1)) (hnormal : 2 ^ (F.M + lsb) ≤ Y) :
    roundAndPack F s (denormalise X re).1 lsb (denormalise X re).2 =
      roundReal F s (Y * 2 ^ (re - F.bias - F.M - lsb)) := by
  have hpos : 0 < Y := lt_of_lt_of_le (by positivity) hnormal
  unfold denormalise
  split
  next hlow =>
    obtain ⟨k, hk⟩ : ∃ k : Nat, re = 1 - k := ⟨(1 - re).toNat, by omega⟩
    have hshift : (1 - re).toNat = k := by omega
    have hvalue : Y * 2 ^ (re - F.bias - F.M - lsb) = Y / 2 ^ k * 2 ^ (((1 : Nat) : ℤ) - F.bias - F.M - lsb) := by
      have hexp : re - F.bias - F.M - lsb = ((1 : Nat) : ℤ) - F.bias - F.M - lsb - k := by rw [hk]; push_cast; ring
      rw [hexp, zpow_sub₀ two_ne_zero _ (k : ℤ), zpow_natCast]
      ring
    rw [hshift, hvalue]
    refine roundAndPack_of_significand hF s le_rfl (by positivity) ?_ (.inl rfl) ((h.shiftRight k).tiesToEven hlsb)
    exact (div_le_self hpos.le (one_le_pow₀ one_le_two)).trans_lt hlt
  next hnot =>
    obtain ⟨e, rfl⟩ : ∃ e : Nat, re = e := ⟨re.toNat, by omega⟩
    exact roundAndPack_of_significand hF s (by omega) hpos hlt (.inr hnormal) (h.tiesToEven hlsb)

/-! ### Leading zeros -/

/-- R263's encoder shifts the leading one of a nonzero number to the top of its `n` bits. -/
theorem leadingZeros_spec {n v : Nat} (h0 : v ≠ 0) (hv : v < 2 ^ n) :
    leadingZeros n v < n ∧ 2 ^ (n - 1) ≤ v * 2 ^ leadingZeros n v ∧ v * 2 ^ leadingZeros n v < 2 ^ n := by
  have hlog : v.log2 < n := (Nat.log2_lt h0).mpr hv
  have hlo := Nat.log2_self_le h0
  have hhi := Nat.lt_log2_self (n := v)
  rw [leadingZeros, if_neg h0]
  have hle : n - 1 = v.log2 + (n - 1 - v.log2) := by omega
  have hn : n = v.log2 + 1 + (n - 1 - v.log2) := by omega
  refine ⟨by omega, ?_, ?_⟩
  · calc 2 ^ (n - 1) = 2 ^ v.log2 * 2 ^ (n - 1 - v.log2) := by rw [← pow_add, ← hle]
      _ ≤ _ := Nat.mul_le_mul_right _ hlo
  · calc v * 2 ^ (n - 1 - v.log2) < 2 ^ (v.log2 + 1) * 2 ^ (n - 1 - v.log2) :=
          Nat.mul_lt_mul_of_pos_right hhi (Nat.two_pow_pos _)
      _ = 2 ^ n := by rw [← pow_add, ← hn]

theorem leadingZeros_add_lt {n k v : Nat} (h0 : v ≠ 0) (hv : v < 2 ^ n) (h : 2 ^ k ≤ v) : leadingZeros n v + k < n := by
  obtain ⟨-, -, hhi⟩ := leadingZeros_spec h0 hv
  have hpow := (Nat.mul_le_mul_right (2 ^ leadingZeros n v) h).trans_lt hhi
  rw [← pow_add, Nat.pow_lt_pow_iff_right one_lt_two] at hpow
  omega

theorem leadingZeros_pos {n v : Nat} (h0 : v ≠ 0) (hv : v < 2 ^ (n - 1)) : 0 < leadingZeros n v := by
  obtain ⟨-, hlo, -⟩ := leadingZeros_spec h0 (hv.trans_le (Nat.pow_le_pow_right two_pos (Nat.sub_le n 1)))
  by_contra hz
  rw [Nat.eq_zero_of_not_pos hz, pow_zero, mul_one] at hlo
  omega

end Sys2Proof.Machine
end

section
/-! SUPPORT. The multiplier beside its reference operator (spec/44_multiplier.md R300 to R308, 41_value_codec.md R199):
the multiplier rounds the exact product once, and for E ≤ 10 and M ≤ 24 the product is exact in binary64. -/

namespace Sys2Proof.Machine

open Sys2Proof

/-! ### The multiplier's algorithm -/

/-- R302 to R308 round the exact product of two nonzero words once. -/
theorem finiteProduct_eq {F : Fmt} (hF : F.unitOk = true) (s : Bool) {a b : Word} (ha : isZero F a = false)
    (hb : isZero F b = false) : finiteProduct F s a b = roundReal F s (|realValue F a| * |realValue F b|) := by
  have hP0 : significand F a * significand F b ≠ 0 := Nat.mul_ne_zero (significand_pos ha).ne' (significand_pos hb).ne'
  have hP : significand F a * significand F b < 2 ^ (2 * F.M + 2) := by
    have h := Nat.mul_lt_mul'' (significand_lt F a) (significand_lt F b)
    rwa [← pow_add, show F.M + 1 + (F.M + 1) = 2 * F.M + 2 by ring] at h
  obtain ⟨-, hlo, hhi⟩ := leadingZeros_spec hP0 hP
  set lz := leadingZeros (2 * F.M + 2) (significand F a * significand F b)
  have hlt : ((significand F a * significand F b * 2 ^ lz * 2 : Nat) : ℝ) < 2 ^ (F.M + (F.M + 2) + 1) := by
    have h : significand F a * significand F b * 2 ^ lz * 2 < 2 ^ (2 * F.M + 2) * 2 := by omega
    rw [← pow_succ, show 2 * F.M + 2 + 1 = F.M + (F.M + 2) + 1 by ring] at h
    exact_mod_cast h
  have hge : (2 : ℝ) ^ (F.M + (F.M + 2)) ≤ ((significand F a * significand F b * 2 ^ lz * 2 : Nat) : ℝ) := by
    have h : 2 ^ (2 * F.M + 2 - 1) * 2 ≤ significand F a * significand F b * 2 ^ lz * 2 := by omega
    rw [← pow_succ, show 2 * F.M + 2 - 1 + 1 = F.M + (F.M + 2) by omega] at h
    exact_mod_cast h
  have hround := roundAndPack_denormalise hF s ((effExp F a : ℤ) + effExp F b - F.bias - (lz - 1)) (.inl rfl)
    (Nat.le_add_left 2 F.M) hlt hge
  have hvalue : ((significand F a * significand F b * 2 ^ lz * 2 : Nat) : ℝ) *
      2 ^ ((effExp F a : ℤ) + effExp F b - F.bias - (lz - 1) - F.bias - F.M - (F.M + 2 : Nat)) =
      |realValue F a| * |realValue F b| := by
    have hexp : ((effExp F a : ℤ) - F.bias - F.M) + ((effExp F b : ℤ) - F.bias - F.M) =
        (lz + 1 : Nat) + ((effExp F a : ℤ) + effExp F b - F.bias - (lz - 1) - F.bias - F.M - (F.M + 2 : Nat)) := by
      push_cast
      ring
    rw [abs_realValue, abs_realValue, mul_mul_mul_comm, ← zpow_add₀ two_ne_zero, hexp, zpow_add₀ two_ne_zero,
      zpow_natCast]
    push_cast
    ring
  exact hround.trans (by rw [hvalue])

/-- R300 of the machine's multiplier. -/
theorem multiplierProduct_eq_mulSpec {F : Fmt} (hF : F.unitOk = true) (nan a b : Word) :
    multiplierProduct F nan a b = mulSpec F nan a b := by
  simp only [multiplierProduct, mulSpec, Bool.or_eq_true, Bool.and_eq_true]
  split
  · rfl
  split
  · rfl
  split
  · rfl
  split
  · rfl
  next hz =>
    obtain ⟨ha, hb⟩ : isZero F a = false ∧ isZero F b = false := by simpa using hz
    exact finiteProduct_eq hF _ ha hb

/-! ### Words of a format beside their doubles -/

/-- What a double keeps of the word it was converted from. -/
structure SameClass (F : Fmt) (w d : Word) : Prop where
  isNaN : isNaN fp64 d = false
  isInf : isInf fp64 d = isInf F w
  isZero : isZero fp64 d = isZero F w
  signOf : signOf fp64 d = signOf F w
  abs : isFinite F w = true → |realValue fp64 d| = |realValue F w|

theorem isZero_eq_false_of_isInf {F : Fmt} {w : Word} (hF : F.codecOk = true) (h : isInf F w = true) :
    isZero F w = false := by
  by_contra hz
  have hfin := isFinite_of_isZero hF (by simpa using hz)
  simp [((isFinite_iff _ _).mp hfin).2] at h

theorem isZero_iff_abs_realValue {F : Fmt} {w : Word} : isZero F w = true ↔ |realValue F w| = 0 := by
  refine ⟨abs_realValue_of_isZero, fun h => ?_⟩
  by_contra hz
  exact (abs_realValue_pos (by simpa using hz)).ne' h

/-- R186, for formats inside binary64. -/
theorem sameClass_cvtSpec {F : Fmt} {w : Word} (hF : F.codecOk = true) (hE : F.E ≤ 11) (hM : F.M ≤ 52)
    (hnan : isNaN F w = false) (nan : Word) : SameClass F w (cvtSpec F fp64 nan w) := by
  cases hinf : Machine.isInf F w with
  | true =>
    rw [cvtSpec_of_isInf hinf]
    have h64 (s : Bool) : Machine.isNaN fp64 (infWordOf fp64 s) = false ∧ Machine.isInf fp64 (infWordOf fp64 s) = true ∧
        Machine.isZero fp64 (infWordOf fp64 s) = false ∧ Machine.signOf fp64 (infWordOf fp64 s) = s := by
      cases s <;> decide
    obtain ⟨h1, h2, h3, h4⟩ := h64 (Machine.signOf F w)
    refine ⟨h1, by rw [h2, hinf], by rw [h3, isZero_eq_false_of_isInf hF hinf], h4, fun hfin => ?_⟩
    simp [((isFinite_iff _ _).mp hfin).2] at hinf
  | false =>
    have hfin := (isFinite_iff F w).mpr ⟨hnan, hinf⟩
    obtain ⟨hfin64, hs, habs⟩ := roundReal_fp64_exact hF hE hM hfin
    obtain ⟨hnan64, hinf64⟩ := (isFinite_iff _ _).mp hfin64
    rw [cvtSpec_of_isFinite hfin]
    refine ⟨hnan64, by rw [hinf64, hinf], ?_, hs, fun _ => habs⟩
    rw [Bool.eq_iff_iff, isZero_iff_abs_realValue, habs, isZero_iff_abs_realValue]

theorem fromDoubleSpec_infWordOf (F : Fmt) (s : Bool) : fromDoubleSpec F (infWordOf fp64 s) = infWordOf F s := by
  have h64 : isInf fp64 (infWordOf fp64 s) = true ∧ signOf fp64 (infWordOf fp64 s) = s := by cases s <;> decide
  rw [fromDoubleSpec_of_isInf F h64.1, h64.2]

theorem fromDoubleSpec_zeroWordOf (F : Fmt) (s : Bool) : fromDoubleSpec F (zeroWordOf fp64 s) = zeroWordOf F s := by
  have hz : isZero fp64 (zeroWordOf fp64 s) = true ∧ signOf fp64 (zeroWordOf fp64 s) = s := by cases s <;> decide
  rw [fromDoubleSpec_of_isFinite F (isFinite_of_isZero rfl hz.1), abs_realValue_of_isZero hz.1, hz.2, roundReal_zero]

/-- Rounding to binary64 first, without an overflow there. -/
theorem fromDoubleSpec_roundReal (F : Fmt) (s : Bool) {a : ℝ} (ha : 0 ≤ a)
    (h : roundedValue fp64 a < 2 ^ (fp64.emax + 1)) :
    fromDoubleSpec F (roundReal fp64 s a) = roundReal F s (roundedValue fp64 a) := by
  obtain ⟨hs, -, hval⟩ := roundReal_value (F := fp64) (by decide) s ha h
  rw [fromDoubleSpec_of_isFinite F (isFinite_roundReal rfl s ha h), hs, hval]

/-! ### The product in binary64 -/

theorem bias_le_511 {F : Fmt} (hE : F.E ≤ 10) : F.bias ≤ 511 := bias_mono (G := .generic 10 1) hE

/-- For E ≤ 10 and M ≤ 24 no bit of a product is lost in binary64. -/
theorem representable_product {F : Fmt} (hE : F.E ≤ 10) (hM : F.M ≤ 24) (a b : Word) :
    Representable fp64 (|realValue F a| * |realValue F b|) := by
  have hbias := bias_le_511 hE
  have hN : significand F a * significand F b < 2 ^ (fp64.M + 1) := by
    have h := Nat.mul_lt_mul'' (significand_lt F a) (significand_lt F b)
    rw [← pow_add] at h
    exact h.trans_le (Nat.pow_le_pow_right two_pos (by change _ ≤ 53; omega))
  have hea : 1 ≤ effExp F a := le_max_right _ _
  have heb : 1 ≤ effExp F b := le_max_right _ _
  have hmin : fp64.emin = -1022 := by decide
  have h52 : fp64.M = 52 := rfl
  refine ⟨_, ((effExp F a : ℤ) - F.bias - F.M) + ((effExp F b : ℤ) - F.bias - F.M) + fp64.M, hN, ?_, ?_⟩
  · rw [hmin, h52]
    push_cast
    omega
  · rw [add_sub_cancel_right, zpow_add₀ two_ne_zero, abs_realValue, abs_realValue]
    push_cast
    ring

theorem product_lt {F : Fmt} (hF : F.unitOk = true) (hE : F.E ≤ 10) {a b : Word} (ha : isFinite F a = true)
    (hb : isFinite F b = true) : |realValue F a| * |realValue F b| < 2 ^ (fp64.emax + 1) := by
  obtain ⟨hv, hE2, -⟩ := (unitOk_iff F).mp hF
  have hbias := bias_le_511 hE
  have bound {w : Word} (h : isFinite F w = true) : |realValue F w| < 2 ^ (512 : ℤ) := by
    refine (abs_realValue_lt_of_isFinite (codecOk_of_unitOk hF) hE2 h).trans_le (zpow_le_zpow_right₀ one_le_two ?_)
    rw [emax_eq hv]
    omega
  have hmax : fp64.emax + 1 = 512 + 512 := by decide
  rw [hmax, zpow_add₀ two_ne_zero]
  exact mul_lt_mul'' (bound ha) (bound hb) (abs_nonneg _) (abs_nonneg _)

/-- R199 for the product: binary64 in between changes nothing. -/
theorem fromDoubleSpec_mulSpec {F : Fmt} (hF : F.unitOk = true) (hE : F.E ≤ 10) (hM : F.M ≤ 24) {a b da db : Word}
    (ha : SameClass F a da) (hb : SameClass F b db) (hna : isNaN F a = false) (hnb : isNaN F b = false)
    (hab : ¬ (isInf F a = true ∧ isZero F b = true)) (hba : ¬ (isZero F a = true ∧ isInf F b = true))
    (nan nan' : Word) :
    isNaN fp64 (mulSpec fp64 nan da db) = false ∧ fromDoubleSpec F (mulSpec fp64 nan da db) = mulSpec F nan' a b := by
  have hspecial : ¬ (isInf F a = true ∧ isZero F b = true ∨ isZero F a = true ∧ isInf F b = true) :=
    not_or.mpr ⟨hab, hba⟩
  simp only [mulSpec, ha.isNaN, hb.isNaN, ha.isInf, hb.isInf, ha.isZero, hb.isZero, ha.signOf, hb.signOf, hna, hnb,
    Bool.false_eq_true, or_self, if_false, if_neg hspecial]
  split
  · exact ⟨isNaN_infWordOf rfl _, fromDoubleSpec_infWordOf F _⟩
  next hinf =>
    split
    · exact ⟨isNaN_zeroWordOf rfl _, fromDoubleSpec_zeroWordOf F _⟩
    · obtain ⟨hia, hib⟩ : isInf F a = false ∧ isInf F b = false := by simpa using hinf
      have hfa := (isFinite_iff F a).mpr ⟨hna, hia⟩
      have hfb := (isFinite_iff F b).mpr ⟨hnb, hib⟩
      have hpos : 0 ≤ |realValue F a| * |realValue F b| := by positivity
      have hkept := roundedValue_eq_self hpos (representable_product hE hM a b)
      rw [ha.abs hfa, hb.abs hfb]
      refine ⟨isNaN_roundReal rfl _ hpos, ?_⟩
      rw [fromDoubleSpec_roundReal F _ hpos (hkept.trans_lt (product_lt hF hE hfa hfb)), hkept]

/-! ### The operations beside each other -/

/-- What a reference operator answers in a format that raises no RangeError, where its double is not a NaN. -/
theorem answers_reference {op : Params → BitVec 64 → BitVec 64 → BitVec 64} {spec : Word → Word → Word → Word}
    (hspec : HandsOnNaN spec) (hop : Implements op spec) {F : Fmt} (hF : F.codecOk = true)
    (hnarrow : isNarrowNamed F = false)
    {a b : Word} (ha : a.width = F.W) (hb : b.width = F.W) {i : Instr} {s : State}
    (hexec : exec i s = withSameFormat F a F b s (reference op F a b s))
    (hnan : isNaN fp64 (referenceSpec spec F a b) = false) :
    AnswersDrawing i s 3 (.word (fromDoubleSpec F (referenceSpec spec F a b))) := by
  obtain ⟨h4, h5⟩ : F ≠ .named .fp8e4m3 ∧ F ≠ .named .fp8e5m2 := by simpa [isNarrowNamed] using hnarrow
  have hsame : F.same F = true := (same_iff F F).mpr ⟨rfl, rfl, rfl⟩
  rw [withSameFormat_of_ok hF hF ha hb, hsame, if_pos rfl] at hexec
  obtain ⟨-, -, -, -, hvalue⟩ := referenceAnswers hspec hop hF ha hb hexec
  exact hvalue hnan (fun h => h4 h.1) (fun h => h5 h.1)

end Sys2Proof.Machine

namespace Sys2Proof.Machine.CodecFamily

open Sys2Proof Sys2Proof.Machine

/-- Settles O38: the multiplier rounds the exact product once, and so does the reference operator, whose double is
exact. -/
theorem multiplierAgreesWithReference : Obligations.MultiplierAgreesWithReference := by
  intro F a b s hF hE hM hnarrow ha hb hna hnb hab hba
  have hcodec := codecOk_of_unitOk hF
  obtain ⟨hnan, hagree⟩ := fromDoubleSpec_mulSpec hF hE hM (sameClass_cvtSpec
    hcodec (by omega) (by omega) hna (defaultNaN fp64))
    (sameClass_cvtSpec hcodec (by omega) (by omega) hnb (defaultNaN fp64)) hna hnb hab hba (defaultNaN fp64)
    (canonNaN s.params F)
  have hsame : F.same F = true := (same_iff F F).mpr ⟨rfl, rfl, rfl⟩
  refine ⟨mulSpec F (canonNaN s.params F) a b, ?_, ?_⟩
  · rw [Answers, exec, execFmul, withUnitWord_of_ok hF ha, withUnitWord_of_ok hF hb, withOutFormat_of_same hsame,
    emit_eq,
      multiplierProduct_eq_mulSpec hF]
  · rw [← hagree]
    exact answers_reference handsOnNaN_mul implements_mul64 hcodec hnarrow ha hb rfl hnan

end Sys2Proof.Machine.CodecFamily
end

section
/-! SUPPORT. The adder's datapath (spec/43_adder.md R250 to R268): the aligned sum with its sticky bit stands for the
exact sum, both normalisations keep it, and so either path rounds the exact sum once. -/

namespace Sys2Proof.Machine

open Sys2Proof

/-! ### Aligned operands -/

/-- What R258's swap provides: a larger and a smaller magnitude, the larger one normalised or in the lowest binade. -/
structure Aligned.Ok (F : Fmt) (x : Aligned) : Prop where
  eS_pos : 1 ≤ x.eS
  eS_le : x.eS ≤ x.eL
  sigL_lt : x.sigL < 2 ^ (F.M + 1)
  sigS_lt : x.sigS < 2 ^ (F.M + 1)
  normal : x.eL = 1 ∨ 2 ^ F.M ≤ x.sigL
  ordered : x.eS = x.eL → x.sigS ≤ x.sigL

/-- `(-1)^s`. -/
def signFactor (s : Bool) : ℝ := if s then -1 else 1

theorem signFactor_xor (s t : Bool) : signFactor (s ^^ t) = signFactor s * signFactor t := by
  cases s <;> cases t <;> simp [signFactor]

theorem signFactor_mul_self (s : Bool) : signFactor s * signFactor s = 1 := by
  cases s <;> simp [signFactor]

/-- The exact sum or difference of the magnitudes. -/
noncomputable def Aligned.sum (F : Fmt) (eff : Bool) (x : Aligned) : ℝ :=
  x.sigL * 2 ^ ((x.eL : ℤ) - F.bias - F.M) + signFactor eff * (x.sigS * 2 ^ ((x.eS : ℤ) - F.bias - F.M))

/-- The exact sum in eighths of the larger operand's last place, where R261 has its guard, round and sticky bits. -/
noncomputable def Aligned.eighths (eff : Bool) (x : Aligned) : ℝ :=
  8 * x.sigL + signFactor eff * (8 * x.sigS / 2 ^ x.delta)

theorem swapOperands_ok (F : Fmt) (a b : Word) (sub : Bool) : (swapOperands F a b sub).Ok F := by
  have hea : 1 ≤ effExp F a := le_max_right _ _
  have heb : 1 ≤ effExp F b := le_max_right _ _
  unfold swapOperands
  split
  next h =>
    exact ⟨heb, by dsimp only; omega, significand_lt F a, significand_lt F b, effExp_eq_one_or_le_significand F a,
      fun heq => by dsimp only at heq ⊢; omega⟩
  next h =>
    exact ⟨hea, by dsimp only; omega, significand_lt F b, significand_lt F a, effExp_eq_one_or_le_significand F b,
      fun heq => by dsimp only at heq ⊢; omega⟩

/-- R251's exact sum is the larger operand's sign times the sum of the magnitudes. -/
theorem swapOperands_sum (F : Fmt) (a b : Word) (sub : Bool) :
    realValue F a + signFactor (signOf F b ^^ sub) * |realValue F b| =
      signFactor (swapOperands F a b sub).sL * (swapOperands F a b sub).sum F (effSub F a b sub) := by
  have ha : realValue F a = signFactor (signOf F a) * |realValue F a| := realValue_eq_sign_mul_abs F a
  have hsa := signFactor_mul_self (signOf F a)
  have hsb := signFactor_mul_self (signOf F b ^^ sub)
  rw [ha, abs_realValue, abs_realValue, effSub, Bool.xor_assoc]
  unfold swapOperands Aligned.sum
  split
  next =>
    rw [signFactor_xor (signOf F a)]
    linear_combination (-signFactor (signOf F b ^^ sub) * (significand F b * 2 ^ ((effExp F b : ℤ) - F.bias - F.M))) *
      hsa
  next =>
    rw [signFactor_xor (signOf F a)]
    linear_combination (-signFactor (signOf F a) * (significand F a * 2 ^ ((effExp F a : ℤ) - F.bias - F.M))) * hsb

namespace Aligned

variable {F : Fmt} {x : Aligned}

theorem sum_eq_eighths (h : x.Ok F) (eff : Bool) :
    x.sum F eff = x.eighths eff * 2 ^ ((x.eL : ℤ) - F.bias - F.M - (3 : Nat)) := by
  obtain ⟨c, hc⟩ : ∃ c : ℤ, (x.eL : ℤ) - F.bias - F.M = c + (3 : Nat) := ⟨_, (sub_add_cancel _ _).symm⟩
  have hS : (x.eS : ℤ) - F.bias - F.M = c + (3 : Nat) - (x.delta : Nat) := by
    have := h.eS_le
    rw [delta]
    omega
  rw [sum, eighths, hS, hc, add_sub_cancel_right, zpow_sub₀ two_ne_zero, zpow_add₀ two_ne_zero, zpow_natCast,
    zpow_natCast]
  ring

/-- The smaller operand, aligned, is at most the larger one. -/
theorem sigS_le (h : x.Ok F) : x.sigS ≤ x.sigL * 2 ^ x.delta := by
  rcases Nat.eq_zero_or_pos x.delta with h0 | hpos
  · have heq : x.eS = x.eL := h.eS_le.antisymm (Nat.le_of_sub_eq_zero h0)
    simpa [h0] using h.ordered heq
  · have hnorm : 2 ^ F.M ≤ x.sigL := h.normal.resolve_left fun h1 => by
      have := h.eS_pos
      rw [delta] at hpos
      omega
    calc x.sigS ≤ 2 ^ F.M * 2 := by rw [← pow_succ]; exact h.sigS_lt.le
      _ ≤ x.sigL * 2 ^ x.delta := Nat.mul_le_mul hnorm (Nat.le_self_pow hpos.ne' 2)

theorem eighths_bounds (h : x.Ok F) (eff : Bool) : 0 ≤ x.eighths eff ∧ x.eighths eff < 2 ^ (F.M + 3 + 2) := by
  have hpow : (0 : ℝ) < 2 ^ x.delta := by positivity
  have hS : 8 * (x.sigS : ℝ) / 2 ^ x.delta ≤ 8 * x.sigL := by
    have hS : (x.sigS : ℝ) ≤ x.sigL * 2 ^ x.delta := by exact_mod_cast sigS_le h
    rw [div_le_iff₀ hpow]
    linarith
  have hS0 : 0 ≤ 8 * (x.sigS : ℝ) / 2 ^ x.delta := by positivity
  have hL : (x.sigL : ℝ) < 2 ^ (F.M + 1) := by exact_mod_cast h.sigL_lt
  have htop : (2 : ℝ) ^ (F.M + 3 + 2) = 16 * 2 ^ (F.M + 1) := by ring
  rw [htop, eighths]
  cases eff
  · simp only [signFactor]
    norm_num
    constructor <;> linarith
  · simp only [signFactor]
    norm_num
    constructor <;> linarith

/-- Past the lowest binade a far-path sum loses at most one leading bit. -/
theorem two_pow_le_eighths (h : x.Ok F) (hL : 1 < x.eL) {eff : Bool} (hfar : 2 ≤ x.delta ∨ eff = false) :
    2 ^ (F.M + 2) ≤ x.eighths eff := by
  have hnorm : (2 : ℝ) ^ F.M ≤ x.sigL := by exact_mod_cast h.normal.resolve_left hL.ne'
  have hS0 : 0 ≤ 8 * (x.sigS : ℝ) / 2 ^ x.delta := by positivity
  have hM : (0 : ℝ) < 2 ^ F.M := by positivity
  have hlow : (2 : ℝ) ^ (F.M + 2) = 4 * 2 ^ F.M := by ring
  rw [hlow, eighths]
  cases eff with
  | false =>
    simp only [signFactor]
    norm_num
    linarith
  | true =>
    have hdelta : 2 ≤ x.delta := hfar.resolve_right (by simp)
    have hS : 8 * (x.sigS : ℝ) / 2 ^ x.delta ≤ 4 * 2 ^ F.M := by
      have hsig : (x.sigS : ℝ) ≤ 2 ^ F.M * 2 := by rw [← pow_succ]; exact_mod_cast h.sigS_lt.le
      have hfour : (4 : ℝ) ≤ 2 ^ x.delta := by
        calc (4 : ℝ) = 2 ^ 2 := by norm_num
          _ ≤ 2 ^ x.delta := pow_le_pow_right₀ one_le_two hdelta
      rw [div_le_iff₀ (by positivity)]
      nlinarith
    simp only [signFactor]
    norm_num
    linarith

end Aligned

/-! ### The sum with its sticky bit -/

theorem IsSticky.add_even {X L : Nat} {Y : ℝ} (h : IsSticky X Y) (hL : Even L) : IsSticky (L + X) (L + Y) := by
  rcases h with rfl | ⟨hodd, hlo, hhi⟩
  · exact .inl (by push_cast; rfl)
  · refine .inr ⟨hL.add_odd hodd, ?_, ?_⟩ <;> push_cast <;> linarith

theorem IsSticky.sub_even {X L : Nat} {Y : ℝ} (h : IsSticky X Y) (hL : Even L) (hle : Y ≤ L) :
    IsSticky (L - X) (L - Y) := by
  have hX : X ≤ L := by
    have hlt := (h.le_iff ((Int.even_coe_nat L).mpr hL)).2
    rw [Int.cast_natCast, Nat.cast_lt] at hlt
    exact not_lt.mp (mt hlt.mpr (not_lt.mpr hle))
  rcases h with rfl | ⟨hodd, hlo, hhi⟩
  · exact .inl (by rw [Nat.cast_sub hX])
  · refine .inr ⟨Nat.Even.sub_odd hX hL hodd, ?_, ?_⟩ <;> rw [Nat.cast_sub hX] <;> linarith

theorem IsSticky.pos_iff {X : Nat} {Y : ℝ} (h : IsSticky X Y) : 0 < Y ↔ 0 < X := by
  have hlt := (h.le_iff (T := 0) Even.zero).2
  simpa using hlt

theorem isSticky_farSum {F : Fmt} {x : Aligned} (h : x.Ok F) (eff : Bool) :
    IsSticky (farSum eff x) (x.eighths eff) := by
  have hS : IsSticky (shiftRightSticky (x.sigS * 2 ^ 3) x.delta) (8 * (x.sigS : ℝ) / 2 ^ x.delta) := by
    have hcast : ((x.sigS * 2 ^ 3 : Nat) : ℝ) = 8 * x.sigS := by push_cast; ring
    exact hcast ▸ isSticky_shiftRightSticky (x.sigS * 2 ^ 3) x.delta
  have hL : Even (x.sigL * 2 ^ 3) := ⟨x.sigL * 4, by ring⟩
  have hcast : ((x.sigL * 2 ^ 3 : Nat) : ℝ) = 8 * x.sigL := by push_cast; ring
  have hle : 8 * (x.sigS : ℝ) / 2 ^ x.delta ≤ ((x.sigL * 2 ^ 3 : Nat) : ℝ) := by
    have h0 := (Aligned.eighths_bounds h true).1
    simp only [Aligned.eighths, signFactor] at h0
    norm_num at h0
    rw [hcast]
    linarith
  cases eff with
  | false =>
    have h := hS.add_even hL
    rw [hcast] at h
    simpa [farSum, Aligned.eighths, signFactor] using h
  | true =>
    have h := hS.sub_even hL hle
    rw [hcast, sub_eq_add_neg] at h
    simpa [farSum, Aligned.eighths, signFactor] using h

/-- Near operands are aligned without a loss: the sum is even, so it hides nothing. -/
theorem farSum_exact {F : Fmt} {x : Aligned} (h : x.Ok F) (hd : x.delta ≤ 1) (eff : Bool) :
    ((farSum eff x : Nat) : ℝ) = x.eighths eff := by
  refine (isSticky_farSum h eff).resolve_right fun ⟨hodd, _⟩ => ?_
  have haligned : shiftRightSticky (x.sigS * 2 ^ 3) x.delta = x.sigS * 2 ^ 3 / 2 ^ x.delta := by
    refine shiftRightSticky_of_exact (Nat.mod_eq_zero_of_dvd (Dvd.dvd.mul_left ?_ _))
    exact pow_dvd_pow 2 (by omega)
  rw [Nat.odd_iff, farSum, haligned] at hodd
  obtain h0 | h1 : x.delta = 0 ∨ x.delta = 1 := by omega
  · rw [h0] at hodd
    cases eff <;> simp at hodd <;> omega
  · rw [h1] at hodd
    cases eff <;> simp at hodd <;> omega

/-! ### Normalisation -/

theorem testBit_top {n v : Nat} (h : v < 2 ^ (n + 1)) : v.testBit n = true ↔ 2 ^ n ≤ v := by
  have hlt : v / 2 ^ n < 2 := Nat.div_lt_of_lt_mul (by rwa [← pow_succ])
  have hle : 1 ≤ v / 2 ^ n ↔ 2 ^ n ≤ v := by rw [Nat.le_div_iff_mul_le (Nat.two_pow_pos n), one_mul]
  rw [Nat.testBit_eq_decide_div_mod_eq, decide_eq_true_iff, ← hle]
  generalize v / 2 ^ n = c at *
  omega

theorem half_or_mod (D : Nat) : (D / 2 ||| D % 2) = shiftRightSticky D 1 := by
  rw [shiftRightSticky, pow_one]
  rcases Nat.mod_two_eq_zero_or_one D with h | h <;> simp [h]

/-- Shifted below a power of two or not, the sticky bit decides nothing. -/
theorem IsSticky.two_pow_le_iff {D : Nat} {Y : ℝ} (h : IsSticky D Y) {n sh : Nat} (hsh : sh < n) :
    2 ^ n ≤ Y * 2 ^ sh ↔ 2 ^ n ≤ D * 2 ^ sh := by
  obtain ⟨k, rfl⟩ := Nat.exists_eq_add_of_lt hsh
  have heven : Even ((2 : ℤ) ^ (k + 1)) := even_two.pow_of_ne_zero (Nat.succ_ne_zero k)
  have hle := (h.le_iff heven).1
  have hsplit : (2 : ℝ) ^ (sh + k + 1) = 2 ^ (k + 1) * 2 ^ sh := by ring
  have hsplit' : 2 ^ (sh + k + 1) = 2 ^ (k + 1) * 2 ^ sh := by ring
  rw [hsplit, hsplit', mul_le_mul_iff_left₀ (by positivity), Nat.mul_le_mul_right_iff (Nat.two_pow_pos sh)]
  exact_mod_cast hle

/-- R263's and R266's clamped left shift: `n` bits, of which `lsb` are below the last one kept. -/
theorem roundAndPack_clampedShift {F : Fmt} (hF : F.unitOk = true) (s : Bool) {D e lsb n : Nat} {Y : ℝ}
    (h : IsSticky D Y)
    (hn : n = F.M + lsb + 1) (hD : D ≠ 0) (hlt : D < 2 ^ n) (he : 1 ≤ e)
    (hexact : (D : ℝ) = Y ∨ min (leadingZeros n D) (e - 1) + 2 ≤ lsb) :
    roundAndPack F s (D * 2 ^ min (leadingZeros n D) (e - 1)) lsb (e - min (leadingZeros n D) (e - 1)) =
      roundReal F s (Y * 2 ^ ((e : ℤ) - F.bias - F.M - lsb)) := by
  subst hn
  obtain ⟨hlz, hlo, hhi⟩ := leadingZeros_spec hD hlt
  generalize leadingZeros (F.M + lsb + 1) D = lz at *
  have hpos : 0 < Y := h.pos_iff.mpr (Nat.pos_of_ne_zero hD)
  have hsh : min lz (e - 1) ≤ lz := min_le_left _ _
  refine roundAndPack_shiftLeft hF s h hexact hpos (by omega) ?_ ?_
  · rw [← not_le, h.two_pow_le_iff (by omega), not_le]
    exact (Nat.mul_le_mul_left D (Nat.pow_le_pow_right two_pos hsh)).trans_lt hhi
  · rcases le_total (e - 1) lz with hle | hle
    · exact .inl (by omega)
    · right
      rw [min_eq_left hle] at hexact ⊢
      rcases hexact with rfl | hlsb
      · exact_mod_cast hlo
      · exact (h.two_pow_le_iff (by omega)).mpr (by simpa using hlo)

/-- R266's normalisation of a sum with three bits below the last one kept. -/
theorem roundAndPack_singleNormalise {F : Fmt} (hF : F.unitOk = true) (s : Bool) {D e : Nat} {Y : ℝ} (h : IsSticky D Y)
    (hD : D ≠ 0) (he : 1 ≤ e) (hlt : Y < 2 ^ (F.M + 3 + 2)) (hlow : (D : ℝ) = Y ∨ 2 ^ (F.M + 2) ≤ Y) :
    roundAndPack F s (singleNormalise F D e).1 3 (singleNormalise F D e).2 =
      roundReal F s (Y * 2 ^ ((e : ℤ) - F.bias - F.M - (3 : Nat))) := by
  have hYD (n : Nat) (hn : 0 < n) : 2 ^ n ≤ Y ↔ 2 ^ n ≤ D := by simpa using h.two_pow_le_iff hn
  have hDlt : D < 2 ^ (F.M + 4 + 1) := not_le.mp (mt (hYD _ (by omega)).mpr (not_le.mpr hlt))
  unfold singleNormalise
  by_cases htop : D.testBit (F.M + 4) = true
  · rw [if_pos htop, half_or_mod]
    exact roundAndPack_shiftRight hF s h (by norm_num) hlt ((hYD _ (by omega)).mpr ((testBit_top hDlt).mp htop))
  · rw [if_neg htop]
    have hD4 : D < 2 ^ (F.M + 4) := not_le.mp (mt (testBit_top hDlt).mpr htop)
    refine roundAndPack_clampedShift hF s h rfl hD hD4 he (hlow.imp_right fun hge => ?_)
    have hlz := leadingZeros_add_lt hD hD4 ((hYD _ (by omega)).mp hge)
    omega

/-- R262's normalisation is R266's on a sum that loses at most one leading bit. -/
theorem farNormalise_eq_singleNormalise {F : Fmt} {D e : Nat} (hD : D ≠ 0) (hlt : D < 2 ^ (F.M + 4 + 1)) (he : 1 ≤ e)
    (hlow : 1 < e → 2 ^ (F.M + 2) ≤ D) : farNormalise F D e = singleNormalise F D e := by
  have hexp : 1 < e ↔ e ≠ 1 := by omega
  unfold farNormalise singleNormalise
  by_cases htop : D.testBit (F.M + 4) = true
  · rw [if_pos htop, if_pos htop]
  rw [if_neg htop, if_neg htop]
  have hD4 : D < 2 ^ (F.M + 4) := not_le.mp (mt (testBit_top hlt).mpr htop)
  by_cases hbit : D.testBit (F.M + 3) = true
  · have hlz := leadingZeros_add_lt hD hD4 ((testBit_top hD4).mp hbit)
    have hsh : min (leadingZeros (F.M + 4) D) (e - 1) = 0 := by omega
    simp [hbit, hsh]
  · have hD3 : D < 2 ^ (F.M + 4 - 1) := not_le.mp (mt (testBit_top hD4).mpr hbit)
    by_cases he1 : 1 < e
    · have hlz := leadingZeros_add_lt hD hD4 (hlow he1)
      have hlz' := leadingZeros_pos hD hD3
      have hsh : min (leadingZeros (F.M + 4) D) (e - 1) = 1 := by omega
      simp [hbit, he1, hsh]
    · have hsh : min (leadingZeros (F.M + 4) D) (e - 1) = 0 := by omega
      simp [he1, hsh]

/-! ### Both paths -/

open Classical in
/-- The exact sum of aligned operands, zero with a sign of its own, else rounded once. -/
noncomputable def Aligned.rounded (F : Fmt) (zeroSign eff : Bool) (x : Aligned) : Word :=
  if x.sum F eff = 0 then zeroWordOf F zeroSign else roundReal F x.sL (x.sum F eff)

theorem finishSum_eq_rounded {F : Fmt} {x : Aligned} {eff : Bool} {D lsb : Nat} {n : Nat × Nat} (zeroSign : Bool)
    (h0 : D = 0 ↔ x.sum F eff = 0)
    (hround : D ≠ 0 → roundAndPack F x.sL n.1 lsb n.2 = roundReal F x.sL (x.sum F eff)) :
    finishSum F zeroSign x.sL D n lsb = x.rounded F zeroSign eff := by
  unfold finishSum Aligned.rounded
  by_cases hD : D = 0
  · rw [if_pos hD, if_pos (h0.mp hD)]
  · rw [if_neg hD, if_neg (mt h0.mpr hD), hround hD]

theorem farSum_eq_zero_iff {F : Fmt} {x : Aligned} (h : x.Ok F) (eff : Bool) : farSum eff x = 0 ↔ x.sum F eff = 0 := by
  have hpos := (isSticky_farSum h eff).pos_iff
  have h0 := (Aligned.eighths_bounds h eff).1
  have hscale : (2 : ℝ) ^ ((x.eL : ℤ) - F.bias - F.M - (3 : Nat)) ≠ 0 := by positivity
  rw [Aligned.sum_eq_eighths h, mul_eq_zero, or_iff_left hscale]
  rw [h0.lt_iff_ne', Nat.pos_iff_ne_zero, not_iff_not] at hpos
  exact hpos.symm

theorem one_le_eL {F : Fmt} {x : Aligned} (h : x.Ok F) : 1 ≤ x.eL := h.eS_pos.trans h.eS_le

/-- R266: the single path rounds the exact sum once. -/
theorem finishSum_single {F : Fmt} (hF : F.unitOk = true) {x : Aligned} (h : x.Ok F) (zeroSign eff : Bool) :
    finishSum F zeroSign x.sL (farSum eff x) (singleNormalise F (farSum eff x) x.eL) 3 = x.rounded F zeroSign eff := by
  refine finishSum_eq_rounded zeroSign (farSum_eq_zero_iff h eff) fun hD => ?_
  rw [Aligned.sum_eq_eighths h]
  refine roundAndPack_singleNormalise hF x.sL (isSticky_farSum h eff) hD (one_le_eL h)
    (Aligned.eighths_bounds h eff).2 ?_
  rcases Nat.lt_or_ge x.delta 2 with hd | hd
  · exact .inl (farSum_exact h (by omega) eff)
  · refine .inr (Aligned.two_pow_le_eighths h ?_ (.inl hd))
    rw [Aligned.delta] at hd
    omega

/-- R261 and R262: on its operands the far path does what the single path does. -/
theorem farPath_eq_rounded {F : Fmt} (hF : F.unitOk = true) {x : Aligned} (h : x.Ok F) (zeroSign : Bool) {eff : Bool}
    (hfar : 2 ≤ x.delta ∨ eff = false) : farPath F zeroSign eff x = x.rounded F zeroSign eff := by
  rw [← finishSum_single hF h, farPath]
  by_cases hD : farSum eff x = 0
  · rw [finishSum, finishSum, if_pos hD, if_pos hD]
  · have hY (n : Nat) (hn : 0 < n) : 2 ^ n ≤ x.eighths eff ↔ 2 ^ n ≤ farSum eff x := by
      simpa using (isSticky_farSum h eff).two_pow_le_iff hn
    have hlt := (Aligned.eighths_bounds h eff).2
    rw [farNormalise_eq_singleNormalise hD (not_le.mp (mt (hY _ (by omega)).mpr (not_le.mpr hlt))) (one_le_eL h)
      fun hL => (hY _ (by omega)).mp (Aligned.two_pow_le_eighths h hL hfar)]

/-- R263's difference is exact. -/
theorem nearDifference_eq {F : Fmt} {x : Aligned} (h : x.Ok F) (hd : x.delta ≤ 1) :
    x.sum F true = (nearDifference x : ℝ) * 2 ^ ((x.eL : ℤ) - F.bias - F.M - (1 : Nat)) := by
  have hle := Aligned.sigS_le h
  have hquarter : x.eighths true = 4 * (nearDifference x : ℝ) := by
    obtain h0 | h1 : x.delta = 0 ∨ x.delta = 1 := by omega
    · rw [h0] at hle
      rw [nearDifference, Aligned.eighths, h0, Nat.cast_sub (by omega)]
      simp [signFactor]
      ring
    · rw [h1] at hle
      rw [nearDifference, Aligned.eighths, h1, Nat.cast_sub (by omega)]
      simp [signFactor]
      ring
  have hexp : (x.eL : ℤ) - F.bias - F.M - (1 : Nat) = (x.eL : ℤ) - F.bias - F.M - (3 : Nat) + (2 : Nat) := by
    push_cast
    ring
  rw [Aligned.sum_eq_eighths h, hquarter, hexp, zpow_add₀ two_ne_zero, zpow_natCast]
  ring

/-- R263: the near path rounds the exact difference once. -/
theorem nearPath_eq_rounded {F : Fmt} (hF : F.unitOk = true) {x : Aligned} (h : x.Ok F) (zeroSign : Bool)
    (hd : x.delta ≤ 1) : nearPath F zeroSign x = x.rounded F zeroSign true := by
  have hsum := nearDifference_eq h hd
  have hscale : (2 : ℝ) ^ ((x.eL : ℤ) - F.bias - F.M - (1 : Nat)) ≠ 0 := by positivity
  refine finishSum_eq_rounded zeroSign ?_ fun hD => ?_
  · rw [hsum, mul_eq_zero, or_iff_left hscale, Nat.cast_eq_zero]
  · have hlt : nearDifference x < 2 ^ (F.M + 2) := by
      have := h.sigL_lt
      rw [nearDifference, pow_succ]
      omega
    rw [hsum]
    exact roundAndPack_clampedShift hF x.sL (.inl rfl) rfl hD hlt (one_le_eL h) (.inl rfl)

/-- R260: the dual path, by the case it selects. -/
theorem dualPathSum_eq_rounded {F : Fmt} (hF : F.unitOk = true) (a b : Word) (sub : Bool) :
    dualPathSum F a b sub = (swapOperands F a b sub).rounded F (zeroSumSign (signOf F a) (signOf F b ^^ sub))
      (effSub F a b sub) := by
  have h := swapOperands_ok F a b sub
  unfold dualPathSum
  dsimp only
  split
  next hfar => exact farPath_eq_rounded hF h _ (by simpa using hfar)
  next hnear =>
    obtain ⟨hd, heff⟩ : (swapOperands F a b sub).delta < 2 ∧ effSub F a b sub = true := by simpa using hnear
    rw [heff]
    exact nearPath_eq_rounded hF h _ (by omega)

theorem singlePathSum_eq_rounded {F : Fmt} (hF : F.unitOk = true) (a b : Word) (sub : Bool) :
    singlePathSum F a b sub = (swapOperands F a b sub).rounded F (zeroSumSign (signOf F a) (signOf F b ^^ sub))
      (effSub F a b sub) :=
  finishSum_single hF (swapOperands_ok F a b sub) _ _

theorem Aligned.sum_nonneg {F : Fmt} {x : Aligned} (h : x.Ok F) (eff : Bool) : 0 ≤ x.sum F eff := by
  have h0 := (eighths_bounds h eff).1
  rw [sum_eq_eighths h]
  positivity

open Classical in
/-- The finite case of R251, on the aligned operands. -/
theorem rounded_swapOperands (F : Fmt) (a b : Word) (sub : Bool) {v : ℝ}
    (hv : v = realValue F a + signFactor (signOf F b ^^ sub) * |realValue F b|) :
    (swapOperands F a b sub).rounded F (zeroSumSign (signOf F a) (signOf F b ^^ sub)) (effSub F a b sub) =
      if v = 0 then zeroWordOf F (if signOf F a = (signOf F b ^^ sub) then signOf F a else false)
      else roundReal F (decide (v < 0)) |v| := by
  have h0 := Aligned.sum_nonneg (swapOperands_ok F a b sub) (effSub F a b sub)
  rw [swapOperands_sum] at hv
  rw [Aligned.rounded, hv, zeroSumSign]
  generalize Aligned.sum F (effSub F a b sub) (swapOperands F a b sub) = S at *
  cases (swapOperands F a b sub).sL
  · simp [signFactor, abs_of_nonneg h0, h0.not_gt]
  · by_cases hS : S = 0
    · simp [signFactor, hS]
    · have hpos : 0 < S := h0.lt_of_ne' hS
      simp [signFactor, hS, abs_of_pos hpos, hpos]

/-- R251 of the machine's adder, on either path. -/
theorem adderSum_eq_addSpec {F : Fmt} (hF : F.unitOk = true) (path : AdderPath) (nan a b : Word) (sub : Bool) :
    adderSum F path nan a b sub = addSpec F nan a b sub := by
  have hfinite := rounded_swapOperands F a b sub rfl
  simp only [adderSum, addSpec, Bool.or_eq_true, Bool.and_eq_true, beq_iff_eq]
  cases path with
  | dual => rw [dualPathSum_eq_rounded hF, hfinite]; rfl
  | single => rw [singlePathSum_eq_rounded hF, hfinite]; rfl

end Sys2Proof.Machine
end

section
/-! SUPPORT. The adder beside its reference operators (spec/41_value_codec.md R199): for E ≤ 10 and M ≤ 24 a sum is
exact in binary64, or so close to its larger operand that both roundings give that operand. -/

namespace Sys2Proof.Machine

open Sys2Proof

/-! ### Rounding twice -/

/-- The value kept decides the word, an overflow included. -/
theorem roundReal_congr {F : Fmt} (hE : 2 ≤ F.E) (s : Bool) {x y : ℝ} (hx : 0 < x) (hy : 0 < y)
    (h : roundedValue F x = roundedValue F y) : roundReal F s x = roundReal F s y := by
  rcases lt_or_ge (roundedValue F x) (2 ^ (F.emax + 1)) with hlt | hge
  · obtain ⟨hsx, -, hvx⟩ := roundReal_value hE s hx.le hlt
    obtain ⟨hsy, -, hvy⟩ := roundReal_value hE s hy.le (h ▸ hlt)
    exact eq_of_abs_realValue_eq (roundReal_width _ _ _) (roundReal_width _ _ _) (hsx.trans hsy.symm)
      (hvx.trans (h.trans hvy.symm))
  · rw [roundReal_of_overflow hE s hx hge, roundReal_of_overflow hE s hy (h ▸ hge)]

theorem tiesToEven_of_near {x : ℝ} {n : ℤ} (hlo : (n : ℝ) - 1 / 2 < x) (hhi : x < n + 1 / 2) : tiesToEven x = n := by
  obtain ⟨h1, h2, -⟩ := tiesToEven_near x
  have hlt : (tiesToEven x : ℝ) < n + 1 := by linarith
  have hgt : (n : ℝ) < tiesToEven x + 1 := by linarith
  have hlt : tiesToEven x < n + 1 := by exact_mod_cast hlt
  have hgt : n < tiesToEven x + 1 := by exact_mod_cast hgt
  omega

theorem roundedValue_of_units {F : Fmt} {z : ℝ} {q N : ℤ} (hq : realBinade F z = q)
    (hlo : ((N : ℝ) - 1 / 2) * 2 ^ (q - F.M) < z) (hhi : z < (N + 1 / 2) * 2 ^ (q - F.M)) :
    roundedValue F z = N * 2 ^ (q - F.M) := by
  have hN : tiesToEven (realUlps F z) = N := by
    apply tiesToEven_of_near <;> rw [realUlps, hq]
    · rwa [lt_div_iff₀ (by positivity)]
    · rwa [div_lt_iff₀ (by positivity)]
  rw [roundedValue, hN, hq]

/-- Within an eighth of the last place below a power of two the carry restores the power. -/
theorem roundedValue_below_two_zpow {F : Fmt} {q : ℤ} {z : ℝ} (hq : F.emin < q)
    (hlo : ((2 : ℝ) ^ F.M - 1 / 8) * 2 ^ (q - F.M) ≤ z) (hhi : z < 2 ^ q) : roundedValue F z = 2 ^ q := by
  have hu : (0 : ℝ) < 2 ^ (q - 1 - F.M) := by positivity
  have hM : (1 : ℝ) ≤ 2 ^ F.M := one_le_pow₀ one_le_two
  have hhalf : (2 : ℝ) ^ (q - F.M) = 2 * 2 ^ (q - 1 - F.M) := by
    rw [← zpow_one_add₀ two_ne_zero]
    congr 1
    ring
  have htop : (2 : ℝ) ^ q = 2 ^ F.M * 2 * 2 ^ (q - 1 - F.M) := by rw [← two_pow_mul_ulp F.M q, hhalf, mul_assoc]
  rw [hhalf] at hlo
  have hge : (2 : ℝ) ^ (q - 1) ≤ z := by
    rw [← two_pow_mul_ulp F.M]
    nlinarith
  have hz : 0 < z := lt_of_lt_of_le (by positivity) hge
  have hb : realBinade F z = q - 1 := realBinade_eq hz (by omega) (by rwa [sub_add_cancel]) (.inr hge)
  have h := roundedValue_of_units (N := 2 ^ (F.M + 1)) hb (by push_cast; rw [pow_succ]; nlinarith)
    (by push_cast; rw [pow_succ]; nlinarith)
  rw [h, htop, pow_succ]
  push_cast
  rfl

/-- Within an eighth of its last place a normal value rounds to itself. -/
theorem roundedValue_of_near {F : Fmt} {N : Nat} {q : ℤ} {z : ℝ} (hN : N < 2 ^ (F.M + 1)) (hnormal : 2 ^ F.M ≤ N)
    (hq : F.emin ≤ q) (hlo : ((N : ℝ) - 1 / 8) * 2 ^ (q - F.M) ≤ z) (hhi : z ≤ (N + 1 / 8) * 2 ^ (q - F.M)) :
    roundedValue F z = N * 2 ^ (q - F.M) := by
  have hu : (0 : ℝ) < 2 ^ (q - F.M) := by positivity
  have hM : (1 : ℝ) ≤ 2 ^ F.M := one_le_pow₀ one_le_two
  have hN' : (N : ℝ) + 1 ≤ 2 ^ (F.M + 1) := by exact_mod_cast hN
  have hnormal' : (2 : ℝ) ^ F.M ≤ N := by exact_mod_cast hnormal
  have hz : 0 < z := lt_of_lt_of_le (mul_pos (by linarith) hu) hlo
  have hlt : z < 2 ^ (q + 1) := by
    rw [← two_pow_succ_mul_ulp F.M]
    exact hhi.trans_lt (mul_lt_mul_of_pos_right (by linarith) hu)
  have hunits (hb : realBinade F z = q) : roundedValue F z = N * 2 ^ (q - F.M) := by
    have h := roundedValue_of_units (N := N) hb
      (lt_of_lt_of_le (mul_lt_mul_of_pos_right (by push_cast; linarith) hu) hlo)
      (hhi.trans_lt (mul_lt_mul_of_pos_right (by push_cast; linarith) hu))
    exact_mod_cast h
  rcases le_or_gt (2 ^ q) z with hge | hbelow
  · exact hunits (realBinade_eq hz hq hlt (.inr hge))
  rcases hq.eq_or_lt with hmin | hmin
  · exact hunits (realBinade_eq hz hq hlt (.inl hmin.symm))
  · have hNM : N = 2 ^ F.M := by
      by_contra hne
      have hgt : (2 : ℝ) ^ F.M + 1 ≤ N := by exact_mod_cast Nat.lt_of_le_of_ne hnormal (Ne.symm hne)
      rw [← two_pow_mul_ulp F.M] at hbelow
      exact absurd (hlo.trans_lt hbelow) (not_lt.mpr (mul_le_mul_of_nonneg_right (by linarith) hu.le))
    have hcast : (N : ℝ) = 2 ^ F.M := by exact_mod_cast hNM
    rw [hcast] at hlo ⊢
    rw [roundedValue_below_two_zpow hmin hlo hbelow, two_pow_mul_ulp]

/-! ### A sum in binary64 -/

/-- Where the exponents are less than 28 apart, no bit of a sum is lost in binary64. -/
theorem representable_sum {F : Fmt} (hE : F.E ≤ 10) (hM : F.M ≤ 24) {x : Aligned} (h : x.Ok F) (hd : x.delta ≤ 27)
    (eff : Bool) : Representable fp64 (x.sum F eff) := by
  have hbias := bias_le_511 hE
  have hmin : fp64.emin = -1022 := by decide
  have h52 : fp64.M = 52 := rfl
  have heS := h.eS_pos
  have hle := Aligned.sigS_le h
  have hL : (x.eL : ℤ) - F.bias - F.M = (x.eS : ℤ) - F.bias - F.M + (x.delta : Nat) := by
    have := h.eS_le
    rw [Aligned.delta]
    omega
  have hupper : x.sigL * 2 ^ x.delta + x.sigS < 2 ^ (fp64.M + 1) := by
    have hL : x.sigL * 2 ^ x.delta ≤ 2 ^ (F.M + 1) * 2 ^ 27 :=
      Nat.mul_le_mul h.sigL_lt.le (Nat.pow_le_pow_right two_pos hd)
    have hM : 2 ^ (F.M + 1) ≤ 2 ^ 25 := Nat.pow_le_pow_right two_pos (by omega)
    have hS := h.sigS_lt
    rw [h52]
    omega
  refine ⟨if eff then x.sigL * 2 ^ x.delta - x.sigS else x.sigL * 2 ^ x.delta + x.sigS,
    (x.eS : ℤ) - F.bias - F.M + fp64.M, ?_, ?_, ?_⟩
  · cases eff
    · exact hupper
    · exact (Nat.sub_le _ _).trans_lt ((Nat.le_add_right _ _).trans_lt hupper)
  · rw [hmin, h52]
    push_cast
    omega
  · rw [add_sub_cancel_right, Aligned.sum, hL, zpow_add₀ two_ne_zero, zpow_natCast]
    cases eff
    · simp [signFactor]
      ring
    · simp [signFactor, Nat.cast_sub hle]
      ring

/-- Where the exponents are 28 or more apart, the smaller operand is below an eighth of the larger one's last place. -/
theorem abs_sum_sub_le {F : Fmt} (hM : F.M ≤ 24) {x : Aligned} (h : x.Ok F) (hd : 28 ≤ x.delta) (eff : Bool) :
    ((x.sigL : ℝ) - 1 / 8) * 2 ^ ((x.eL : ℤ) - F.bias - F.M) ≤ x.sum F eff ∧
      x.sum F eff ≤ (x.sigL + 1 / 8) * 2 ^ ((x.eL : ℤ) - F.bias - F.M) := by
  have hS : (x.eS : ℤ) - F.bias - F.M = (x.eL : ℤ) - F.bias - F.M - (x.delta : Nat) := by
    have := h.eS_le
    rw [Aligned.delta]
    omega
  have hsmall : (x.sigS : ℝ) / 2 ^ x.delta ≤ 1 / 8 := by
    have hsig : (x.sigS : ℝ) ≤ 2 ^ 25 := by
      exact_mod_cast h.sigS_lt.le.trans (Nat.pow_le_pow_right two_pos (by omega))
    have hpow : (2 : ℝ) ^ 28 ≤ 2 ^ x.delta := pow_le_pow_right₀ one_le_two hd
    rw [div_le_iff₀ (by positivity)]
    linarith
  have hnonneg : 0 ≤ (x.sigS : ℝ) / 2 ^ x.delta := by positivity
  have hsum : x.sum F eff = (x.sigL + signFactor eff * (x.sigS / 2 ^ x.delta)) * 2 ^ ((x.eL : ℤ) - F.bias - F.M) := by
    rw [Aligned.sum, hS, zpow_sub₀ two_ne_zero _ ((x.delta : Nat) : ℤ), zpow_natCast]
    ring
  have hsign : |signFactor eff * (x.sigS / 2 ^ x.delta)| ≤ 1 / 8 := by
    rw [abs_mul, abs_of_nonneg hnonneg]
    cases eff <;> simpa [signFactor] using hsmall
  obtain ⟨hlo, hhi⟩ := abs_le.mp hsign
  rw [hsum]
  constructor <;> refine mul_le_mul_of_nonneg_right ?_ (by positivity) <;> linarith

/-- An eighth of the larger operand's last place is a binary64 step. -/
theorem representable_eighth {F : Fmt} (hE : F.E ≤ 10) (hM : F.M ≤ 24) {x : Aligned} (h : x.Ok F) {n : Nat}
    (hn : n ≤ 8 * x.sigL + 1) : Representable fp64 ((n : ℝ) / 8 * 2 ^ ((x.eL : ℤ) - F.bias - F.M)) := by
  have hbias := bias_le_511 hE
  have hmin : fp64.emin = -1022 := by decide
  have h52 : fp64.M = 52 := rfl
  have heL := one_le_eL h
  refine ⟨n, (x.eL : ℤ) - F.bias - F.M - (3 : Nat) + fp64.M, ?_, ?_, ?_⟩
  · have hL : x.sigL < 2 ^ 25 := h.sigL_lt.trans_le (Nat.pow_le_pow_right two_pos (by omega))
    rw [h52]
    omega
  · rw [hmin, h52]
    push_cast
    omega
  · rw [add_sub_cancel_right, zpow_sub₀ two_ne_zero _ ((3 : Nat) : ℤ), zpow_natCast]
    ring

/-- R199's reason: rounding a sum to binary64 first does not change what it rounds to. -/
theorem roundedValue_roundedValue_fp64 {F : Fmt} (hE : F.E ≤ 10) (hM : F.M ≤ 24) {x : Aligned} (h : x.Ok F) {eff : Bool}
    (hpos : 0 < x.sum F eff) : 0 < roundedValue fp64 (x.sum F eff) ∧
      roundedValue F (roundedValue fp64 (x.sum F eff)) = roundedValue F (x.sum F eff) := by
  rcases Nat.lt_or_ge x.delta 28 with hd | hd
  · rw [roundedValue_of_representable hpos (representable_sum hE hM h (by omega) eff)]
    exact ⟨hpos, rfl⟩
  have hnormal : 2 ^ F.M ≤ x.sigL := h.normal.resolve_left fun h1 => by
    rw [Aligned.delta] at hd
    omega
  have hL : 1 ≤ x.sigL := Nat.one_le_two_pow.trans hnormal
  have hL' : (1 : ℝ) ≤ x.sigL := by exact_mod_cast hL
  have hq : F.emin ≤ (x.eL : ℤ) - F.bias := by
    have := one_le_eL h
    rw [Fmt.emin]
    omega
  obtain ⟨hlo, hhi⟩ := abs_sum_sub_le hM h hd eff
  have hrlo := representable_eighth hE hM h (n := 8 * x.sigL - 1) (by omega)
  have hrhi := representable_eighth hE hM h (n := 8 * x.sigL + 1) le_rfl
  rw [show ((8 * x.sigL - 1 : Nat) : ℝ) / 8 = x.sigL - 1 / 8 by rw [Nat.cast_sub (by omega)]; push_cast; ring] at hrlo
  rw [show ((8 * x.sigL + 1 : Nat) : ℝ) / 8 = x.sigL + 1 / 8 by push_cast; ring] at hrhi
  have hlopos : 0 < ((x.sigL : ℝ) - 1 / 8) * 2 ^ ((x.eL : ℤ) - F.bias - F.M) := mul_pos (by linarith) (by positivity)
  have hlo64 := le_roundedValue hlopos hrlo hlo
  have hhi64 := roundedValue_le hpos hrhi hhi
  refine ⟨hlopos.trans_le hlo64, ?_⟩
  rw [roundedValue_of_near h.sigL_lt hnormal hq hlo64 hhi64, roundedValue_of_near h.sigL_lt hnormal hq hlo hhi]

theorem abs_sum_eq (F : Fmt) (a b : Word) (sub : Bool) :
    abs (realValue F a + signFactor (signOf F b ^^ sub) * |realValue F b|) =
      (swapOperands F a b sub).sum F (effSub F a b sub) := by
  have h0 := Aligned.sum_nonneg (swapOperands_ok F a b sub) (effSub F a b sub)
  rw [swapOperands_sum, abs_mul, abs_of_nonneg h0]
  cases (swapOperands F a b sub).sL <;> simp [signFactor]

/-- Far inside binary64's range a sum does not overflow there. -/
theorem roundedValue_fp64_sum_lt {F : Fmt} (hF : F.unitOk = true) (hE : F.E ≤ 10) {a b : Word}
    (ha : isFinite F a = true)
    (hb : isFinite F b = true) (s : Bool) {v : ℝ} (hv : v = realValue F a + signFactor s * |realValue F b|)
    (h0 : v ≠ 0) :
    roundedValue fp64 |v| < 2 ^ (fp64.emax + 1) := by
  obtain ⟨hieee, hE2, -⟩ := (unitOk_iff F).mp hF
  have hbias := bias_le_511 hE
  have bound {w : Word} (h : isFinite F w = true) : |realValue F w| ≤ 2 ^ (512 : ℤ) := by
    refine (abs_realValue_lt_of_isFinite (codecOk_of_unitOk hF) hE2 h).le.trans (zpow_le_zpow_right₀ one_le_two ?_)
    rw [emax_eq hieee]
    omega
  have hsign : abs (signFactor s * |realValue F b|) = |realValue F b| := by
    rw [abs_mul, abs_abs]
    cases s <;> simp [signFactor]
  have hle : |v| ≤ 2 ^ (513 : ℤ) := by
    have htwice : (2 : ℝ) ^ (513 : ℤ) = 2 ^ (512 : ℤ) + 2 ^ (512 : ℤ) := by
      rw [← two_mul, ← zpow_one_add₀ two_ne_zero]
      norm_num
    rw [hv, htwice]
    refine (abs_add_le _ _).trans (add_le_add (bound ha) ?_)
    rw [hsign]
    exact bound hb
  have hrep : Representable fp64 (2 ^ (513 : ℤ)) := ⟨1, 565, by decide, by decide, by norm_num [fp64, Fmt.M]⟩
  refine (roundedValue_le (abs_pos.mpr h0) hrep hle).trans_lt (zpow_lt_zpow_right₀ one_lt_two ?_)
  decide

/-- R199 for the sum and the difference: binary64 in between changes nothing. -/
theorem fromDoubleSpec_addSpec {F : Fmt} (hF : F.unitOk = true) (hE : F.E ≤ 10) (hM : F.M ≤ 24) {a b da db : Word}
    (ha : SameClass F a da) (hb : SameClass F b db) (hna : isNaN F a = false) (hnb : isNaN F b = false) (sub : Bool)
    (hab : ¬ (isInf F a = true ∧ isInf F b = true ∧ signOf F a ≠ (signOf F b ^^ sub))) (nan nan' : Word) :
    isNaN fp64 (addSpec fp64 nan da db sub) = false ∧
      fromDoubleSpec F (addSpec fp64 nan da db sub) = addSpec F nan' a b sub := by
  obtain ⟨-, hE2, -⟩ := (unitOk_iff F).mp hF
  simp only [addSpec, ha.isNaN, hb.isNaN, ha.isInf, hb.isInf, ha.signOf, hb.signOf, hna, hnb, Bool.false_eq_true,
    or_self,
    if_false]
  by_cases hboth : isInf F a = true ∧ isInf F b = true
  · have hs : signOf F a = (signOf F b ^^ sub) := by
      by_contra hne
      exact hab ⟨hboth.1, hboth.2, hne⟩
    rw [if_pos hboth, if_pos hs, if_pos hboth, if_pos hs]
    exact ⟨isNaN_infWordOf rfl _, fromDoubleSpec_infWordOf F _⟩
  rw [if_neg hboth, if_neg hboth]
  by_cases hia : isInf F a = true
  · rw [if_pos hia, if_pos hia]
    exact ⟨isNaN_infWordOf rfl _, fromDoubleSpec_infWordOf F _⟩
  rw [if_neg hia, if_neg hia]
  by_cases hib : isInf F b = true
  · rw [if_pos hib, if_pos hib]
    exact ⟨isNaN_infWordOf rfl _, fromDoubleSpec_infWordOf F _⟩
  rw [if_neg hib, if_neg hib]
  have hfa := (isFinite_iff F a).mpr ⟨hna, by simpa using hia⟩
  have hfb := (isFinite_iff F b).mpr ⟨hnb, by simpa using hib⟩
  rw [realValue_eq_of_sign_of_abs ha.signOf (ha.abs hfa), hb.abs hfb]
  generalize hv : realValue F a + (if (signOf F b ^^ sub) = true then (-1 : ℝ) else 1) * |realValue F b| = v
  split
  · exact ⟨isNaN_zeroWordOf rfl _, fromDoubleSpec_zeroWordOf F _⟩
  next h0 =>
    have habs : |v| = (swapOperands F a b sub).sum F (effSub F a b sub) := hv ▸ abs_sum_eq F a b sub
    have hpos : 0 < (swapOperands F a b sub).sum F (effSub F a b sub) := habs ▸ abs_pos.mpr h0
    obtain ⟨hpos64, htwice⟩ := roundedValue_roundedValue_fp64 hE hM (swapOperands_ok F a b sub) hpos
    have hlt := roundedValue_fp64_sum_lt hF hE hfa hfb (signOf F b ^^ sub) hv.symm h0
    refine ⟨isNaN_roundReal rfl _ (abs_nonneg v), ?_⟩
    rw [fromDoubleSpec_roundReal F _ (abs_nonneg v) hlt, habs, roundReal_congr hE2 _ hpos64 hpos htwice]

/-- An adder on either path beside the reference operator of its sum or difference. -/
theorem adder_agrees {F : Fmt} (hF : F.unitOk = true) (hE : F.E ≤ 10) (hM : F.M ≤ 24)
    (hnarrow : isNarrowNamed F = false)
    {a b : Word} (ha : a.width = F.W) (hb : b.width = F.W) (hna : isNaN F a = false) (hnb : isNaN F b = false)
    (sub : Bool)
    (hab : ¬ (isInf F a = true ∧ isInf F b = true ∧ signOf F a ≠ (signOf F b ^^ sub)))
    {op : Params → BitVec 64 → BitVec 64 → BitVec 64} (hop : Implements op fun nan a b => addSpec fp64 nan a b sub)
    {i j : Instr} (path : AdderPath) (s : State) (hi : exec i s = adderUnit F F path none a b sub s)
    (hj : exec j s = withSameFormat F a F b s (reference op F a b s)) :
    ∃ w, Answers i s (.word w) ∧ AnswersDrawing j s 3 (.word w) := by
  have hcodec := codecOk_of_unitOk hF
  have hsame : F.same F = true := (same_iff F F).mpr ⟨rfl, rfl, rfl⟩
  obtain ⟨hnan, hagree⟩ := fromDoubleSpec_addSpec hF hE hM
    (sameClass_cvtSpec hcodec (by omega) (by omega) hna (defaultNaN fp64))
    (sameClass_cvtSpec hcodec (by omega) (by omega) hnb (defaultNaN fp64)) hna hnb sub hab (defaultNaN fp64)
    (canonNaN s.params F)
  refine ⟨addSpec F (canonNaN s.params F) a b sub, ?_, ?_⟩
  · rw [Answers, hi, adderUnit_of_ok path sub s hF ha hb hsame (.inl rfl), adderSum_eq_addSpec hF]
  · rw [← hagree]
    exact answers_reference (handsOnNaN_add sub) hop hcodec hnarrow ha hb hj hnan

end Sys2Proof.Machine

namespace Sys2Proof.Machine.CodecFamily

open Sys2Proof Sys2Proof.Machine

/-- Settles O39: either path rounds the exact sum once, and so does the reference operator, rounding to binary64 first. -/
theorem adderAgreesWithReference : Obligations.AdderAgreesWithReference := by
  intro F path a b s hF hE hM hnarrow ha hb hna hnb
  refine ⟨fun hadd => ?_, fun hsub => ?_⟩
  · exact adder_agrees hF hE hM hnarrow ha hb hna hnb false (by simpa using hadd) implements_add64 path s rfl rfl
  · refine adder_agrees hF hE hM hnarrow ha hb hna hnb true (fun ⟨hia, hib, hs⟩ => ?_) implements_sub64 path s rfl rfl
    exact hsub ⟨hia, hib, by simpa using hs⟩

end Sys2Proof.Machine.CodecFamily
end

section
/-! SUPPORT. The rounding primitive (spec/42_rounding.md R230 to R235): what RND.RNE answers and refuses, its decision
in the bits of the operand, and the zero bits appended below it. -/

namespace Sys2Proof.Machine

open Sys2Proof

/-! ### What RND.RNE answers -/

theorem answers_rndRne {bits : Word} {n : Nat} (h : n < bits.width) (s : State) :
    Answers (.rndRne bits n) s (.bit (roundUp bits.toNat n)) :=
  if_neg (by omega)

theorem refuses_rndRne {bits : Word} {lsb : Int} (h : lsb < 0 ∨ (bits.width : Int) ≤ lsb) (s : State) :
    Refuses (.rndRne bits lsb) s .lsbRange :=
  if_pos h

/-! ### The decision in the bits of the operand -/

/-- The OR of the low `n` bits. -/
theorem mod_two_pow_ne_zero_iff (B n : Nat) : B % 2 ^ n ≠ 0 ↔ ∃ k < n, B.testBit k = true := by
  constructor
  · intro h
    obtain ⟨k, hk⟩ := Nat.exists_testBit_of_ne_zero h
    rw [Nat.testBit_mod_two_pow, Bool.and_eq_true, decide_eq_true_iff] at hk
    exact ⟨k, hk⟩
  · rintro ⟨k, hkn, hk⟩ h
    have hbit : (B % 2 ^ n).testBit k = true := by rw [Nat.testBit_mod_two_pow, decide_eq_true hkn, hk, Bool.true_and]
    rw [h, Nat.zero_testBit] at hbit
    exact Bool.false_ne_true hbit

/-- R230 to R232, bit by bit. -/
theorem roundUp_iff_testBit (B n : Nat) : roundUp B n = true ↔
    1 ≤ n ∧ B.testBit (n - 1) = true ∧
      (B.testBit n = true ∨ (2 ≤ n ∧ B.testBit (n - 2) = true) ∨ ∃ k, k + 2 < n ∧ B.testBit k = true) := by
  have hsticky : 3 ≤ n ∧ B % 2 ^ (n - 2) ≠ 0 ↔ ∃ k, k + 2 < n ∧ B.testBit k = true := by
    rw [mod_two_pow_ne_zero_iff]
    constructor
    · rintro ⟨-, k, hk, hbit⟩
      exact ⟨k, by omega, hbit⟩
    · rintro ⟨k, hk, hbit⟩
      exact ⟨by omega, k, by omega, hbit⟩
  simp only [roundUp, Bool.and_eq_true, Bool.or_eq_true, decide_eq_true_iff, hsticky, and_assoc, or_assoc]

/-! ### Ties, and zero bits appended below -/

/-- At a tie the decision is whether the kept part is odd, so adding it gives an even number (R234). -/
theorem even_add_roundUp_of_tie {B n : Nat} (htie : 2 * (B % 2 ^ n) = 2 ^ n) :
    (B / 2 ^ n + (roundUp B n).toNat) % 2 = 0 := by
  have hodd : roundUp B n = true ↔ B / 2 ^ n % 2 = 1 := by simp [roundUp_iff, htie]
  by_cases hK : B / 2 ^ n % 2 = 1
  · rw [hodd.mpr hK, Bool.toNat_true]
    omega
  · rw [Bool.eq_false_iff.mpr (mt hodd.mp hK), Bool.toNat_false]
    omega

/-- Appending zero bits scales both the discarded part and half a unit. -/
theorem roundUp_mul_two_pow (B n k : Nat) : roundUp (B * 2 ^ k) (n + k) = roundUp B n := by
  have hpos := Nat.two_pow_pos k
  rw [Bool.eq_iff_iff, roundUp_iff, roundUp_iff, pow_add, Nat.mul_mod_mul_right, Nat.mul_div_mul_right _ _ hpos,
    ← mul_assoc, Nat.mul_lt_mul_right hpos, Nat.mul_left_inj hpos.ne']

theorem toNat_append_zero (w : Word) (k : Nat) :
    Word.toNat ⟨w.width + k, w.bits ++ BitVec.zero k⟩ = w.toNat * 2 ^ k := by
  change (w.bits ++ 0#k).toNat = w.bits.toNat * 2 ^ k
  rw [BitVec.toNat_append, BitVec.toNat_ofNat, Nat.zero_mod, Nat.or_zero, Nat.shiftLeft_eq]

end Sys2Proof.Machine

/-! ### The obligations -/

namespace Sys2Proof.Machine.RoundingFamily

open Sys2Proof Sys2Proof.Machine

/-- Settles O34: the range check of R233, then `roundUp` read bit by bit. -/
theorem roundUpDecision : Obligations.RoundUpDecision := by
  intro bits lsb s
  refine ⟨fun hout => refuses_rndRne hout s, ?_⟩
  rintro n rfl hn
  exact ⟨_, answers_rndRne hn s, roundUp_iff_testBit bits.toNat n⟩

/-- Settles O35: `roundUp` compares the discarded part with half a unit, and appended zero bits scale both. -/
theorem roundUpIsNearestTiesToEven : Obligations.RoundUpIsNearestTiesToEven := by
  intro bits n s hn K R
  refine ⟨_, answers_rndRne hn s, roundUp_iff bits.toNat n, even_add_roundUp_of_tie, fun k => ?_⟩
  have happended := answers_rndRne (bits := ⟨bits.width + k, bits.bits ++ BitVec.zero k⟩) (Nat.add_lt_add_right hn k) s
  rwa [toNat_append_zero, roundUp_mul_two_pow, Nat.cast_add] at happended

end Sys2Proof.Machine.RoundingFamily
end

section
/-! SUPPORT. The statements about the adder (spec/43_adder.md R250 to R269): R251 case by case, the unit's answers in
its terms, R254's signs and nonzero sums, and the bound that rules out R262's second carry. -/

namespace Sys2Proof.Machine

open Sys2Proof

variable {F : Fmt} {nan a b : Word} {sub : Bool}

/-! ### The exact sum -/

/-- The exact sum or difference of two finite words, in the words of R252. -/
noncomputable def operandSum (F : Fmt) (a b : Word) (sub : Bool) : ℝ := realValue F a + signFactor sub * realValue F b

theorem realValue_eq_signFactor_mul_abs (F : Fmt) (w : Word) :
    realValue F w = signFactor (signOf F w) * |realValue F w| :=
  realValue_eq_sign_mul_abs F w

/-- Inverting the sign of `b` first (R252) negates its value. -/
theorem operandSum_eq (F : Fmt) (a b : Word) (sub : Bool) :
    operandSum F a b sub = realValue F a + signFactor (signOf F b ^^ sub) * |realValue F b| := by
  rw [operandSum, signFactor_xor, mul_comm (signFactor _) (signFactor sub), mul_assoc,
    ← realValue_eq_signFactor_mul_abs]

theorem operandSum_comm (F : Fmt) (a b : Word) : operandSum F a b false = operandSum F b a false := by
  simp [operandSum, signFactor, add_comm]

theorem realValue_of_isZero (h : isZero F a = true) : realValue F a = 0 :=
  abs_eq_zero.mp (abs_realValue_of_isZero h)

theorem operandSum_of_isZero (hb : isZero F b = true) (sub : Bool) : operandSum F a b sub = realValue F a := by
  rw [operandSum, realValue_of_isZero hb, mul_zero, add_zero]

/-- Magnitudes of one effective sign do not cancel. -/
theorem isZero_of_operandSum_eq_zero (hs : signOf F a = (signOf F b ^^ sub)) (h : operandSum F a b sub = 0) :
    isZero F a = true ∧ isZero F b = true := by
  have hsign : signFactor (signOf F a) ≠ 0 := left_ne_zero_of_mul_eq_one (signFactor_mul_self _)
  rw [operandSum_eq, ← hs, realValue_eq_signFactor_mul_abs F a, ← mul_add, mul_eq_zero, or_iff_right hsign,
    add_eq_zero_iff_of_nonneg (abs_nonneg _) (abs_nonneg _)] at h
  exact h.imp isZero_iff_abs_realValue.mpr isZero_iff_abs_realValue.mpr

/-! ### R251, case by case -/

theorem addSpec_of_isNaN (h : isNaN F a = true ∨ isNaN F b = true) : addSpec F nan a b sub = nan := if_pos h

theorem addSpec_of_isInf (ha : isInf F a = true) (hb : isInf F b = true) : addSpec F nan a b sub =
    if signOf F a = (signOf F b ^^ sub) then infWordOf F (signOf F a) else nan := by
  simp [addSpec, isNaN_eq_false_of_isInf ha, isNaN_eq_false_of_isInf hb, ha, hb]

theorem addSpec_of_isInf_left (ha : isInf F a = true) (hb : isFinite F b = true) :
    addSpec F nan a b sub = infWordOf F (signOf F a) := by
  obtain ⟨hnan, hinf⟩ := (isFinite_iff F b).mp hb
  simp [addSpec, isNaN_eq_false_of_isInf ha, ha, hnan, hinf]

theorem addSpec_of_isInf_right (ha : isFinite F a = true) (hb : isInf F b = true) :
    addSpec F nan a b sub = infWordOf F (signOf F b ^^ sub) := by
  obtain ⟨hnan, hinf⟩ := (isFinite_iff F a).mp ha
  simp [addSpec, isNaN_eq_false_of_isInf hb, hb, hnan, hinf]

open Classical in
theorem addSpec_of_isFinite (ha : isFinite F a = true) (hb : isFinite F b = true) : addSpec F nan a b sub =
    if operandSum F a b sub = 0 then zeroWordOf F (zeroSumSign (signOf F a) (signOf F b ^^ sub))
    else roundReal F (decide (operandSum F a b sub < 0)) |operandSum F a b sub| := by
  obtain ⟨hnan, hinf⟩ := (isFinite_iff F a).mp ha
  obtain ⟨hnan', hinf'⟩ := (isFinite_iff F b).mp hb
  simp [addSpec, operandSum_eq, signFactor, zeroSumSign, hnan, hinf, hnan', hinf']

theorem addSpec_of_sum_eq_zero (ha : isFinite F a = true) (hb : isFinite F b = true) (h : operandSum F a b sub = 0) :
    addSpec F nan a b sub = zeroWordOf F (zeroSumSign (signOf F a) (signOf F b ^^ sub)) := by
  rw [addSpec_of_isFinite ha hb, if_pos h]

theorem addSpec_of_sum_ne_zero (ha : isFinite F a = true) (hb : isFinite F b = true) (h : operandSum F a b sub ≠ 0) :
    addSpec F nan a b sub = roundReal F (decide (operandSum F a b sub < 0)) |operandSum F a b sub| := by
  rw [addSpec_of_isFinite ha hb, if_neg h]

theorem zeroSumSign_comm (s t : Bool) : zeroSumSign s t = zeroSumSign t s := by
  cases s <;> cases t <;> rfl

theorem isNaN_or_isInf_or_isFinite (F : Fmt) (w : Word) :
    isNaN F w = true ∨ isInf F w = true ∨ isFinite F w = true := by
  rw [isFinite_iff]
  cases isNaN F w <;> cases isInf F w <;> simp

/-- R251 without `subtract` treats its operands alike. -/
theorem addSpec_comm (F : Fmt) (nan a b : Word) : addSpec F nan a b false = addSpec F nan b a false := by
  rcases isNaN_or_isInf_or_isFinite F a with ha | ha | ha
  · rw [addSpec_of_isNaN (.inl ha), addSpec_of_isNaN (.inr ha)]
  all_goals rcases isNaN_or_isInf_or_isFinite F b with hb | hb | hb
  · rw [addSpec_of_isNaN (.inr hb), addSpec_of_isNaN (.inl hb)]
  · rw [addSpec_of_isInf ha hb, addSpec_of_isInf hb ha, Bool.xor_false, Bool.xor_false]
    by_cases hs : signOf F a = signOf F b
    · rw [hs]
    · rw [if_neg hs, if_neg (Ne.symm hs)]
  · rw [addSpec_of_isInf_left ha hb, addSpec_of_isInf_right hb ha, Bool.xor_false]
  · rw [addSpec_of_isNaN (.inr hb), addSpec_of_isNaN (.inl hb)]
  · rw [addSpec_of_isInf_right ha hb, addSpec_of_isInf_left hb ha, Bool.xor_false]
  · rw [addSpec_of_isFinite ha hb, addSpec_of_isFinite hb ha, operandSum_comm F b a, zeroSumSign_comm, Bool.xor_false,
      Bool.xor_false]

/-! ### A zero operand -/

theorem decide_realValue_neg (h : isZero F a = false) : decide (realValue F a < 0) = signOf F a := by
  have hpos := abs_realValue_pos h
  rw [realValue_eq_signFactor_mul_abs F a]
  cases signOf F a
  · simp [signFactor]
  · simpa [signFactor] using hpos

/-- R269: adding or subtracting a zero rounds the other operand itself. -/
theorem addSpec_zero (hF : F.unitOk = true) (hw : a.width = F.W) (ha : isFinite F a = true) (h0 : isZero F a = false)
    (hb : isZero F b = true) : addSpec F nan a b sub = a := by
  have hsum := operandSum_of_isZero (a := a) hb sub
  have hne : operandSum F a b sub ≠ 0 := by
    rw [hsum]
    exact abs_pos.mp (abs_realValue_pos h0)
  rw [addSpec_of_sum_ne_zero ha (isFinite_of_isZero (codecOk_of_unitOk hF) hb) hne, hsum, decide_realValue_neg h0,
    roundReal_abs_realValue hF hw ha]

/-! ### A nonzero sum -/

/-- R254's derivation: every value of a format is a multiple of the smallest subnormal. -/
theorem exists_realValue_eq (F : Fmt) (w : Word) : ∃ n : ℤ, realValue F w = n * 2 ^ (F.emin - F.M) := by
  rw [realValue_eq_signFactor_mul_abs, abs_realValue_eq_minSubs]
  generalize minSubs _ _ = k
  cases signOf F w
  · exact ⟨k, by simp [signFactor]⟩
  · exact ⟨-k, by simp [signFactor]⟩

theorem exists_operandSum_eq (F : Fmt) (a b : Word) (sub : Bool) :
    ∃ n : ℤ, operandSum F a b sub = n * 2 ^ (F.emin - F.M) := by
  obtain ⟨n, hn⟩ := exists_realValue_eq F a
  obtain ⟨k, hk⟩ := exists_realValue_eq F b
  rw [operandSum, hn, hk]
  cases sub
  · exact ⟨n + k, by simp [signFactor]; ring⟩
  · exact ⟨n - k, by simp [signFactor]; ring⟩

theorem le_abs_operandSum (h : operandSum F a b sub ≠ 0) : (2 : ℝ) ^ (F.emin - F.M) ≤ |operandSum F a b sub| := by
  obtain ⟨n, hn⟩ := exists_operandSum_eq F a b sub
  have hunit : (0 : ℝ) < 2 ^ (F.emin - F.M) := by positivity
  have hn0 : n ≠ 0 := by
    rintro rfl
    exact h (by rw [hn, Int.cast_zero, zero_mul])
  have hone : (1 : ℝ) ≤ |(n : ℝ)| := by exact_mod_cast Int.one_le_abs hn0
  rw [hn, abs_mul, abs_of_pos hunit]
  exact le_mul_of_one_le_left hunit.le hone

theorem isInf_infWordOf (hv : F.variant = .ieee) (s : Bool) : isInf F (infWordOf F s) = true := by
  simp [isInf, hv, infWordOf, fields_pack (eall_lt F) (Nat.two_pow_pos F.M)]

/-- What is not below the smallest subnormal does not round to zero. -/
theorem isZero_roundReal (hF : F.unitOk = true) (s : Bool) {x : ℝ} (h : (2 : ℝ) ^ (F.emin - F.M) ≤ x) :
    isZero F (roundReal F s x) = false := by
  obtain ⟨hv, hE, -⟩ := (unitOk_iff F).mp hF
  have hunit : (0 : ℝ) < 2 ^ (F.emin - F.M) := by positivity
  have hx := hunit.trans_le h
  rcases lt_or_ge (roundedValue F x) (2 ^ (F.emax + 1)) with hlt | hge
  · have hrep : Representable F (2 ^ (F.emin - F.M)) := ⟨1, F.emin, Nat.one_lt_two_pow (by omega), le_rfl, by simp⟩
    obtain ⟨-, -, hvalue⟩ := roundReal_value hE s hx.le hlt
    have hpos := hunit.trans_le (le_roundedValue hunit hrep h)
    rw [← Bool.not_eq_true, isZero_iff_abs_realValue, hvalue]
    exact hpos.ne'
  · rw [roundReal_of_overflow hE s hx hge]
    exact isZero_eq_false_of_isInf (codecOk_of_unitOk hF) (isInf_infWordOf hv s)

/-! ### The unit -/

theorem adderUnit_eq_addSpec {G : Fmt} (path : AdderPath) {rm : Option (BitVec 3)} (sub : Bool) (s : State)
    (hF : F.unitOk = true) (ha : a.width = F.W) (hb : b.width = F.W) (hG : G.same F = true)
    (hrm : rm = none ∨ rm = some 0) : adderUnit F G path rm a b sub s =
      .next (s.put (.word (addSpec F (canonNaN s.params F) a b sub))) := by
  rw [adderUnit_of_ok path sub s hF ha hb hG hrm, adderSum_eq_addSpec hF]

/-- R255. -/
theorem adderUnit_of_rm_ne_zero {G : Fmt} (path : AdderPath) {rm : BitVec 3} (sub : Bool) (s : State)
    (hF : F.unitOk = true) (ha : a.width = F.W) (hb : b.width = F.W) (hG : G.same F = true) (hrm : rm ≠ 0) :
    adderUnit F G path (some rm) a b sub s = .refused .adderRounding := by
  rw [adderUnit, withUnitWord_of_ok hF ha, withUnitWord_of_ok hF hb, withOutFormat_of_same hG,
    if_neg (by simpa using hrm)]
  rfl

/-- R267: an admitted format's adder meets R251 on either path, and any other format is refused. -/
theorem adderUnit_path (F G : Fmt) (rm : Option (BitVec 3)) (a b : Word) (sub : Bool) (s : State) (p q : AdderPath) :
    adderUnit F G p rm a b sub s = adderUnit F G q rm a b sub s := by
  cases hF : F.unitOk with
  | true => simp only [adderUnit, adderSum_eq_addSpec hF]
  | false => simp [adderUnit, withUnitWord, withUnitFormat, hF]

theorem same_self (F : Fmt) : F.same F = true := (same_iff F F).mpr ⟨rfl, rfl, rfl⟩

/-- The instruction that `subtract` selects reaches the datapath. -/
theorem answers_adderSum {path : AdderPath} {i : Instr} (hF : F.unitOk = true) (ha : a.width = F.W) (hb : b.width = F.W)
    (hi : i = if sub then .fsub F F path none a b else .fadd F F path none a b) (s : State) :
    Answers i s (.word (adderSum F path (canonNaN s.params F) a b sub)) := by
  subst hi
  cases sub
  · exact adderUnit_of_ok path false s hF ha hb (same_self F) (.inl rfl)
  · exact adderUnit_of_ok path true s hF ha hb (same_self F) (.inl rfl)

/-- R253's last case. -/
theorem adderSum_of_isFinite (nan : Word) (sub : Bool) (ha : isFinite F a = true) (hb : isFinite F b = true) :
    adderSum F .dual nan a b sub = dualPathSum F a b sub ∧
      adderSum F .single nan a b sub = singlePathSum F a b sub := by
  obtain ⟨hnan, hinf⟩ := (isFinite_iff F a).mp ha
  obtain ⟨hnan', hinf'⟩ := (isFinite_iff F b).mp hb
  simp [adderSum, hnan, hinf, hnan', hinf']

/-! ### R262's carries -/

/-- A sticky shift does not pass an even bound. -/
theorem shiftRightSticky_le {X k T : Nat} (hT : Even T) (h : X ≤ T * 2 ^ k) : shiftRightSticky X k ≤ T := by
  have hlt := ((isSticky_shiftRightSticky X k).le_iff ((Int.even_coe_nat T).mpr hT)).2
  have hle : (X : ℝ) / 2 ^ k ≤ T := by
    rw [div_le_iff₀ (by positivity)]
    exact_mod_cast h
  rw [Int.cast_natCast, Nat.cast_lt, ← not_iff_not, not_lt, not_lt] at hlt
  exact hlt.mp hle

/-- Rounding does not pass a bound that is itself kept whole. -/
theorem div_add_roundUp_le {D K lsb : Nat} (h : D ≤ K * 2 ^ lsb) : D / 2 ^ lsb + (roundUp D lsb).toNat ≤ K := by
  have hpos := Nat.two_pow_pos lsb
  rw [← nearestEven_two_pow, ← Int.ofNat_le, ← tiesToEven_natCast_div hpos]
  refine tiesToEven_le_of_le ?_
  rw [Int.cast_natCast, div_le_iff₀ (by exact_mod_cast hpos)]
  exact_mod_cast h

/-- R262's bound on the sum of two significands of a format. -/
theorem farSum_false_le {x : Aligned} (hL : x.sigL < 2 ^ (F.M + 1)) (hS : x.sigS < 2 ^ (F.M + 1)) :
    farSum false x ≤ (2 ^ (F.M + 1) - 1) * 2 ^ 3 * 2 ^ 1 := by
  have haligned : shiftRightSticky (x.sigS * 2 ^ 3) x.delta ≤ (2 ^ (F.M + 1) - 1) * 2 ^ 3 := by
    refine shiftRightSticky_le ((even_two.pow_of_ne_zero three_ne_zero).mul_left _) ?_
    exact (Nat.mul_le_mul_right _ (Nat.le_sub_one_of_lt hS)).trans (Nat.le_mul_of_pos_right _ (Nat.two_pow_pos _))
  simp only [farSum, Bool.false_eq_true, if_false]
  omega

theorem farNormalise_of_carry {D e : Nat} (h : D.testBit (F.M + 4) = true) :
    farNormalise F D e = (shiftRightSticky D 1, e + 1) := by
  rw [farNormalise, if_pos h, half_or_mod]

end Sys2Proof.Machine

/-! ### The obligations -/

namespace Sys2Proof.Machine.AdderFamily

open Sys2Proof Sys2Proof.Machine

/-- Settles O41: the unit's answer is the datapath's word, which R251 gives on either path. -/
theorem adderRoundsTheExactSumOnce : Obligations.AdderRoundsTheExactSumOnce := by
  intro F G path rm a b s hF hG hrm ha hb
  exact ⟨adderUnit_eq_addSpec path false s hF ha hb hG hrm, adderUnit_eq_addSpec path true s hF ha hb hG hrm⟩

/-- Settles O42: both paths meet R251 where the format is admitted, and both are refused elsewhere. -/
theorem adderPathIsNotObservable : Obligations.AdderPathIsNotObservable := fun F G rm a b s =>
  ⟨adderUnit_path F G rm a b false s .dual .single, adderUnit_path F G rm a b true s .dual .single⟩

/-- Settles O43, case by case of the contract; on finite operands by the datapath's own last case. -/
theorem adderSpecialCasePriority : Obligations.AdderSpecialCasePriority := by
  intro F path a b s sub i hF ha hb hi
  have hpath := answers_adderSum hF ha hb hi s
  have hspec := hpath
  rw [adderSum_eq_addSpec hF] at hspec
  refine ⟨fun h => ?_, fun hia hib hs => ?_, fun hia hib hs => ?_, fun hia hfb => ?_, fun hfa hib => ?_,
    fun hfa hfb hp => ?_, fun hfa hfb hp => ?_⟩
  · rwa [addSpec_of_isNaN h] at hspec
  · rwa [addSpec_of_isInf hia hib, if_neg hs] at hspec
  · rwa [addSpec_of_isInf hia hib, if_pos hs] at hspec
  · rwa [addSpec_of_isInf_left hia hfb] at hspec
  · rwa [addSpec_of_isInf_right hfa hib] at hspec
  · rwa [hp, (adderSum_of_isFinite _ sub hfa hfb).1] at hpath
  · rwa [hp, (adderSum_of_isFinite _ sub hfa hfb).2] at hpath

/-- Settles O44: addends of one effective sign cancel only as zeros, and a nonzero sum is at least the smallest
subnormal. -/
theorem signOfAnExactZeroSum : Obligations.SignOfAnExactZeroSum := by
  intro F path a b s sub i hF ha hb hfa hfb hi x
  have hspec := answers_adderSum hF ha hb hi s
  rw [adderSum_eq_addSpec hF] at hspec
  have hx : x = operandSum F a b sub := by
    cases sub <;> simp [x, operandSum, signFactor]
  rw [hx]
  refine ⟨fun hza hzb hs => ?_, fun h0 hne => ?_, fun h0 => ⟨_, hspec, ?_⟩⟩
  · have h0 : operandSum F a b sub = 0 := (operandSum_of_isZero hzb sub).trans (realValue_of_isZero hza)
    rwa [addSpec_of_sum_eq_zero hfa hfb h0, ← hs, zeroSumSign, if_pos (beq_self_eq_true _)] at hspec
  · have hs : ¬ signOf F a = (signOf F b ^^ sub) := fun hs => by
      obtain ⟨hza, hzb⟩ := isZero_of_operandSum_eq_zero hs h0
      exact hne ⟨hza, hzb, hs⟩
    rwa [addSpec_of_sum_eq_zero hfa hfb h0, zeroSumSign, if_neg (by simpa using hs)] at hspec
  · rw [addSpec_of_sum_ne_zero hfa hfb h0]
    exact isZero_roundReal hF _ (le_abs_operandSum h0)

/-- Settles O46: after the carry shift the sum is at most `2^(M+4) - 8`, whose significand needs no rounding. -/
theorem farPathNeverCarriesTwice : Obligations.FarPathNeverCarriesTwice := by
  intro F x hL hS hcarry
  rw [farNormalise_of_carry hcarry]
  have hD : shiftRightSticky (farSum false x) 1 ≤ (2 ^ (F.M + 1) - 1) * 2 ^ 3 :=
    shiftRightSticky_le ((even_two.pow_of_ne_zero three_ne_zero).mul_left _) (farSum_false_le hL hS)
  exact ⟨rfl, (div_add_roundUp_le hD).trans_lt (Nat.sub_lt (Nat.two_pow_pos _) Nat.one_pos)⟩

/-- Settles O47: a finite word rounds to itself, and R251 treats its operands alike. -/
theorem additionOfZeroAndCommutation : Obligations.AdditionOfZeroAndCommutation := by
  intro F path a b s hF ha hb
  have hadd := adderUnit_eq_addSpec path false s hF ha hb (same_self F) (.inl rfl)
  have hsub := adderUnit_eq_addSpec path true s hF ha hb (same_self F) (.inl rfl)
  have hcomm := adderUnit_eq_addSpec path false s hF hb ha (same_self F) (.inl rfl)
  rw [addSpec_comm] at hcomm
  refine ⟨fun hzb hfa hza => ?_, hadd.trans hcomm.symm⟩
  rw [addSpec_zero hF ha hfa hza hzb] at hadd hsub hcomm
  exact ⟨hadd, hsub, hcomm⟩

/-- Settles O45: R255's refusal, and one answer for 000 and for no port. -/
theorem adderRoundingModePort : Obligations.AdderRoundingModePort := by
  intro F G path a b s hF hG ha hb
  have answer (sub : Bool) {rm : Option (BitVec 3)} (hrm : rm = none ∨ rm = some 0) :=
    adderUnit_eq_addSpec path sub s hF ha hb hG hrm
  exact ⟨fun rm hrm => ⟨adderUnit_of_rm_ne_zero path false s hF ha hb hG hrm,
      adderUnit_of_rm_ne_zero path true s hF ha hb hG hrm⟩,
    ⟨_, answer false (.inr rfl), answer false (.inl rfl)⟩, ⟨_, answer true (.inr rfl), answer true (.inl rfl)⟩⟩

end Sys2Proof.Machine.AdderFamily
end

section
/-! SUPPORT. The statement about the multiplier (spec/44_multiplier.md R300): the unit's answer is the datapath's word,
and the datapath rounds the exact product once. -/

namespace Sys2Proof.Machine.MultiplierFamily

open Sys2Proof Sys2Proof.Machine

/-- Settles O48: the unit completes with the word of R302 to R308, which is R300's in every case. -/
theorem multiplierRoundsTheExactProductOnce : Obligations.MultiplierRoundsTheExactProductOnce := by
  intro F G a b s hF hG ha hb
  have hunits := StateFamily.unitsCompleteOnEveryOperand F G .dual none .rounded a b s hF ha hb
  obtain ⟨-, -, hproduct⟩ := hunits.1 hG (.inl rfl)
  rwa [multiplierProduct_eq_mulSpec hF] at hproduct

end Sys2Proof.Machine.MultiplierFamily
end

section
/-! SUPPORT. The statements about the converter (spec/45_converter.md R340 to R350): the datapath rounds the exact value
of the source once, and a word that is not a NaN comes back from every format no narrower than its own. -/

namespace Sys2Proof.Machine

open Sys2Proof

variable {F G : Fmt} {w d : Word}

/-! ### The converter's algorithm -/

/-- R343 to R347 round the exact value of a nonzero word once: the placed significand is exact and normalised, and `ext`
is at least the two bits a sticky bit needs below the last one kept. -/
theorem finiteConversion_eq (hG : G.unitOk = true) (s : Bool) (hw : isZero F w = false) :
    finiteConversion F G s w = roundReal G s |realValue F w| := by
  obtain ⟨-, hlo, hhi⟩ := leadingZeros_spec (significand_pos hw).ne' (significand_lt F w)
  have hext : 2 ≤ extBits F.M G.M := Nat.le_add_left 2 _
  obtain ⟨k, hk⟩ : ∃ k, G.M + extBits F.M G.M = F.M + k := Nat.exists_eq_add_of_le (by rw [extBits]; omega)
  rw [finiteConversion, placedSource, hk, Nat.add_sub_cancel_left]
  set lz := leadingZeros (F.M + 1) (significand F w)
  have hlt : ((significand F w * 2 ^ lz * 2 ^ k : Nat) : ℝ) < 2 ^ (G.M + extBits F.M G.M + 1) := by
    have h := Nat.mul_lt_mul_of_pos_right hhi (Nat.two_pow_pos k)
    rw [← pow_add, add_right_comm, ← hk] at h
    exact_mod_cast h
  have hge : (2 : ℝ) ^ (G.M + extBits F.M G.M) ≤ ((significand F w * 2 ^ lz * 2 ^ k : Nat) : ℝ) := by
    have h := Nat.mul_le_mul_right (2 ^ k) hlo
    rw [Nat.add_sub_cancel, ← pow_add, ← hk] at h
    exact_mod_cast h
  have hvalue : ((significand F w * 2 ^ lz * 2 ^ k : Nat) : ℝ) *
      2 ^ ((effExp F w : ℤ) - F.bias - lz + G.bias - G.bias - G.M - extBits F.M G.M) = |realValue F w| := by
    have hexp : (effExp F w : ℤ) - F.bias - F.M = (lz + k : Nat) +
        ((effExp F w : ℤ) - F.bias - lz + G.bias - G.bias - G.M - extBits F.M G.M) := by omega
    rw [abs_realValue, hexp, zpow_add₀ two_ne_zero, zpow_natCast, pow_add]
    push_cast
    ring
  rw [← hvalue]
  exact roundAndPack_denormalise hG s _ (.inl rfl) hext hlt hge

/-- R340 of the machine's converter. -/
theorem converted_eq_cvtSpec (hG : G.unitOk = true) (F : Fmt) (nan w : Word) :
    converted F G nan w = cvtSpec F G nan w := by
  rw [converted, cvtSpec]
  split
  · rfl
  split
  · rfl
  split
  · rfl
  next hz => exact finiteConversion_eq hG _ (by simpa using hz)

theorem answers_fcvt (hF : F.unitOk = true) (hG : G.unitOk = true) (hw : w.width = F.W) (s : State) :
    Answers (.fcvt F G w) s (.word (cvtSpec F G (canonNaN s.params G) w)) := by
  obtain ⟨-, hconvert, -⟩ := StateFamily.unitsCompleteOnEveryOperand F G .dual none .rounded w w s hF hw hw
  rw [← converted_eq_cvtSpec hG]
  exact hconvert hG

@[simp] theorem cvtSpec_width (F G : Fmt) (s : State) (w : Word) :
    (cvtSpec F G (canonNaN s.params G) w).width = G.W := by
  simp only [cvtSpec, apply_ite Word.width, canonNaN_width, infWordOf_width, zeroWordOf_width, roundReal_width,
    ite_self]

/-! ### Conversions that lose nothing -/

/-- The word `d` of the format `G` stands for the same infinity or value, with the same sign, as `w` does in `F`. -/
structure SameNumber (F : Fmt) (w : Word) (G : Fmt) (d : Word) : Prop where
  isNaN : isNaN G d = false
  isInf : isInf G d = isInf F w
  signOf : signOf G d = signOf F w
  abs : isFinite F w = true → |realValue G d| = |realValue F w|

theorem sameNumber_self (hnan : isNaN F w = false) : SameNumber F w F w := ⟨hnan, rfl, rfl, fun _ => rfl⟩

theorem signOf_infWordOf (F : Fmt) (s : Bool) : signOf F (infWordOf F s) = s := by
  rw [signOf, infWordOf, fields_pack (eall_lt F) (Nat.two_pow_pos F.M)]

/-- A format no smaller in `E` and `M` holds every number of the source (R342's first sentence). -/
theorem sameNumber_cvtSpec (hF : F.unitOk = true) (hG : G.unitOk = true) (hE : F.E ≤ G.E) (hM : F.M ≤ G.M)
    (hnan : isNaN F w = false) (nan : Word) : SameNumber F w G (cvtSpec F G nan w) := by
  obtain ⟨hvF, hEF, -⟩ := (unitOk_iff F).mp hF
  obtain ⟨hvG, -, -⟩ := (unitOk_iff G).mp hG
  cases hinf : Machine.isInf F w with
  | true =>
    rw [cvtSpec_of_isInf hinf]
    refine ⟨isNaN_infWordOf hvG _, by rw [isInf_infWordOf hvG, hinf], signOf_infWordOf G _, fun hfin => ?_⟩
    simp [((isFinite_iff F w).mp hfin).2] at hinf
  | false =>
    have hfin := (isFinite_iff F w).mpr ⟨hnan, hinf⟩
    have hbias := bias_mono hE
    have hlt : |realValue F w| < 2 ^ (G.emax + 1) := by
      refine (abs_realValue_lt_of_isFinite (codecOk_of_unitOk hF) hEF hfin).trans_le
        (zpow_le_zpow_right₀ one_le_two ?_)
      rw [emax_eq hvF, emax_eq hvG]
      omega
    obtain ⟨hfinG, hs, habs⟩ := roundReal_exact hG (Machine.signOf F w) (abs_nonneg _)
      (representable_abs_realValue hbias hM w) hlt
    obtain ⟨hnanG, hinfG⟩ := (isFinite_iff _ _).mp hfinG
    rw [cvtSpec_of_isFinite hfin]
    exact ⟨hnanG, hinfG.trans hinf.symm, hs, fun _ => habs⟩

/-- R350: what stands for a number of a format becomes that number's word in it. -/
theorem SameNumber.cvtSpec_eq (h : SameNumber F w G d) (hF : F.unitOk = true) (hw : w.width = F.W)
    (hnan : Machine.isNaN F w = false) (nan : Word) : cvtSpec G F nan d = w := by
  cases hinf : Machine.isInf F w with
  | true => rw [cvtSpec_of_isInf (h.isInf.trans hinf), h.signOf, ← eq_infWordOf_of_isInf hw hinf]
  | false =>
    have hfin := (isFinite_iff F w).mpr ⟨hnan, hinf⟩
    have hfinG := (isFinite_iff G d).mpr ⟨h.isNaN, h.isInf.trans hinf⟩
    rw [cvtSpec_of_isFinite hfinG, h.signOf, h.abs hfin, roundReal_abs_realValue hF hw hfin]

end Sys2Proof.Machine

/-! ### The obligations -/

namespace Sys2Proof.Machine.ConverterFamily

open Sys2Proof Sys2Proof.Machine

/-- Settles O49: the unit's answer is the datapath's word, which is R340's in every case. -/
theorem converterRoundsOnce : Obligations.ConverterRoundsOnce := fun _ _ _ s hFs hFd ha => answers_fcvt hFs hFd ha s

/-- Settles O50: the source's number is one of the destination, and rounds to its own word on the way back. -/
theorem conversionsThatLoseNothing : Obligations.ConversionsThatLoseNothing := by
  intro Fs Fd a s hFs hFd ha
  have hsame := answers_fcvt hFs hFs ha s
  refine ⟨fun hnan => ?_, fun hnan => ?_, fun hnan hE hM => ?_⟩
  · rwa [cvtSpec_of_isNaN hnan] at hsame
  · rwa [(sameNumber_self hnan).cvtSpec_eq hFs ha hnan] at hsame
  · have hnumber := sameNumber_cvtSpec hFs hFd hE hM hnan (canonNaN s.params Fd)
    refine ⟨_, answers_fcvt hFs hFd ha s, fun hfin => realValue_eq_of_sign_of_abs hnumber.signOf (hnumber.abs hfin),
      fun s' => ?_⟩
    have hback := answers_fcvt hFd hFs (cvtSpec_width Fs Fd s a) s'
    rwa [hnumber.cvtSpec_eq hFs ha hnan] at hback

end Sys2Proof.Machine.ConverterFamily
end

section
/-! SUPPORT. The square root (spec/46_sqrt.md R380 to R388): the datapath rounds the exact root once, R382's `error` is
the sign of a nonzero value, and the unit's answers are R380's pair. -/

namespace Sys2Proof.Machine

open Sys2Proof

variable {F : Fmt} {sub : SqrtSubnormal} {a : Word}

/-! ### The square root's algorithm -/

/-- The integer root with R385's sticky bit stands for the real root, measured in halves. -/
theorem isSticky_isqrt (n : Nat) : IsSticky (isqrt n * 2 + if isqrt n * isqrt n ≠ n then 1 else 0) (2 * √n) := by
  obtain ⟨hle, hlt⟩ := isqrt_bounds n
  split
  next hne =>
    have hlo : (isqrt n : ℝ) < √n := by
      rw [Real.lt_sqrt (Nat.cast_nonneg _), sq]
      exact_mod_cast lt_of_le_of_ne hle hne
    have hhi : √n < (isqrt n : ℝ) + 1 := by
      rw [Real.sqrt_lt' (by positivity), sq]
      exact_mod_cast hlt
    refine .inr ⟨⟨isqrt n, by ring⟩, ?_, ?_⟩
    all_goals push_cast; linarith
  next heq =>
    have hroot : √(n : ℝ) = isqrt n := by
      rw [Real.sqrt_eq_iff_mul_self_eq (Nat.cast_nonneg _) (Nat.cast_nonneg _)]
      exact_mod_cast (not_not.mp heq).symm
    refine .inl ?_
    rw [hroot]
    push_cast
    ring

/-- R384: the radicand has its leading one in one of two places, the exponent is even, and together they are the
operand's magnitude. -/
theorem evenRadicand_spec (h0 : isZero F a = false) : ∃ k : ℤ, (evenRadicand F a).2 = 2 * k ∧
    2 ^ F.M ≤ (evenRadicand F a).1 ∧ (evenRadicand F a).1 < 2 ^ (F.M + 2) ∧
      |realValue F a| = (evenRadicand F a).1 * 2 ^ (2 * k - F.M) := by
  obtain ⟨-, hlo, hhi⟩ := leadingZeros_spec (significand_pos h0).ne' (significand_lt F a)
  rw [Nat.add_sub_cancel] at hlo
  have htop : 2 ^ (F.M + 2) = 2 * 2 ^ (F.M + 1) := pow_succ' 2 _
  rw [abs_realValue, evenRadicand]
  set lz := leadingZeros (F.M + 1) (significand F a)
  have hscale {n : Nat} {k : ℤ} (h : (effExp F a : ℤ) - F.bias - lz = 2 * k + n) :
      (significand F a : ℝ) * 2 ^ ((effExp F a : ℤ) - F.bias - F.M) =
        significand F a * 2 ^ lz * 2 ^ n * 2 ^ (2 * k - F.M) := by
    rw [show (effExp F a : ℤ) - F.bias - F.M = (lz : ℤ) + n + (2 * k - F.M) by omega, zpow_add₀ two_ne_zero,
      zpow_add₀ two_ne_zero, zpow_natCast, zpow_natCast]
    ring
  split
  next hodd =>
    obtain ⟨k, hk⟩ : ∃ k : ℤ, (effExp F a : ℤ) - F.bias - lz = 2 * k + 1 := Int.odd_iff.mpr hodd
    refine ⟨k, by dsimp only; omega, by dsimp only; omega, by dsimp only; omega, (hscale (n := 1) hk).trans ?_⟩
    push_cast
    ring
  next heven =>
    obtain ⟨k, hk⟩ : ∃ k : ℤ, (effExp F a : ℤ) - F.bias - lz = 2 * k :=
      even_iff_exists_two_mul.mp (Int.not_odd_iff_even.mp (mt Int.odd_iff.mp heven))
    refine ⟨k, hk, hlo, by dsimp only; omega, (hscale (n := 0) (by simpa using hk)).trans ?_⟩
    push_cast
    ring

theorem two_mul_sqrt_two_pow (n : Nat) : 2 * √((2 : ℝ) ^ (2 * n)) = 2 ^ (n + 1) := by
  rw [mul_comm 2 n, pow_mul, Real.sqrt_sq (by positivity), pow_succ']

/-- Halving an even exponent is taking the root of its power (R384). -/
theorem sqrt_mul_two_zpow {x : ℝ} (hx : 0 ≤ x) (j : ℤ) : √(x * 2 ^ (2 * j)) = √x * 2 ^ j := by
  rw [Real.sqrt_mul hx, two_mul, zpow_add₀ two_ne_zero, Real.sqrt_mul_self (by positivity)]

/-- R384 to R387 round the exact root of a nonzero word's magnitude once. -/
theorem finiteRoot_eq (hF : F.unitOk = true) (h0 : isZero F a = false) :
    finiteRoot F a = roundReal F false √|realValue F a| := by
  obtain ⟨k, hk, hlo, hhi, habs⟩ := evenRadicand_spec h0
  rw [finiteRoot, hk, habs, Int.mul_ediv_cancel_left k two_ne_zero]
  set sig := (evenRadicand F a).1
  have hlt : 2 * √(sig * 2 ^ (F.M + 4) : Nat) < (2 : ℝ) ^ (F.M + 3 + 1) := by
    have h : sig * 2 ^ (F.M + 4) < 2 ^ (2 * (F.M + 3)) := by
      rw [show 2 * (F.M + 3) = F.M + 2 + (F.M + 4) by ring, pow_add _ (F.M + 2)]
      exact Nat.mul_lt_mul_of_pos_right hhi (Nat.two_pow_pos _)
    rw [← two_mul_sqrt_two_pow, mul_lt_mul_iff_right₀ two_pos]
    exact Real.sqrt_lt_sqrt (Nat.cast_nonneg _) (by exact_mod_cast h)
  have hge : (2 : ℝ) ^ (F.M + 3) ≤ 2 * √(sig * 2 ^ (F.M + 4) : Nat) := by
    have h : 2 ^ (2 * (F.M + 2)) ≤ sig * 2 ^ (F.M + 4) := by
      rw [show 2 * (F.M + 2) = F.M + (F.M + 4) by ring, pow_add _ F.M]
      exact Nat.mul_le_mul_right _ hlo
    rw [← two_mul_sqrt_two_pow, mul_le_mul_iff_right₀ two_pos]
    exact Real.sqrt_le_sqrt (by exact_mod_cast h)
  have hvalue : 2 * √(sig * 2 ^ (F.M + 4) : Nat) * 2 ^ (k + F.bias - F.bias - F.M - (3 : Nat)) =
      √(sig * 2 ^ (2 * k - F.M)) := by
    rw [show 2 * k - (F.M : ℤ) = (F.M + 4 : Nat) + 2 * (k - F.M - 2) by push_cast; ring, zpow_add₀ two_ne_zero,
      zpow_natCast, ← mul_assoc, sqrt_mul_two_zpow (by positivity),
      show k - (F.M : ℤ) - 2 = k + F.bias - F.bias - F.M - (3 : Nat) + 1 by push_cast; ring, zpow_add_one₀ two_ne_zero]
    push_cast
    ring
  rw [← hvalue]
  exact roundAndPack_denormalise hF false _ (isSticky_isqrt _) (Nat.le_succ 2) hlt hge

/-! ### The pair of outputs -/

theorem isFinite_of_isSubnormal (hF : F.codecOk = true) (h : isSubnormal F a = true) :
    isFinite F a = true ∧ isZero F a = false := by
  have hone := exactly_one_class hF a
  rw [h] at hone
  rw [isFinite_iff]
  cases hn : isNaN F a <;> cases hi : isInf F a <;> cases hz : isZero F a <;> simp_all

theorem abs_realValue_of_sign_false (hs : signOf F a = false) : |realValue F a| = realValue F a := by
  rw [realValue_eq_signFactor_mul_abs F a, hs, signFactor, if_neg Bool.false_ne_true, one_mul, abs_abs]

/-- R382's negative nonzero operands are those of a negative value, and `-∞`. -/
theorem isNegativeNonzero_iff (hF : F.codecOk = true) (a : Word) : isNegativeNonzero F a = true ↔
    isFinite F a = true ∧ realValue F a < 0 ∨ isInf F a = true ∧ signOf F a = true := by
  rcases isNaN_or_isInf_or_isFinite F a with h | h | h
  · simp [isNegativeNonzero, h, isInf_eq_false_of_isNaN h, isFinite]
  · simp [isNegativeNonzero, h, isNaN_eq_false_of_isInf h, isZero_eq_false_of_isInf hF h, isFinite]
  · obtain ⟨hnan, hinf⟩ := (isFinite_iff F a).mp h
    cases hz : isZero F a with
    | true => simp [isNegativeNonzero, hz, hinf, realValue_of_isZero hz]
    | false => simp [isNegativeNonzero, hz, hinf, hnan, h, ← decide_realValue_neg hz]

theorem errorOutput_iff (F : Fmt) (sub : SqrtSubnormal) (a : Word) : errorOutput F sub a = true ↔
    isNegativeNonzero F a = true ∨ isSubnormal F a = true ∧ sub = .flagged := by
  simp [errorOutput]

/-- The numeric case of R380: a nonnegative finite operand, where a subnormal is not special. -/
theorem sqrtSpec_of_sign_false (nan : Word) (hfin : isFinite F a = true)
    (hs : signOf F a = false) (hsub : isSubnormal F a = true → sub = .rounded) :
    sqrtSpec F nan sub a = (roundReal F false √(realValue F a), false) := by
  obtain ⟨hnan, hinf⟩ := (isFinite_iff F a).mp hfin
  cases hz : isZero F a with
  | true => simp [sqrtSpec, hnan, hinf, hz, hs, realValue_of_isZero hz, roundReal_zero]
  | false => simpa [sqrtSpec, hnan, hinf, hz, hs] using fun h hne => absurd (hsub h) hne

/-- R380 of the machine's square root. -/
theorem rootWord_errorOutput (hF : F.unitOk = true) (sub : SqrtSubnormal) (nan a : Word) :
    (rootWord F nan sub a, errorOutput F sub a) = sqrtSpec F nan sub a := by
  have hF' := codecOk_of_unitOk hF
  have hsub (h : isFinite F a = false ∨ isZero F a = true) : isSubnormal F a = false := by
    by_contra hs
    obtain ⟨hfin, hz⟩ := isFinite_of_isSubnormal hF' (by simpa using hs)
    simp [hfin, hz] at h
  simp only [rootWord, sqrtSpec, errorOutput, isNegativeNonzero]
  rcases isNaN_or_isInf_or_isFinite F a with h | h | h
  · simp [h, hsub (.inl (by simp [isFinite, h]))]
  · cases hs : signOf F a <;>
      simp [h, isNaN_eq_false_of_isInf h, isZero_eq_false_of_isInf hF' h, hsub (.inl (by simp [isFinite, h]))]
  obtain ⟨hnan, hinf⟩ := (isFinite_iff F a).mp h
  cases hz : isZero F a with
  | true => simp [hnan, hinf, hsub (.inr hz)]
  | false =>
    cases hs : signOf F a with
    | true => simp [hnan, hinf]
    | false =>
      rw [← abs_realValue_of_sign_false hs, ← finiteRoot_eq hF hz]
      cases hsn : isSubnormal F a with
      | true => cases sub <;> simp [hnan, hinf]
      | false => simp [hnan, hinf]

/-- The unit's answer is R380's pair. -/
theorem answers_fsqrt (hF : F.unitOk = true) (sub : SqrtSubnormal) (ha : a.width = F.W) (s : State) :
    Answers (.fsqrt ⟨F, sub⟩ a) s (.root (rootWord F (canonNaN s.params F) sub a) (errorOutput F sub a)) :=
  (StateFamily.unitsCompleteOnEveryOperand F F .dual none sub a a s hF ha ha).2.2

end Sys2Proof.Machine

/-! ### The obligations -/

namespace Sys2Proof.Machine.SquareRootFamily

open Sys2Proof Sys2Proof.Machine

/-- Settles O51: the unit's answer is the datapath's pair, which is R380's in every case. -/
theorem squareRootRoundsTheExactRootOnce : Obligations.SquareRootRoundsTheExactRootOnce := by
  intro F sub a s hF ha
  simp only [← rootWord_errorOutput hF]
  exact answers_fsqrt hF sub ha s

/-- Settles O52: under `flagged` a subnormal is either negative, which R382 flags already, or positive. -/
theorem squareRootErrorOutput : Obligations.SquareRootErrorOutput := by
  intro F sub a s hF ha
  have hneg := isNegativeNonzero_iff (codecOk_of_unitOk hF) a
  refine ⟨_, _, answers_fsqrt hF sub ha s, fun hsub => ?_, fun hsub => ?_, by cases errorOutput F sub a <;> rfl⟩
  · simp only [errorOutput_iff, hneg, hsub, and_false, or_false]
  · have hflag : isSubnormal F a = true → signOf F a = true → isNegativeNonzero F a = true := fun hsn hs => by
      obtain ⟨hfin, hz⟩ := isFinite_of_isSubnormal (codecOk_of_unitOk hF) hsn
      simp [isNegativeNonzero, hs, hz, ((isFinite_iff F a).mp hfin).1]
    rw [errorOutput_iff, ← or_assoc, ← hneg, and_iff_left hsub]
    cases hs : signOf F a with
    | true => simpa using fun hsn => hflag hsn hs
    | false => simp

/-- Settles O53: the exact root is `y`'s magnitude, which rounds to `y` itself. -/
theorem rootOfAnExactSquare : Obligations.RootOfAnExactSquare := by
  intro F sub x y s hF hx hy hfx hfy hsx hsy hxy hsub
  have hroot := squareRootRoundsTheExactRootOnce F sub x s hF hx
  have hy' : roundReal F false |realValue F y| = y := hsy ▸ roundReal_abs_realValue hF hy hfy
  rwa [sqrtSpec_of_sign_false _ hfx hsx hsub, hxy, Real.sqrt_mul_self_eq_abs, hy'] at hroot

end Sys2Proof.Machine.SquareRootFamily
end

section
/-! SUPPORT. The refusals of spec/60_exceptions.md R428 and the priorities of R426: what the guards do before an
operation that is refused itself, and where each operation of the table answers its refusal. -/

namespace Sys2Proof.Machine

open Sys2Proof

variable {F G : Fmt}

/-! ### Refusals behind the guards -/

theorem withCodecFormat_refused (F : Fmt) {k : StepOutcome} (h : ∃ q, k = .refused q) :
    ∃ q, withCodecFormat F k = .refused q := by
  rcases withCodecFormat_cases F k with ⟨-, e⟩ | ⟨-, e⟩
  · exact h.imp fun _ => e.trans
  · exact ⟨_, e⟩

theorem withUnitWord_refused (F : Fmt) (w : Word) {k : StepOutcome} (h : ∃ q, k = .refused q) :
    ∃ q, withUnitWord F w k = .refused q := by
  rcases withUnitWord_cases F w k with ⟨-, -, e⟩ | ⟨-, e⟩ | ⟨-, -, e⟩
  · exact h.imp fun _ => e.trans
  · exact ⟨_, e⟩
  · exact ⟨_, e⟩

theorem withUnitFormat_of_not_unitOk (hF : F.unitOk = false) (k : StepOutcome) :
    withUnitFormat F k = .refused .unitFormat :=
  if_neg (by simp [hF])

theorem withOutFormat_of_not_same (hG : G.same F = false) (k : StepOutcome) :
    withOutFormat F G k = .refused .outputFormat :=
  if_neg (by simp [hG])

/-! ### The arithmetic units -/

/-- R250, R255: the adder unit completes on its admitted format, output format and `rm` only. -/
theorem adderUnit_refused {rm : Option (BitVec 3)} (h : G.same F = true → rm ≠ none ∧ rm ≠ some 0) (path : AdderPath)
    (a b : Word) (sub : Bool) (s : State) : ∃ q, adderUnit F G path rm a b sub s = .refused q := by
  rcases adderUnit_cases F G path rm a b sub s with ⟨-, -, -, hG, hrm, -⟩ | hq
  · obtain ⟨hnone, hzero⟩ := h hG
    exact absurd hrm (not_or.mpr ⟨hnone, hzero⟩)
  · exact hq

theorem execFmul_refused (hG : G.same F = false) (a b : Word) (s : State) : ∃ q, execFmul F G a b s = .refused q :=
  withUnitWord_refused F a (withUnitWord_refused F b ⟨_, withOutFormat_of_not_same hG _⟩)

/-- R340: the destination's format is checked as the source's is. -/
theorem execFcvt_refused (hF : F.unitOk = false) (G : Fmt) (a : Word) (s : State) :
    ∃ q, execFcvt G F a s = .refused q :=
  withUnitWord_refused G a ⟨_, withUnitFormat_of_not_unitOk hF _⟩

/-! ### The codec -/

/-- R96: 110 and 111 are reserved. -/
theorem roundingMode_of_reserved {rm : BitVec 3} (h : 6 ≤ rm.toNat) : roundingMode rm = none := by
  have hlt : rm.toNat < 8 := rm.isLt
  unfold roundingMode
  interval_cases rm.toNat <;> rfl

/-- R180: past the format's guard a reserved `rm` is refused, before any RangeError (R426). -/
theorem execFpFromDouble_of_reserved {rm : BitVec 3} (h : 6 ≤ rm.toNat) (x : BitVec 64) (F : Fmt) (s : State) :
    execFpFromDouble x F rm s = withCodecFormat F (.refused .reservedRounding) := by
  rw [execFpFromDouble, roundingMode_of_reserved h]
  rfl

theorem normalConstant_refused (hE : F.E = 1) (w : Word) (s : State) : ∃ q, normalConstant F w s = .refused q :=
  withCodecFormat_refused F ⟨.constantNeedsNormal, if_pos (by omega)⟩

theorem execFpFromInts_of_emptyGeneric {e m : SizedNat} (hg : F.isGeneric = true) (h : e.width = 0 ∨ m.width = 0)
    (sg : SizedNat) (s : State) : execFpFromInts F sg e m s = .refused .emptyGenericField :=
  if_pos ⟨hg, h⟩

theorem execFpFromRadix_refused {r : Nat} {s : State} (hr : r ∉ s.params.radices) (F : Fmt) (t : Str) :
    ∃ q, execFpFromRadix F t r s = .refused q :=
  withCodecFormat_refused F ⟨.radix, if_pos hr⟩

/-- R188's two causes of MalformedInput, a character and an empty string. -/
theorem fromBinaryStrings_malformed {S X T : Str} (hne : ¬ (F.isGeneric = true ∧ (X = [] ∨ T = [])))
    (h : (∃ c ∈ S ++ X ++ T, c ≠ '0' ∧ c ≠ '1') ∨ S = [] ∨ X = [] ∨ T = []) (s : State) :
    ∃ info, fromBinaryStrings F S X T s = .next (s.fail .malformedInput info) := by
  by_cases hbad : ∃ c ∈ S ++ X ++ T, c ≠ '0' ∧ c ≠ '1'
  · exact ⟨_, fromBinaryStrings_of_notBinary hne hbad s⟩
  · have hbin : ∀ c ∈ S ++ X ++ T, c = '0' ∨ c = '1' := by
      push Not at hbad
      exact fun c hc => or_iff_not_imp_left.mpr (hbad c hc)
    exact ⟨_, fromBinaryStrings_of_empty hne hbin (h.resolve_left hbad) s⟩

/-! ### The square root -/

/-- R382, R383: a NaN or a zero of either sign is neither negative nor subnormal. -/
theorem errorOutput_of_isNaN_or_isZero {a : Word} (hF : F.codecOk = true) (h : isNaN F a = true ∨ isZero F a = true)
    (sub : SqrtSubnormal) : errorOutput F sub a = false := by
  have hneg : ¬ isNegativeNonzero F a = true := by
    rcases h with h | h <;> simp [isNegativeNonzero, h]
  have hsn : ¬ isSubnormal F a = true := fun hsn => by
    obtain ⟨hfin, hz⟩ := isFinite_of_isSubnormal hF hsn
    have hnan := ((isFinite_iff F a).mp hfin).1
    simp [hnan, hz] at h
  exact Bool.eq_false_iff.mpr fun herr => ((errorOutput_iff F sub a).mp herr).elim hneg fun hflag => hsn hflag.1

end Sys2Proof.Machine

/-! ### The obligations -/

namespace Sys2Proof.Machine.ExceptionFamily

open Sys2Proof Sys2Proof.Machine

/-- Settles O54, row by row of R428's table: every guard that stands before a row's refusal refuses too. -/
theorem refusedInvocations : Obligations.RefusedInvocations := by
  intro s F G path rm sub a b
  refine ⟨?selector, ?adderRm, ?doubleRm, ?unitFormat, ?outFormat, ?lsb, ?pack, ?ints, ?strings, ?infinity, ?normal,
    ?radix⟩
  case selector => exact fun op args rest => EncodingFamily.reservedSelectorsAreRefused.1 s op args rest
  case adderRm =>
    intro r hr
    have hrm : G.same F = true → some r ≠ none ∧ some r ≠ some 0 := fun _ => by simpa using hr
    exact ⟨adderUnit_refused hrm path a b false s, adderUnit_refused hrm path a b true s⟩
  case doubleRm =>
    intro x r hr
    exact (withCodecFormat_refused F ⟨_, rfl⟩).imp fun _ => (execFpFromDouble_of_reserved hr x F s).trans
  case unitFormat =>
    intro hF
    have refused := withUnitFormat_of_not_unitOk hF
    exact ⟨refused _, refused _, refused _, refused _, execFcvt_refused hF G a s, refused _⟩
  case outFormat =>
    intro hG
    have hrm : G.same F = true → rm ≠ none ∧ rm ≠ some 0 := fun h => absurd h (by simp [hG])
    exact ⟨adderUnit_refused hrm path a b false s, adderUnit_refused hrm path a b true s, execFmul_refused hG a b s⟩
  case lsb => exact fun lsb h => refuses_rndRne h s
  case pack => exact fun sg e m hg h => ⟨_, construct_of_emptyGeneric hg h sg s⟩
  case ints => exact fun sg e m hg h => ⟨_, execFpFromInts_of_emptyGeneric hg h sg s⟩
  case strings =>
    intro S X T hg h
    have refused := fromBinaryStrings_of_emptyGeneric hg h S s
    exact ⟨⟨_, refused⟩, fun hS hX hT => ⟨_, (execFpFromStr_of_parts hS hX hT F s).trans refused⟩⟩
  case infinity => exact fun hv => if_pos hv
  case normal =>
    intro hE
    exact ⟨normalConstant_refused hE _ s, normalConstant_refused hE _ s, normalConstant_refused hE _ s,
      normalConstant_refused hE _ s⟩
  case radix => exact fun t r hr => execFpFromRadix_refused hr F t

/-- Settles O55: each condition is decided before the later ones of its operation are read. -/
theorem priorityWithinOneOperation : Obligations.PriorityWithinOneOperation := by
  intro s F sub
  refine ⟨?emptyField, ?malformed, ?split, ?radix, ?numeral, ?integer, ?sign, ?rounding, ?root⟩
  case emptyField => exact fun S X T hg h => ⟨_, fromBinaryStrings_of_emptyGeneric hg h S s⟩
  case malformed => exact fun S X T hne h => fromBinaryStrings_malformed hne h s
  case split => exact fun t h => ⟨_, execFpFromStr_of_count h F s⟩
  case radix => exact fun t r hr => execFpFromRadix_refused hr F t
  case numeral =>
    intro t r hF hr h
    obtain ⟨-, hmalformed, -⟩ := CodecFamily.fromRadixReadsTheNumeral F t r s hF
    exact hmalformed hr (.inr h)
  case integer => exact fun sg e m he hm h => execFpFromInts_of_large (fun _ => ⟨he, hm⟩) (.inr (.inl h)) s
  case sign =>
    intro sg e m he hm hsv hev hmv hs
    exact (execFpFromInts_of_fits F hsv hev hmv s).trans (construct_of_signWidth (fun h => h.2.elim he hm) hs s)
  case rounding => exact fun x rm hF h => (execFpFromDouble_of_reserved h x F s).trans (withCodecFormat_of_ok hF)
  case root =>
    intro a hF ha h
    exact ⟨_, errorOutput_of_isNaN_or_isZero (codecOk_of_unitOk hF) h sub ▸ answers_fsqrt hF sub ha s⟩

end Sys2Proof.Machine.ExceptionFamily
end

section
/-! SUPPORT. The statements about reset and hazards (spec/70_reset_and_hazards.md): what a drive leaves unchanged, which
steps fault, what a unit's drive depends on, and where its captured inputs are after a script of drives. -/

namespace Sys2Proof.Machine

open Sys2Proof

/-! ### What a drive does -/

/-- The two ways a drive completes: the event holds and the unit's outputs are shown again, or it changes the slots and
the outputs are presented anew (R38, R40). -/
theorem driveUnit_next_cases {op : Meaning} {k : Nat} {pins : Pins} {i : Instr} {s t : State}
    (h : driveUnit op k pins i s = .next t) : ∃ u, s.units[k]? = some u ∧ fits u.cfg.kind i = true ∧
      ((clockEvent u.cfg pins = .hold ∧ t = s.put u.out) ∨
        presentOutputs op k { u with slots := clockSlots (clockEvent u.cfg pins) i u.slots } s = .next t) := by
  obtain ⟨u, hk, hf, h⟩ := driveUnit_next h
  refine ⟨u, hk, hf, ?_⟩
  by_cases he : clockEvent u.cfg pins = .hold
  · rw [he] at h
    injection h with h
    exact .inl ⟨he, h.symm⟩
  · exact .inr (clockUnit_of_ne_hold op k u i s he ▸ h)

/-- Presenting a unit's outputs writes that unit's output words, whatever the operation of its last slot answers. -/
theorem presentOutputs_exec_frame {k : Nat} {u : ClockedUnit} {s t : State} (h : presentOutputs exec k u s = .next t) :
    t.params = s.params ∧ t.program = s.program ∧ ∃ v, t.units = s.units.set k { u with out := v } := by
  rcases presentOutputs_next h with ⟨b, -, rfl⟩ | ⟨j, t', -, hop, ht⟩
  · exact ⟨rfl, rfl, _, rfl⟩
  · obtain ⟨hp, hunits, hprog, -⟩ := exec_frame hop
    rcases ht with ⟨v, -, rfl⟩ | ⟨-, rfl⟩
    · exact ⟨hp, hprog, v, congrArg (·.set k { u with out := v }) hunits⟩
    · exact ⟨hp, hprog, u.out, congrArg (·.set k u) hunits⟩

/-- A drive clocks the slots of its own unit, may change that unit's output words, and leaves the parameters, the queue
and the other units as they are (R469, R473). -/
theorem driveUnit_exec_frame {k : Nat} {pins : Pins} {i : Instr} {s t : State}
    (h : driveUnit exec k pins i s = .next t) : t.params = s.params ∧ t.program = s.program ∧ ∃ u v, s.units[k]? = some u ∧
      t.units = s.units.set k { u with slots := clockSlots (clockEvent u.cfg pins) i u.slots, out := v } := by
  obtain ⟨u, hk, -, ⟨he, rfl⟩ | h⟩ := driveUnit_next_cases h
  · refine ⟨rfl, rfl, u, u.out, hk, ?_⟩
    rw [he]
    obtain ⟨hlt, hget⟩ := List.getElem?_eq_some_iff.mp hk
    exact (hget ▸ List.set_getElem_self hlt).symm
  · obtain ⟨hp, hprog, v, hunits⟩ := presentOutputs_exec_frame h
    exact ⟨hp, hprog, u, v, hk, hunits⟩

/-! ### The parameters stay -/

/-- The open parameters are the same, and every clocked unit is still there with its configuration (R469). -/
def KeepsParameters (s t : State) : Prop :=
  t.params = s.params ∧
    ∀ (k : Nat) (u : ClockedUnit), s.units[k]? = some u → ∃ u', t.units[k]? = some u' ∧ u'.cfg = u.cfg

theorem KeepsParameters.of_units_eq {s t : State} (hp : t.params = s.params) (hunits : t.units = s.units) :
    KeepsParameters s t :=
  ⟨hp, fun _ u hk => ⟨u, hunits ▸ hk, rfl⟩⟩

/-- Taking an action from the queue touches neither. -/
theorem KeepsParameters.of_dropAction {s t : State} (h : KeepsParameters s.dropAction t) : KeepsParameters s t := h

theorem exec_keepsParameters {i : Instr} {s t : State} (h : exec i s = .next t) : KeepsParameters s t := by
  obtain ⟨hp, hunits, -⟩ := exec_frame h
  exact .of_units_eq hp hunits

theorem elaborateUnit_keepsParameters {c : UnitCfg} {s t : State} (h : elaborateUnit c s = .next t) :
    KeepsParameters s t := by
  rcases elaborateUnit_cases c s with ⟨r, e⟩ | ⟨-, -, -, e⟩
  · simp [e] at h
  · rw [e] at h
    injection h with h
    subst h
    exact ⟨rfl, fun k u hk => ⟨u, (List.getElem?_append_left (List.getElem?_eq_some_iff.mp hk).1).trans hk, rfl⟩⟩

theorem driveUnit_keepsParameters {k : Nat} {pins : Pins} {i : Instr} {s t : State}
    (h : driveUnit exec k pins i s = .next t) : KeepsParameters s t := by
  obtain ⟨hp, -, u, v, hk, hunits⟩ := driveUnit_exec_frame h
  refine ⟨hp, fun j w hj => ?_⟩
  rw [hunits]
  by_cases hjk : k = j
  · subst hjk
    obtain rfl : u = w := Option.some.inj (hk.symm.trans hj)
    exact ⟨_, List.getElem?_set_self (List.getElem?_eq_some_iff.mp hj).1, rfl⟩
  · exact ⟨w, (List.getElem?_set_ne hjk).trans hj, rfl⟩

/-! ### Faults -/

/-- An operation replies with a value, an error or a refusal, and so with no fault. -/
theorem exec_ne_fault (i : Instr) (s : State) (f : Fault) : exec i s ≠ .fault f := by
  have hr := RepliesAlike.exec i (s := s) rfl fun _ => rfl
  intro h
  rw [h] at hr
  cases hr

theorem presentOutputs_exec_ne_fault (k : Nat) (u : ClockedUnit) (s : State) (f : Fault) :
    presentOutputs exec k u s ≠ .fault f := by
  unfold presentOutputs
  split
  · exact nofun
  · next j hj =>
    split
    · split <;> exact nofun
    · next e he => exact absurd he (exec_ne_fault j s e)
    · exact nofun

theorem clockUnit_exec_ne_fault (k : Nat) (u : ClockedUnit) (e : ClockEvent) (i : Instr) (s : State) (f : Fault) :
    clockUnit exec k u e i s ≠ .fault f := by
  cases e with
  | hold => exact nofun
  | clear => exact presentOutputs_exec_ne_fault k _ s f
  | capture => exact presentOutputs_exec_ne_fault k _ s f

theorem driveUnit_of_not_admitted (op : Meaning) {k : Nat} {u : ClockedUnit} (pins : Pins) (i : Instr) {s : State}
    (hk : s.units[k]? = some u) (ha : admitted u.cfg = false) :
    driveUnit op k pins i s = .fault .stuckConfiguration := by
  simp [driveUnit, hk, ha]

theorem driveUnit_exec_fault {k : Nat} {pins : Pins} {i : Instr} {s : State} {f : Fault}
    (h : driveUnit exec k pins i s = .fault f) : ∃ u, s.units[k]? = some u ∧ admitted u.cfg = false := by
  rcases driveUnit_cases exec k pins i s with ⟨-, e⟩ | ⟨u, hk, ha, -⟩ | ⟨u, -, -, -, e⟩ | ⟨u, -, -, -, e⟩
  · simp [e] at h
  · exact ⟨u, hk, ha⟩
  · simp [e] at h
  · exact absurd (e ▸ h) (clockUnit_exec_ne_fault k u _ i s f)

theorem elaborateUnit_ne_fault (c : UnitCfg) (s : State) (f : Fault) : elaborateUnit c s ≠ .fault f := by
  rcases elaborateUnit_cases c s with ⟨r, e⟩ | ⟨-, -, -, e⟩ <;> simp [e]

theorem withDecoded_fault {v : Invocation} {g : Instr → StepOutcome} {f : Fault} (h : withDecoded v g = .fault f) :
    ∃ i, g i = .fault f := by
  cases hv : decode v with
  | ok i => exact ⟨i, by rwa [withDecoded_ok hv] at h⟩
  | error e => simp [withDecoded_error hv] at h

/-- The one fault there is: the oldest action drives a unit of a refused configuration (93 I26). -/
theorem step_fault {s : State} {f : Fault} (h : step s = .fault f) :
    ∃ (k : Nat) (pins : Pins) (v : Invocation) (rest : List HostAction) (u : ClockedUnit),
      s.program = .drive k pins v :: rest ∧ s.units[k]? = some u ∧ admitted u.cfg = false := by
  cases hp : s.program with
  | nil => simp [step_of_empty hp] at h
  | cons a rest =>
    rw [step_of_program hp] at h
    cases a with
    | invoke v =>
      obtain ⟨i, h⟩ := withDecoded_fault h
      exact absurd h (exec_ne_fault i _ f)
    | elaborate c => exact absurd h (elaborateUnit_ne_fault c _ f)
    | drive k pins v =>
      obtain ⟨i, h⟩ := withDecoded_fault h
      obtain ⟨u, hk, ha⟩ := driveUnit_exec_fault h
      exact ⟨k, pins, v, rest, u, rfl, hk, ha⟩

/-! ### What a drive depends on -/

/-- The same outcome as far as the outputs, clocked unit `k` and the reasons go. -/
inductive AgreeOnUnit (k : Nat) : StepOutcome → StepOutcome → Prop
  | next {t t' : State} (hout : t.out = t'.out) (hunit : t.units[k]? = t'.units[k]?) :
      AgreeOnUnit k (.next t) (.next t')
  | fault (f : Fault) : AgreeOnUnit k (.fault f) (.fault f)
  | refused (r : Refusal) : AgreeOnUnit k (.refused r) (.refused r)

theorem AgreeOnUnit.sameOutputs {k : Nat} {x x' : StepOutcome} (h : AgreeOnUnit k x x') : SameOutputs x x' := by
  cases h with
  | next hout hunit => exact hout
  | fault f => rfl
  | refused r => rfl

theorem AgreeOnUnit.unit {k : Nat} {x x' : StepOutcome} {t t' : State} (h : AgreeOnUnit k x x') (hx : x = .next t)
    (hx' : x' = .next t') : t.units[k]? = t'.units[k]? := by
  rw [hx, hx'] at h
  cases h with
  | next hout hunit => exact hunit

section

variable {s s' : State} {k : Nat}

/-- Unit `k` replaced by the same unit in two states that have one there or both have none. -/
theorem getElem?_set_of_agree (hk : s.units[k]? = s'.units[k]?) (u : ClockedUnit) :
    (s.units.set k u)[k]? = (s'.units.set k u)[k]? := by
  rw [List.getElem?_set_self', List.getElem?_set_self', hk]

theorem presentOutputs_agree (hp : s.params = s'.params) (hd : s.draws = s'.draws)
    (hk : s.units[k]? = s'.units[k]?) (u : ClockedUnit) :
    AgreeOnUnit k (presentOutputs exec k u s) (presentOutputs exec k u s') := by
  cases hl : lastSlot u.slots with
  | bottom b =>
    rw [presentOutputs_of_bottom exec k s hl, presentOutputs_of_bottom exec k s' hl, hd]
    exact .next rfl (getElem?_set_of_agree hk _)
  | captured j =>
    have hr := RepliesAlike.exec j hp fun _ => hd
    simp only [presentOutputs, hl]
    generalize exec j s = x, exec j s' = x' at hr ⊢
    cases hr with
    | value n v => exact .next rfl (getElem?_set_of_agree hk _)
    | error n e info => exact .next rfl (getElem?_set_of_agree hk _)
    | refusal r => exact .refused r

theorem clockUnit_agree (hp : s.params = s'.params) (hd : s.draws = s'.draws) (hk : s.units[k]? = s'.units[k]?)
    (u : ClockedUnit) (e : ClockEvent) (i : Instr) :
    AgreeOnUnit k (clockUnit exec k u e i s) (clockUnit exec k u e i s') := by
  cases e with
  | hold => exact .next rfl hk
  | clear => exact presentOutputs_agree hp hd hk _
  | capture => exact presentOutputs_agree hp hd hk _

theorem driveUnit_agree (hp : s.params = s'.params) (hd : s.draws = s'.draws) (hk : s.units[k]? = s'.units[k]?)
    (pins : Pins) (i : Instr) : AgreeOnUnit k (driveUnit exec k pins i s) (driveUnit exec k pins i s') := by
  unfold driveUnit
  rw [hk]
  cases s'.units[k]? with
  | none => exact .refused _
  | some u =>
    dsimp only
    split
    · exact .fault _
    · split
      · exact .refused _
      · exact clockUnit_agree hp hd hk u _ i

theorem withDecoded_agree (v : Invocation) {g g' : Instr → StepOutcome} (h : ∀ i, AgreeOnUnit k (g i) (g' i)) :
    AgreeOnUnit k (withDecoded v g) (withDecoded v g') := by
  cases hv : decode v with
  | ok i => simpa only [withDecoded_ok hv] using h i
  | error e => simpa only [withDecoded_error hv] using .refused _

end

/-! ### Where captured inputs are -/

/-- The inputs in a unit's slots in the order in which they reach the last slot, up to the register bits of ⊥
(R37; log 12). -/
def arrivals (slots : List Slot) : List Slot := (slots.map Slot.advance).reverse

@[simp] theorem arrivals_length (slots : List Slot) : (arrivals slots).length = slots.length := by
  simp [arrivals]

theorem advance_comp_advance : Slot.advance ∘ Slot.advance = Slot.advance := by
  funext x
  cases x <;> rfl

/-- An enabled edge moves every tuple one slot on and puts its own behind them (R38). -/
theorem arrivals_capture (i : Instr) (slots : List Slot) :
    arrivals (clockSlots .capture i slots) = (arrivals slots).tail ++ [.captured i] := by
  have hmap : clockSlots .capture i slots = (Slot.captured i :: slots.dropLast).map Slot.advance := rfl
  rw [hmap, arrivals, List.map_map, advance_comp_advance, List.map_cons, List.reverse_cons, List.map_dropLast,
    ← List.tail_reverse]
  rfl

theorem arrivals_head? {slots : List Slot} (h : slots ≠ []) :
    (arrivals slots).head? = some (lastSlot slots).advance := by
  rw [arrivals, List.head?_reverse, List.getLast?_map, lastSlot, List.getLastD_eq_getLast?,
    List.getLast?_eq_getLast_of_ne_nil h]
  rfl

theorem arrivals_of_bottoms {slots : List Slot} (h : ∀ x ∈ slots, ∃ b, x = .bottom b) :
    arrivals slots = List.replicate slots.length (.bottom .unknown) := by
  refine List.eq_replicate_iff.mpr ⟨arrivals_length slots, fun y hy => ?_⟩
  obtain ⟨x, hx, rfl⟩ := List.mem_map.mp (List.mem_reverse.mp hy)
  obtain ⟨b, rfl⟩ := h x hx
  rfl

theorem advance_eq_bottom {x : Slot} {b : RegBits} (h : x.advance = .bottom b) : ∃ b', x = .bottom b' := by
  cases x with
  | bottom b' => exact ⟨b', rfl⟩
  | captured i => cases h

theorem capturedInputs_cons_of_capture {c : UnitCfg} {x : Pins × Instr} (h : clockEvent c x.1 = .capture)
    (xs : List (Pins × Instr)) : capturedInputs c (x :: xs) = x.2 :: capturedInputs c xs := by
  simp [capturedInputs, h]

theorem capturedInputs_cons_of_hold {c : UnitCfg} {x : Pins × Instr} (h : clockEvent c x.1 = .hold)
    (xs : List (Pins × Instr)) : capturedInputs c (x :: xs) = capturedInputs c xs := by
  simp [capturedInputs, h]

/-- The slots of a unit of configuration `c` after a script of drives. -/
def clockScript (c : UnitCfg) (xs : List (Pins × Instr)) (slots : List Slot) : List Slot :=
  xs.foldl (fun slots x => clockSlots (clockEvent c x.1) x.2 slots) slots

/-- A script without a reset is a queue: its inputs join behind those in the slots, and each enabled edge takes the
oldest one out (R38, R472). -/
theorem arrivals_clockScript {c : UnitCfg} {xs : List (Pins × Instr)} (h : ∀ x ∈ xs, clockEvent c x.1 ≠ .clear)
    {slots : List Slot} (hne : slots ≠ []) :
    arrivals (clockScript c xs slots) =
      (arrivals slots ++ (capturedInputs c xs).map Slot.captured).drop (capturedInputs c xs).length := by
  induction xs generalizing slots with
  | nil => simp [clockScript, capturedInputs]
  | cons x xs ih =>
    obtain ⟨hx, hxs⟩ := List.forall_mem_cons.mp h
    change arrivals (clockScript c xs (clockSlots (clockEvent c x.1) x.2 slots)) = _
    cases he : clockEvent c x.1 with
    | clear => exact absurd he hx
    | hold => rw [capturedInputs_cons_of_hold he]; exact ih hxs hne
    | capture =>
      have hne' : clockSlots .capture x.2 slots ≠ [] := List.cons_ne_nil _ _
      rw [ih hxs hne', arrivals_capture, capturedInputs_cons_of_capture he]
      have harr : arrivals slots ≠ [] := mt (fun h => by simpa [arrivals] using h) hne
      obtain ⟨y, ys, hys⟩ := List.exists_cons_of_ne_nil harr
      simp [hys]

/-- The last slot after such a script is what stands in the queue at the number of its enabled edges. -/
theorem lastSlot_clockScript {c : UnitCfg} {xs : List (Pins × Instr)} (h : ∀ x ∈ xs, clockEvent c x.1 ≠ .clear)
    {slots : List Slot} (hne : slots ≠ []) (hne' : clockScript c xs slots ≠ []) :
    some (lastSlot (clockScript c xs slots)).advance =
      (arrivals slots ++ (capturedInputs c xs).map Slot.captured)[(capturedInputs c xs).length]? := by
  rw [← arrivals_head? hne', arrivals_clockScript h hne, List.head?_drop]

/-! ### A script of drives -/

theorem usesDraws_of_fits {k : UnitKind} {j : Instr} (h : fits k j = true) : usesDraws j = false := by
  unfold fits at h
  split at h
  case h_6 => cases h
  all_goals rfl

/-- An operation of a clocked unit completes with the same outputs in every state of the same parameters, however much
has been drawn since. -/
theorem exec_next_of_fits_of_params {k : UnitKind} {j : Instr} (hf : fits k j = true) {s s' t : State}
    (hp : s.params = s'.params) (h : exec j s = .next t) : ∃ t', exec j s' = .next t' ∧ t'.out = t.out := by
  have hr := RepliesAlike.exec j hp fun hd => by simp [usesDraws_of_fits hf] at hd
  rw [h] at hr
  exact hr.next

/-- Unit `k` of state `s` on a run from `s₀`: the parameters are those of `s₀`, the unit is `u`, as elaboration leaves it,
and its ports show the operation of the inputs in its last slot (R37, R40). -/
structure RunningUnit (s₀ : State) (k : Nat) (s : State) (u : ClockedUnit) : Prop where
  params : s.params = s₀.params
  unit : s.units[k]? = some u
  ok : unitOk u = true
  shows : ∀ j, lastSlot u.slots = .captured j → ∃ t, exec j s₀ = .next t ∧ t.out = .value u.out

/-- Every drive, a reset too, keeps a unit running and clocks its slots. -/
theorem RunningUnit.drive {s₀ s t : State} {k : Nat} {u : ClockedUnit} {pins : Pins} {i : Instr}
    (hr : RunningUnit s₀ k s u) (h : driveUnit exec k pins i s = .next t) : ∃ u', RunningUnit s₀ k t u' ∧
      u'.cfg = u.cfg ∧ u'.slots = clockSlots (clockEvent u.cfg pins) i u.slots := by
  have hp := (driveUnit_exec_frame h).1
  obtain ⟨u₁, hk, hf, h⟩ := driveUnit_next_cases h
  obtain rfl : u = u₁ := Option.some.inj (hr.unit.symm.trans hk)
  rcases h with ⟨he, rfl⟩ | h
  · exact ⟨u, ⟨hr.params, hr.unit, hr.ok, hr.shows⟩, rfl, by rw [he]; rfl⟩
  · have hok := unitOk_clockSlots (clockEvent u.cfg pins) hr.ok hf
    obtain ⟨v, -, hunits, -, hcap⟩ := presentOutputs_exec_next hok h
    have hunit := (congrArg (·[k]?) hunits).trans (List.getElem?_set_self (List.getElem?_eq_some_iff.mp hk).1)
    refine ⟨_, ⟨hp.trans hr.params, hunit, hok, fun j hj => ?_⟩, rfl, rfl⟩
    exact exec_next_of_fits_of_params (fits_of_lastSlot hok hj) hr.params (hcap j hj)

theorem run_succ_next {n : Nat} {s t : State} (h : (Host.Core.run core (n + 1) s : StepOutcome) = .next t) :
    ∃ s₁, step s = .next s₁ ∧ (Host.Core.run core n s₁ : StepOutcome) = .next t := by
  simp only [Host.Core.run] at h
  split at h
  · next s₁ hs => exact ⟨s₁, hs, h⟩
  · cases h
  · cases h

/-- A script that runs through leaves its unit running, with the slots that the script's events make. -/
theorem RunningUnit.script {s₀ s t : State} {k : Nat} {u : ClockedUnit} {xs : List (Pins × Instr)}
    {rest : List HostAction} (hr : RunningUnit s₀ k s u) (hprog : s.program = driveScript k xs ++ rest)
    (h : (Host.Core.run core xs.length s : StepOutcome) = .next t) : ∃ u', RunningUnit s₀ k t u' ∧
      u'.cfg = u.cfg ∧ u'.slots = clockScript u.cfg xs u.slots ∧ t.program = rest := by
  induction xs generalizing s u with
  | nil =>
    injection h with h
    subst h
    exact ⟨u, hr, rfl, rfl, hprog⟩
  | cons x xs ih =>
    obtain ⟨s₁, hstep, hrun⟩ := run_succ_next h
    rw [step_of_drive hprog] at hstep
    have hdrop : RunningUnit s₀ k s.dropAction u := ⟨hr.params, hr.unit, hr.ok, hr.shows⟩
    obtain ⟨u₁, hr₁, hcfg₁, hslots₁⟩ := hdrop.drive hstep
    obtain ⟨-, hprog₁, -⟩ := driveUnit_exec_frame hstep
    have hrest : s₁.program = driveScript k xs ++ rest := hprog₁.trans (congrArg List.tail hprog)
    obtain ⟨u', hr', hcfg', hslots', hprog'⟩ := ih hr₁ hrest hrun
    refine ⟨u', hr', hcfg'.trans hcfg₁, ?_, hprog'⟩
    rw [hslots', hcfg₁, hslots₁]
    rfl

end Sys2Proof.Machine

/-! ### The obligations -/

namespace Sys2Proof.Machine.HazardsFamily

open Sys2Proof Sys2Proof.Machine

/-- Settles O6, one kind of action after the other. -/
theorem parametersNeverChange : Obligations.ParametersNeverChange := by
  intro s t h
  change KeepsParameters s t
  rcases step_next h with ⟨-, rfl⟩ | ⟨-, -, i, -, -, h⟩ | ⟨c, -, -, h⟩ | ⟨k, pins, -, -, i, -, -, h⟩
  · exact .of_units_eq rfl rfl
  · exact (exec_keepsParameters h).of_dropAction
  · exact (elaborateUnit_keepsParameters h).of_dropAction
  · exact (driveUnit_keepsParameters h).of_dropAction

/-- Settles O9: an operation never faults, so only the guard of a drive does, and `StagesOk` passes it. -/
theorem onlyRefusedConfigurationsAreStuck : Obligations.OnlyRefusedConfigurationsAreStuck := by
  refine ⟨exec_ne_fault, fun s f h => step_fault h, fun s k pins i rest u hprog hk ha => ?_, fun s f hs h => ?_⟩
  · exact (step_of_drive hprog).trans (driveUnit_of_not_admitted exec pins i (s := s.dropAction) hk ha)
  · obtain ⟨k, pins, v, rest, u, -, hk, ha⟩ := step_fault h
    obtain ⟨ha', -⟩ := (clockedUnit_unitOk_iff u).mp (hs u (List.mem_of_getElem? hk))
    simp [ha] at ha'

/-- Settles O59: the unit's slots are a queue of LATENCY entries, all ⊥ at first. After `n` enabled edges its last slot
is entry `n` of those and the captured inputs, and its ports show the operation of that entry. -/
theorem outputsArriveLatencyEdgesLater : Obligations.OutputsArriveLatencyEdgesLater := by
  intro s t k u xs rest hprog hk hu hbot hclr hrun ins
  have hne := slots_ne_nil_of_unitOk hu
  obtain ⟨-, hlen, -⟩ := (clockedUnit_unitOk_iff u).mp hu
  have hstart : RunningUnit s k s u := by
    refine ⟨rfl, hk, hu, fun j hj => ?_⟩
    have hhead := arrivals_head? hne
    simp [arrivals_of_bottoms hbot, List.head?_replicate, hj, Slot.advance] at hhead
  obtain ⟨u', hr, hcfg, hslots, hrest⟩ := hstart.script hprog hrun
  have hlast := lastSlot_clockScript hclr hne (hslots ▸ slots_ne_nil_of_unitOk hr.ok)
  rw [← hslots, arrivals_of_bottoms hbot, hlen] at hlast
  refine ⟨u', hr.unit, hcfg, hrest, fun hn => ?_, fun j hn hj => ?_⟩
  · rw [List.getElem?_append_left (by simpa using hn), List.getElem?_replicate, if_pos hn] at hlast
    exact advance_eq_bottom (Option.some.inj hlast)
  · rw [List.getElem?_append_right (by simpa using hn), List.length_replicate, List.getElem?_map, hj] at hlast
    have hcap := (advance_eq_captured_iff _ j).mp (Option.some.inj hlast)
    exact ⟨hcap, hr.shows j hcap⟩

/-- Settles O60: a drive reads the parameters, the draw count and its own unit, and writes its own unit only. -/
theorem unitsAreIndependent : Obligations.UnitsAreIndependent := by
  intro s s' k pins v rest rest' hprog hprog' hp hd hk
  rw [step_of_program hprog, step_of_program hprog']
  have hagree := withDecoded_agree v (driveUnit_agree (s := s.dropAction) (s' := s'.dropAction) hp hd hk pins)
  refine ⟨hagree.sameOutputs, fun t t' ht ht' => ⟨hagree.unit ht ht', fun j hj => ?_⟩⟩
  obtain ⟨i, -, ht⟩ := withDecoded_next ht
  obtain ⟨-, -, u, w, -, hunits⟩ := driveUnit_exec_frame ht
  exact hunits ▸ List.getElem?_set_ne hj.symm

end Sys2Proof.Machine.HazardsFamily
end
